-- ==== Sys2Proof/Word.lean ====
section
/-! DEFINITION. The one word this hardware has: the byte (spec/00_scope.md R9 item 1, spec/20_memory.md
R50 and R56: every cell, every field of every frame and every access is one byte wide). Everything wider
(`fill`, `drain`, `overruns`, `tick`) is a count or an index whose width is a parameter, and is a `Nat`
kept in range by the operation that writes it. -/

namespace Sys2Proof

/-- A byte: 8 bits, unsigned, bit 0 the least significant (R9 items 1 and 2). -/
abbrev Byte := BitVec 8

end Sys2Proof
end

