-- ==== Sys2Proof/Config.lean ====
section
/-! DEFINITION. The configuration constants of the hardware (spec/00_scope.md R6, spec/10_state.md R34),
and the free values: what the spec leaves to the environment or does not state, as constants without a
body, so that no proof can see what they are. -/

namespace Sys2Proof

/-- `TRANSPORT` (R6, R7): which transport the build contains. `serial` and `i2c` are the two builds of
R6; `both` is the product of the two blocks that R7 allows ("a model that instantiates both blocks side
by side is the product of the two and no rule changes"). Log entry 2. -/
inductive Transport where
  | serial
  | i2c
  | both
  deriving DecidableEq, Repr

/-- The three blocks of R1: the serial FIFO block, the I2C framing engine, the timing source. -/
inductive Block where
  | serial
  | i2c
  | timing
  deriving DecidableEq, Repr

/-- The parameters of R6, with the defaults R6 gives them (the default of `transport`: log entry 2). -/
structure Config where
  /-- `C`: the number of cells of the circular buffer. -/
  c : Nat := 512
  /-- `OVR_W`: the width of the overrun counter. -/
  ovrW : Nat := 32
  /-- `TICK_W`: the width of the tick counter, at least 32. -/
  tickW : Nat := 32
  /-- `ADDR_W`: the width of the I2C `address` operand. -/
  addrW : Nat := 7
  /-- `LEN_W`: the width of the serial transmit length. -/
  lenW : Nat := 16
  /-- `T_SERIAL_TX_MS`: the serial transmit timeout. -/
  serialTxMs : Nat := 5000
  /-- `T_I2C_WRITE_MS`: the I2C master write timeout. -/
  i2cWriteMs : Nat := 250
  /-- `T_I2C_READ_MS`: the I2C master read timeout. -/
  i2cReadMs : Nat := 10
  /-- `I2C_REQ_ATTEMPTS`: the total number of attempts of the request write. -/
  i2cReqAttempts : Nat := 3
  /-- `TRANSPORT`. -/
  transport : Transport := .both
  deriving DecidableEq, Repr

/-- `IDX_W`, the width of `fill` and `drain`: ceil(log2 C) (R6), written for `C >= 2`. -/
def Config.idxW (k : Config) : Nat := Nat.log2 (k.c - 1) + 1

/-- Which blocks a build contains (R7); the timing source exists in every build (spec/42_timing_source.md). -/
def Config.has (k : Config) : Block → Bool
  | .serial => k.transport != .i2c
  | .i2c => k.transport != .serial
  | .timing => true

/-- What a cell of memory that nothing has written reads as (R36: unspecified; log entry 4, DESIGN CHOICE). -/
def Config.unlistedByte : Byte := 0

/-- FREE VALUE. The answer (`ok` or not) an environment primitive gives when the state's script of
answers is empty (spec/40_serial_fifo.md R107, spec/41_i2c_framing.md R133 and R134: "a free input of
the step"). Applied to the counter `freeIdx` of the state. Log entry 6. -/
opaque Config.freeOk : Nat → Bool

/-- FREE VALUE. How many bytes a failed `LineTx` sent, when the script is empty (R107). Log entry 6. -/
opaque Config.freeLeft : Nat → Nat

/-- FREE VALUE. Byte `i` of a byte sequence that the outside supplies and the state does not list: a
`BusRead` answer, or a caller's buffer shorter than the length it states. Log entries 6 and 8. -/
opaque Config.freeByte : Nat → Nat → Byte

end Sys2Proof
end

