-- ==== Sys2Proof/Syntax.lean ====
section
/-! DEFINITION. The operations of the command port and the I2C wire frames, one constructor per row of
spec/opcode_table.json (spec/30_encoding.md R75 to R82); and what carries them: the operand ports of the
command port (R76) and the data of a bus transaction (R80 to R82). -/

namespace Sys2Proof

/-- One constructor per row of spec/opcode_table.json. The operands are those of R76 (their widths, where
the spec leaves them open, are parameters and are checked by `WellFormed`) and of the frames R80 to R82. -/
inductive Instr where
  /-- S_RESET (R100). -/
  | sReset
  /-- S_PUSH `data` (R101): the received byte. -/
  | sPush (data : Byte)
  /-- S_AVAIL (R102). -/
  | sAvail
  /-- S_POP (R103). -/
  | sPop
  /-- S_TX `flush lenN txbuf` (R104). -/
  | sTx (flush : Bool) (lenN : Nat) (txbuf : List Byte)
  /-- S_OVR (R105). -/
  | sOvr
  /-- I_RESET (R130). -/
  | iReset
  /-- I_TX `flush addr len8 txbuf` (R131). -/
  | iTx (flush : Bool) (addr : Nat) (len8 : Byte) (txbuf : List Byte)
  /-- I_RX `addr len8` (R132). -/
  | iRx (addr : Nat) (len8 : Byte)
  /-- T_NOW (R160). -/
  | tNow
  /-- T_SLEEP `dur` (R161). -/
  | tSleep (dur : Nat)
  /-- Op code 0x6, reserved (R79). -/
  | reserved6
  /-- Op code 0x7, reserved (R79). -/
  | reserved7
  /-- Op code 0xB, reserved (R79). -/
  | reservedB
  /-- Op code 0xE, reserved (R79). -/
  | reservedE
  /-- Op code 0xF, reserved (R79). -/
  | reservedF
  /-- FRAME_WRITE (R80): `[length][payload]`, the data of I_TX's one master write. -/
  | frameWrite (length : Byte) (payload : List Byte)
  /-- FRAME_READ_REQUEST (R81): `[0x00][length]`, the data of one request write of I_RX. -/
  | frameReadRequest (length : Byte)
  /-- FRAME_READ_RESPONSE (R82): `[available][echoed_length][payload]`, the data of I_RX's one master read. -/
  | frameReadResponse (available echoed : Byte) (payload : List Byte)
  deriving DecidableEq, Repr

/-- The command port as one presentation carries it (R75, R76): the op code and every operand port. The
ports whose width is a parameter carry a number; the decoder keeps the bits the port has. -/
structure Ports where
  op : BitVec 4
  data : Byte := 0
  flush : Bool := false
  lenN : Nat := 0
  addr : Nat := 0
  len8 : Byte := 0
  dur : Nat := 0
  txbuf : List Byte := []
  deriving DecidableEq, Repr

/-- What an instruction is read from: one presentation on the command port, or the bytes of a master
write or of a master read, byte 0 first on the bus (R55). -/
inductive Presentation where
  | command (p : Ports)
  | busWriteData (bytes : List Byte)
  | busReadData (bytes : List Byte)
  deriving DecidableEq, Repr

end Sys2Proof
end

