-- ==== Sys2Proof/WellFormed.lean ====
section
/-! DEFINITION. Which configurations are legal (spec/00_scope.md R6) and which instructions fit the ports
and frames that carry them (spec/30_encoding.md R76, R80, R82). -/

namespace Sys2Proof

/-- A legal configuration: `C >= 2` and `TICK_W >= 32` (R6), and at least one request attempt (R140:
the number of `BusWrite` transactions of one I_RX is between 1 and `I2C_REQ_ATTEMPTS`; log entry 3). -/
abbrev Config.Ok (k : Config) : Prop :=
  2 ≤ k.c ∧ 32 ≤ k.tickW ∧ 1 ≤ k.i2cReqAttempts

/-- The operands fit: an operand fits its port (R76), a payload has as many bytes as its length says
(R76, R80), a response frame has at most 257 bytes (R82). -/
def WellFormed (k : Config) : Instr → Bool
  | .sTx _ lenN txbuf => decide (lenN < 2 ^ k.lenW) && txbuf.length == lenN
  | .iTx _ addr len8 txbuf => decide (addr < 2 ^ k.addrW) && txbuf.length == len8.toNat
  | .iRx addr _ => decide (addr < 2 ^ k.addrW)
  | .tSleep dur => decide (dur < 2 ^ k.tickW)
  | .frameWrite length payload => payload.length == length.toNat
  | .frameReadResponse _ _ payload => decide (payload.length ≤ 255)
  | .sReset => true
  | .sPush _ => true
  | .sAvail => true
  | .sPop => true
  | .sOvr => true
  | .iReset => true
  | .tNow => true
  | .reserved6 => true
  | .reserved7 => true
  | .reservedB => true
  | .reservedE => true
  | .reservedF => true
  | .frameReadRequest _ => true

end Sys2Proof
end

