-- ==== Sys2Proof/Decode.lean ====
section
/-! DEFINITION. The decoder, total on every presentation and rejecting by name, and the encoder, both
written from spec/30_encoding.md R75 to R82. -/

namespace Sys2Proof

/-- Why bytes on the bus are no frame of R80 to R82. -/
inductive Reject where
  /-- A master write of no bytes: no frame is that short (R80: 1 to 256 bytes). -/
  | emptyWrite
  /-- A master write whose byte 0 is not the number of payload bytes that follow (R80), and which is no
  read request (R81). -/
  | lengthDisagrees
  /-- A master read of fewer than the 2 header bytes (R82: 2 to 257 bytes). -/
  | shortResponse
  /-- A master read of more than 257 bytes (R82). -/
  | longResponse
  deriving DecidableEq, Repr

/-- The op code map of R78 and R79. The op code alone selects the operation, and a port the operation
does not use is ignored (R75). A port of parameter width carries that many bits (R76). Of `txbuf` the
first `lenN` or `len8` bytes are the payload (R53, R76). -/
def decodeCommand (k : Config) (p : Ports) : Instr :=
  match p.op.toNat with
  | 0x0 => .sReset
  | 0x1 => .sPush p.data
  | 0x2 => .sAvail
  | 0x3 => .sPop
  | 0x4 => .sTx p.flush (p.lenN % 2 ^ k.lenW) (p.txbuf.take (p.lenN % 2 ^ k.lenW))
  | 0x5 => .sOvr
  | 0x6 => .reserved6
  | 0x7 => .reserved7
  | 0x8 => .iReset
  | 0x9 => .iTx p.flush (p.addr % 2 ^ k.addrW) p.len8 (p.txbuf.take p.len8.toNat)
  | 0xA => .iRx (p.addr % 2 ^ k.addrW) p.len8
  | 0xB => .reservedB
  | 0xC => .tNow
  | 0xD => .tSleep (p.dur % 2 ^ k.tickW)
  | 0xE => .reservedE
  | _ => .reservedF

/-- The two frames of a master write (R80, R81). `[0x00]` alone is the empty write frame, `[0x00, length]`
the read request; any other first byte counts the payload bytes that follow. -/
def decodeWriteData : List Byte → Except Reject Instr
  | [] => .error .emptyWrite
  | [length] => if length = 0 then .ok (.frameWrite 0 []) else .error .lengthDisagrees
  | b0 :: b1 :: rest =>
    if b0 = 0 then
      if rest = [] then .ok (.frameReadRequest b1) else .error .lengthDisagrees
    else if rest.length + 1 = b0.toNat then .ok (.frameWrite b0 (b1 :: rest))
    else .error .lengthDisagrees

/-- The frame of a master read (R82). Byte 1 is not checked here: R136 checks it against the request. -/
def decodeReadData : List Byte → Except Reject Instr
  | available :: echoed :: payload =>
    if payload.length ≤ 255 then .ok (.frameReadResponse available echoed payload)
    else .error .longResponse
  | _ => .error .shortResponse

/-- The decoder. -/
def decode (k : Config) : Presentation → Except Reject Instr
  | .command p => .ok (decodeCommand k p)
  | .busWriteData bytes => decodeWriteData bytes
  | .busReadData bytes => decodeReadData bytes

/-- The encoder: the op code of R78 with the ports its format uses (R75), or the bytes of the frame
(R80 to R82). -/
def encode : Instr → Presentation
  | .sReset => .command { op := 0x0 }
  | .sPush data => .command { op := 0x1, data := data }
  | .sAvail => .command { op := 0x2 }
  | .sPop => .command { op := 0x3 }
  | .sTx flush lenN txbuf => .command { op := 0x4, flush := flush, lenN := lenN, txbuf := txbuf }
  | .sOvr => .command { op := 0x5 }
  | .reserved6 => .command { op := 0x6 }
  | .reserved7 => .command { op := 0x7 }
  | .iReset => .command { op := 0x8 }
  | .iTx flush addr len8 txbuf =>
    .command { op := 0x9, flush := flush, addr := addr, len8 := len8, txbuf := txbuf }
  | .iRx addr len8 => .command { op := 0xA, addr := addr, len8 := len8 }
  | .reservedB => .command { op := 0xB }
  | .tNow => .command { op := 0xC }
  | .tSleep dur => .command { op := 0xD, dur := dur }
  | .reservedE => .command { op := 0xE }
  | .reservedF => .command { op := 0xF }
  | .frameWrite length payload => .busWriteData (length :: payload)
  | .frameReadRequest length => .busWriteData [0, length]
  | .frameReadResponse available echoed payload => .busReadData (available :: echoed :: payload)

/-- What a word of spec/opcode_table.json stands for. The op code rows have 4 bits (bits 3:0; the other
bits of their byte belong to no port) and give the operand ports no bits: those carry zeros. The one
16-bit row is FRAME_READ_REQUEST, whose byte 0, the first on the bus, is bits 15:8 of the row
(log entry 10). -/
def presentationOfTableWord (nbits w : Nat) : Presentation :=
  if nbits = 16 then .busWriteData [BitVec.ofNat 8 (w / 256), BitVec.ofNat 8 w]
  else .command { op := BitVec.ofNat 4 w }

/-- The instruction the decoder reads from a word of the opcode table, at the default configuration. -/
def decodeTableWord (nbits w : Nat) : Option Instr :=
  match decode {} (presentationOfTableWord nbits w) with
  | .ok i => some i
  | .error _ => none

end Sys2Proof
end

