-- ==== Sys2Proof/Machine/State.lean ====
section
/-! DEFINITION. The state of the machine (spec/10_state.md R20 to R39, spec/20_memory.md R50), the events
that drive it (spec/00_scope.md R8), what it shows to the outside (R11), and the reasons a step stops.
INVENTORY.md lists every field with its rule and its reset value. -/

namespace Sys2Proof.Machine

/-- The agents that take steps (R8). -/
inductive Agent where
  | producer
  | consumer
  | line
  | bus
  | alloc
  | ticker
  deriving DecidableEq, Repr

/-- The two roles in place of privilege modes (spec/60_exceptions.md R184). -/
inductive Role where
  | producer
  | consumer
  deriving DecidableEq, Repr

/-- Who presents an operation: the one producer, the one consumer, or an agent in excess of them, which
R8 and R184 put out of contract. -/
inductive Presenter where
  | producer
  | consumer
  | secondProducer
  | secondConsumer
  deriving DecidableEq, Repr

/-- The values of the I2C engine's sequencer register `phase` (R32). -/
inductive Phase where
  | idle
  | txAlloc
  | txWrite
  | rxRequest
  | rxAlloc
  | rxRead
  | rxValidate
  deriving DecidableEq, Repr

/-- The operands of the I2C operation in progress (R135: the consumer is inside the operation). -/
inductive I2cOp where
  | tx (flush : Bool) (addr : Nat) (len8 : Byte) (txbuf : List Byte)
  | rx (addr : Nat) (len8 : Byte)
  deriving DecidableEq, Repr

/-- Where the one consumer is: ready for its next operation, held in S_POP (R103), held in T_SLEEP with
the sampled `t0` and the duration (R161), or inside an I2C operation run as several steps (R135). -/
inductive Consumer where
  | ready
  | heldPop
  | sleeping (t0 dur : Nat)
  | inI2c (op : I2cOp)
  deriving DecidableEq, Repr

/-- A byte-addressed space (R50): address and byte pairs, addresses strictly rising, and no entry equal
to what an unlisted address reads as (`Memory.wf`). -/
abbrev Memory := List Host.Cell

/-- A scratch region (R31): its size and its cells. -/
structure Scratch where
  size : Nat
  cells : Memory
  deriving DecidableEq, Repr

/-- The result codes of R170. The reserved codes 5, 6 and 7 are never returned. -/
inductive Code where
  | ok
  | errAlloc
  | errWrite
  | errRead
  | errLenMismatch
  deriving DecidableEq, Repr

/-- The result ports (spec/30_encoding.md R77). A port the operation does not define carries no value. -/
structure Result where
  code : Code
  rflag : Option Bool := none
  rbyte : Option Byte := none
  rcount : Option Nat := none
  rtick : Option Nat := none
  ravail : Option Byte := none
  rxbuf : Option (List Byte) := none
  deriving DecidableEq, Repr

/-- One operation's return: which role's operation it was, and the result ports. -/
structure Returned where
  role : Role
  result : Result
  deriving DecidableEq, Repr

/-- The answer of `LineTx` (R107): all bytes went, or it failed after `left` of them had left. -/
inductive LineAnswer where
  | ok
  | fail (left : Nat)
  deriving DecidableEq, Repr

/-- One call of an environment primitive (R9 item 7) with its operands and the answer it got. `busWrite`
and `busRead` are the transaction records `W` and `R` of R85. -/
inductive EnvCall where
  | lineDeinit
  | lineInit
  | lineArmRx
  | lineTx (bytes : List Byte) (flush : Bool) (timeoutMs : Nat) (answer : LineAnswer)
  | busDeinit
  | busInit
  | busWrite (addr : Nat) (bytes : List Byte) (timeoutMs : Nat) (ok : Bool)
  | busRead (addr n timeoutMs : Nat) (answer : Option (List Byte))
  | alloc (n : Nat) (ok : Bool)
  | free
  deriving DecidableEq, Repr

/-- The environment's answers still to come, oldest first, one script per kind of primitive. Where a
script is empty the answer is a free value (log entry 6). -/
structure Answers where
  line : List LineAnswer := []
  write : List Bool := []
  read : List (Option (List Byte)) := []
  alloc : List Bool := []
  deriving DecidableEq, Repr

/-- What can move the machine, one agent's step each (R8, R11). -/
inductive Event where
  /-- An agent presents an operation on the command port and it runs as one atomic transition (R59). -/
  | command (who : Presenter) (p : Ports)
  /-- The same for the multi-step reading of I_TX and I_RX (R135): the arrow out of `IDLE`. -/
  | commandStepwise (who : Presenter) (p : Ports)
  /-- One arrow of R135 out of the present phase. -/
  | arrow
  /-- BUS answers the pending `BusRead` with these bytes (R82, R133). -/
  | busResponse (bytes : List Byte)
  /-- LINE has received one byte (R107, R177). -/
  | byteArrived (b : Byte)
  /-- The held consumer looks whether it may complete (R103, R161). -/
  | resume
  /-- TICKER's step (R162). -/
  | tick
  deriving DecidableEq, Repr

/-- Why the machine stops with a fault. The spec treats nothing as a fault (spec/93 Part 1, last line);
the one here is the access to an address that does not exist. -/
inductive Fault where
  /-- Raised by S_PUSH, S_POP and the completion of a held S_POP: a `BUF` address `C` or above (R50, R51).
  No state that meets the invariant R27 raises it. Safe. -/
  | bufAddress (address : Nat)
  deriving DecidableEq, Repr

/-- Why the hardware gives a presentation no meaning (R10 item 2). All of them are safe. -/
inductive Refusal where
  /-- Raised by `exec` for an instruction that has no meaning in the model yet. None is left. Safe. -/
  | notModelled (mnemonic : String)
  /-- Raised by the five reserved op codes (R79). Safe: the spec refuses them. -/
  | reservedOp (op : Nat)
  /-- Raised by an operation of the transport the build does not contain (R7). Safe: the spec refuses it. -/
  | absentTransport
  /-- Raised by an operation presented by a second producer or a second consumer (R8, R184). Safe. -/
  | secondAgent
  /-- Raised by an operation presented by the wrong role (R184). Safe. -/
  | wrongRole
  /-- Raised by an I2C operation presented while `phase` is not `IDLE` (R139). Safe. -/
  | i2cInProgress
  /-- Raised by a consumer operation presented while the one consumer is held or inside an operation: it
  comes from a second concurrent consumer (R10 item 2, R210). Safe. -/
  | consumerBusy
  /-- Raised by an operation of a block before that block's first reset (R201). Safe. -/
  | beforeReset
  /-- Raised by a frame on the bus that the I2C operation in progress does not call for, and by a
  sequencer arrow in a phase whose operands or scratch region are not there, which no run reaches
  (R135, R139). Safe. -/
  | noI2cInProgress
  /-- Raised by `step` when BUS answers with bytes that are no read-response frame (R82, R133). Safe. -/
  | badFrame
  deriving DecidableEq, Repr

/-- The state. -/
structure State where
  /-- The configuration constants (R34). No step changes them. -/
  cfg : Config
  /-- `BUF`, the cells of the circular buffer (R20). -/
  buf : Memory
  /-- `fill`, the next write position (R21). -/
  fill : Nat
  /-- `drain`, the next read position (R22). -/
  drain : Nat
  /-- `overruns`, the saturating overrun counter (R23). -/
  overruns : Nat
  /-- `rx_armed` (R24). -/
  rxArmed : Bool
  /-- `s_init` (R25). -/
  sInit : Bool
  /-- `i_init` (R30). -/
  iInit : Bool
  /-- `phase` (R32). -/
  phase : Phase
  /-- `attempt` (R32). -/
  attempt : Nat
  /-- `scratch` (R31): none when it does not exist. -/
  scratch : Option Scratch
  /-- `tick` (R33). -/
  tick : Nat
  /-- `RXBUF`, the caller's out buffer (R39, R50). -/
  rxbuf : Memory
  /-- Where the consumer is (R103, R135, R161). -/
  consumer : Consumer
  /-- Who presents the operation now on the command port (R184). -/
  presenter : Presenter
  /-- The results returned so far, oldest first (R11). -/
  results : List Returned
  /-- The calls of environment primitives so far, oldest first (R11, R85). -/
  trace : List EnvCall
  /-- The agents' steps still to come, oldest first (R11). -/
  inputs : List Event
  /-- The environment's answers still to come. -/
  answers : Answers
  /-- The model's own counter: the index of the next free value. -/
  freeIdx : Nat
  deriving DecidableEq, Repr

/-- What `exec` and `step` answer. -/
abbrev Answer := Host.Outcome State Fault Refusal

/-- Power-on (R36, R200). The registers the spec leaves unspecified there (`buf`, `fill`, `drain`,
`overruns`, `tick`) are zero by log entry 1, and so are the outside's parts by log entry 5. -/
def State.reset : State where
  cfg := {}
  buf := []
  fill := 0
  drain := 0
  overruns := 0
  rxArmed := false
  sInit := false
  iInit := false
  phase := .idle
  attempt := 0
  scratch := none
  tick := 0
  rxbuf := []
  consumer := .ready
  presenter := .consumer
  results := []
  trace := []
  inputs := []
  answers := {}
  freeIdx := 0

end Sys2Proof.Machine
end

