-- ==== Sys2Proof/Machine/Flags.lean ====
section
/-! DEFINITION. The derived conditions of spec/10_state.md R26 (none is stored) and the arithmetic of
spec/40_serial_fifo.md R106 and spec/42_timing_source.md R163. -/

namespace Sys2Proof.Machine

/-- The index update `(i + 1) mod C` (R106). -/
def idxNext (k : Config) (i : Nat) : Nat := (i + 1) % k.c

/-- `occ = (fill - drain) mod C` (R26), with the non-negative remainder of R9 item 3. -/
def occ (s : State) : Nat := (s.fill + s.cfg.c - s.drain) % s.cfg.c

/-- `avail`: `fill != drain` (R26). -/
def avail (s : State) : Bool := s.fill != s.drain

/-- `full`: `(fill + 1) mod C = drain` (R26). -/
def full (s : State) : Bool := idxNext s.cfg s.fill == s.drain

/-- The saturating increment on `OVR_W` bits (R106). -/
def satInc (k : Config) (v : Nat) : Nat := if v = 2 ^ k.ovrW - 1 then v else v + 1

/-- The next tick, `(tick + 1) mod 2^TICK_W` (R162). -/
def tickNext (k : Config) (t : Nat) : Nat := (t + 1) % 2 ^ k.tickW

/-- The ticks elapsed from reading `t0` to reading `t1`: `(t1 - t0) mod 2^TICK_W`, the borrow discarded
(R163). -/
def elapsed (k : Config) (t0 t1 : Nat) : Nat := (t1 + 2 ^ k.tickW - t0 % 2 ^ k.tickW) % 2 ^ k.tickW

end Sys2Proof.Machine
end

