-- ==== Sys2Proof/Machine/Memory.lean ====
section
/-! DEFINITION. The operations over a byte-addressed space (spec/20_memory.md R50, spec/00_scope.md R9
item 6): every access is one byte wide. -/

namespace Sys2Proof.Machine

/-- `MemRead(space, a, 1)`. -/
def Memory.read : Memory → Nat → Byte
  | [], _ => Config.unlistedByte
  | (a, b) :: rest, x => if x = a then b else Memory.read rest x

/-- The cell a write of `v` leaves listed: none for the value an unlisted address reads as. -/
def Memory.cell (x : Nat) (v : Byte) : Memory := if v = Config.unlistedByte then [] else [(x, v)]

/-- `MemWrite(space, x, 1, v)`, keeping the canonical form. -/
def Memory.write : Memory → Nat → Byte → Memory
  | [], x, v => Memory.cell x v
  | (a, b) :: rest, x, v =>
    if x < a then Memory.cell x v ++ (a, b) :: rest
    else if x = a then Memory.cell x v ++ rest
    else (a, b) :: Memory.write rest x v

/-- Bytes written at rising addresses from `x` (R53: increasing index order). -/
def Memory.writeBytes (m : Memory) (x : Nat) : List Byte → Memory
  | [] => m
  | b :: rest => Memory.writeBytes (Memory.write m x b) (x + 1) rest

/-- The `n` bytes from address `x`. -/
def Memory.readBytes (m : Memory) (x n : Nat) : List Byte :=
  (List.range n).map fun i => Memory.read m (x + i)

/-- The canonical form: addresses strictly rising, and no entry that reads as an unlisted address does. -/
abbrev Memory.wf (m : Memory) : Prop :=
  m.Pairwise (fun c d => c.1 < d.1) ∧ ∀ c ∈ m, c.2 ≠ Config.unlistedByte

end Sys2Proof.Machine
end

