-- ==== Sys2Proof/Machine/Operands.lean ====
section
/-! DEFINITION. How operands are read (spec/30_encoding.md R76, R80, R81, R84): byte sequences of a stated
length, and the sizes and bytes of the frames. -/

namespace Sys2Proof.Machine

/-- The first `n` bytes of a sequence that the outside supplies, and a free byte where it supplies none
(R53, R76, R133; log entries 6 and 8). `k` indexes the free bytes. -/
def takeBytes (n k : Nat) (bytes : List Byte) : List Byte :=
  (List.range n).map fun i => bytes.getD i (Config.freeByte k i)

/-- The size of the write frame, `zext_9(len8) + 1` (R84). -/
def writeFrameSize (len8 : Byte) : Nat := len8.toNat + 1

/-- The size of the read-response frame, `zext_9(len8) + 2` (R84). -/
def responseSize (len8 : Byte) : Nat := len8.toNat + 2

/-- The write frame `[length][payload]` (R80). -/
def writeFrame (len8 : Byte) (payload : List Byte) : List Byte := len8 :: payload

/-- The read-request frame `[0x00][length]` (R81). -/
def requestFrame (len8 : Byte) : List Byte := [0, len8]

end Sys2Proof.Machine
end

