-- ==== Sys2Proof/Machine/Ops.lean ====
section
/-! DEFINITION. The named operations the meanings share: who may present what (spec/00_scope.md R10,
spec/60_exceptions.md R184, spec/70_reset_and_hazards.md R201), returning a result
(spec/60_exceptions.md R176: this is all there is in place of taking an exception and returning from
one), and the environment primitives (spec/00_scope.md R9 item 7, spec/40_serial_fifo.md R107,
spec/41_i2c_framing.md R133 and R134). -/

namespace Sys2Proof.Machine

/-! ## Who may present an operation -/

/-- The role a presenter claims (R184). -/
def Presenter.role : Presenter → Role
  | .producer => .producer
  | .consumer => .consumer
  | .secondProducer => .producer
  | .secondConsumer => .consumer

/-- Whether the presenter is in excess of the one producer and the one consumer (R8, R184). -/
def Presenter.isSecond : Presenter → Bool
  | .producer => false
  | .consumer => false
  | .secondProducer => true
  | .secondConsumer => true

/-- Whether a block's first reset has run (R25, R30); the timing source needs none (R204). -/
def State.blockReset (s : State) : Block → Bool
  | .serial => s.sInit
  | .i2c => s.iInit
  | .timing => true

/-- Why the operation now presented is refused, if it is (R10 item 2): an operation of block `b`, for
role `r`, which needs the block's first reset or does not. -/
def whyRefused (b : Block) (r : Role) (needsReset : Bool) (s : State) : Option Refusal :=
  if s.cfg.has b = false then some .absentTransport
  else if s.presenter.isSecond = true then some .secondAgent
  else if s.presenter.role ≠ r then some .wrongRole
  else if b = .i2c ∧ s.phase ≠ .idle then some .i2cInProgress
  else if r = .consumer ∧ s.consumer ≠ .ready then some .consumerBusy
  else if needsReset = true ∧ s.blockReset b = false then some .beforeReset
  else none

/-- An operation runs, or is refused and changes nothing. -/
def guarded (b : Block) (r : Role) (needsReset : Bool) (s : State) (run : State → Answer) : Answer :=
  match whyRefused b r needsReset s with
  | some why => .refused why
  | none => run s

/-! ## Results -/

/-- The number of a result code on the port `code[2:0]` (R170). -/
def Code.number : Code → BitVec 3
  | .ok => 0
  | .errAlloc => 1
  | .errWrite => 2
  | .errRead => 3
  | .errLenMismatch => 4

/-- `return (code, values...)` (R9 item 8) to an operation of role `r`. -/
def State.ret (s : State) (r : Role) (res : Result) : State :=
  { s with results := s.results ++ [{ role := r, result := res }] }

/-- `return` at the end of I_TX: the sequencer is back in `IDLE` and the consumer out of the operation
(R131, R176). -/
def State.endTx (s : State) (res : Result) : State :=
  ({ s with phase := .idle, consumer := .ready } : State).ret .consumer res

/-- `return` at the end of I_RX: as for I_TX, and `attempt <- 0` (R132, R176). -/
def State.endRx (s : State) (res : Result) : State :=
  ({ s with phase := .idle, attempt := 0, consumer := .ready } : State).ret .consumer res

/-! ## Environment primitives -/

/-- A primitive that returns nothing. -/
def State.call (s : State) (c : EnvCall) : State := { s with trace := s.trace ++ [c] }

/-- `LineArmRx()`: the line may deliver one more byte (R107). -/
def State.lineArmRx (s : State) : State := ({ s with rxArmed := true } : State).call .lineArmRx

/-- How `LineTx` of `n` bytes answers; a failure leaves 0 to `n` bytes sent (R107). -/
def lineAnswer (n : Nat) (s : State) : LineAnswer :=
  match s.answers.line with
  | .ok :: _ => .ok
  | .fail left :: _ => .fail (min left n)
  | [] => if Config.freeOk s.freeIdx then .ok else .fail (min (Config.freeLeft s.freeIdx) n)

/-- `LineTx(bytes, flush, T_SERIAL_TX_MS)` (R107). -/
def lineTx (bytes : List Byte) (flush : Bool) (s : State) : LineAnswer × State :=
  (lineAnswer bytes.length s,
    { s with
      answers := { s.answers with line := s.answers.line.tail }
      freeIdx := s.freeIdx + 1
      trace := s.trace ++ [.lineTx bytes flush s.cfg.serialTxMs (lineAnswer bytes.length s)] })

/-- How `BusWrite` answers (R133). -/
def writeAnswer (s : State) : Bool := s.answers.write.headD (Config.freeOk s.freeIdx)

/-- `BusWrite(addr, bytes, T_I2C_WRITE_MS)` (R133). -/
def busWrite (addr : Nat) (bytes : List Byte) (s : State) : Bool × State :=
  (writeAnswer s,
    { s with
      answers := { s.answers with write := s.answers.write.tail }
      freeIdx := s.freeIdx + 1
      trace := s.trace ++ [.busWrite addr bytes s.cfg.i2cWriteMs (writeAnswer s)] })

/-- How `BusRead` of `n` bytes answers: exactly `n` bytes, or it fails (R133). -/
def readAnswer (n : Nat) (s : State) : Option (List Byte) :=
  match s.answers.read with
  | some bytes :: _ => some (takeBytes n s.freeIdx bytes)
  | none :: _ => none
  | [] => if Config.freeOk s.freeIdx then some (takeBytes n s.freeIdx []) else none

/-- `BusRead(addr, n, T_I2C_READ_MS)` (R133). -/
def busRead (addr n : Nat) (s : State) : Option (List Byte) × State :=
  (readAnswer n s,
    { s with
      answers := { s.answers with read := s.answers.read.tail }
      freeIdx := s.freeIdx + 1
      trace := s.trace ++ [.busRead addr n s.cfg.i2cReadMs (readAnswer n s)] })

/-- How `Alloc` answers (R134). -/
def allocAnswer (s : State) : Bool := s.answers.alloc.headD (Config.freeOk s.freeIdx)

/-- `Alloc(n)`: on `ok` a scratch region of `n` cells exists, on `fail` none does (R134). -/
def alloc (n : Nat) (s : State) : Bool × State :=
  (allocAnswer s,
    { s with
      answers := { s.answers with alloc := s.answers.alloc.tail }
      freeIdx := s.freeIdx + 1
      scratch := if allocAnswer s then some { size := n, cells := [] } else none
      trace := s.trace ++ [.alloc n (allocAnswer s)] })

/-- `Free()`: no scratch region exists (R134). -/
def State.freeScratch (s : State) : State := ({ s with scratch := none } : State).call .free

/-! ## The scratch region -/

/-- `scratch[0 .. len(bytes)) <- bytes` (R52). -/
def State.scratchStore (s : State) (bytes : List Byte) : State :=
  { s with scratch := s.scratch.map fun r => { r with cells := Memory.writeBytes r.cells 0 bytes } }

/-- `scratch[0 .. size)` (R52). -/
def Scratch.bytes (r : Scratch) : List Byte := Memory.readBytes r.cells 0 r.size

/-- The bytes of the scratch region; none where it does not exist. -/
def State.scratchBytes (s : State) : List Byte := (s.scratch.map Scratch.bytes).getD []

end Sys2Proof.Machine
end

