-- ==== Sys2Proof/Machine/Serial.lean ====
section
/-! DEFINITION. The serial FIFO block (spec/40_serial_fifo.md R100 to R105): S_RESET, S_PUSH, S_AVAIL,
S_POP, S_TX, S_OVR. -/

namespace Sys2Proof.Machine

/-- S_RESET's pseudocode (R100). -/
def serialReset (s : State) : State :=
  let s1 := (s.call .lineDeinit).call .lineInit
  let s2 := { s1 with fill := 0, drain := 0, overruns := 0 }
  let s3 := s2.lineArmRx
  ({ s3 with sInit := true } : State).ret .consumer { code := .ok }

/-- S_RESET (R100). -/
def execSReset (s : State) : Answer :=
  guarded .serial .consumer false s fun s => .next (serialReset s)

/-- The overrun path of S_PUSH: the oldest retained byte is evicted and one overrun counted (R101). -/
def evictOldest (s : State) : State :=
  { s with drain := idxNext s.cfg s.drain, overruns := satInc s.cfg s.overruns }

/-- S_PUSH's pseudocode (R101): the byte is stored at `fill` on both paths, then `fill` advances, then the
line is armed again. -/
def pushByte (b : Byte) (s : State) : State :=
  let s1 := { s with rxArmed := false }
  let s2 := if full s1 then evictOldest s1 else s1
  let s3 := { s2 with buf := Memory.write s2.buf s2.fill b }
  let s4 := { s3 with fill := idxNext s3.cfg s3.fill }
  s4.lineArmRx.ret .producer { code := .ok }

/-- S_PUSH (R101). A byte that reaches the port while the line is not armed is lost and not counted (R24,
R178). -/
def execSPush (data : Byte) (s : State) : Answer :=
  guarded .serial .producer true s fun s =>
    if s.rxArmed = false then .next s
    else if s.fill < s.cfg.c then .next (pushByte data s)
    else .fault (.bufAddress s.fill)

/-- S_AVAIL (R102). -/
def execSAvail (s : State) : Answer :=
  guarded .serial .consumer true s fun s =>
    .next (s.ret .consumer { code := .ok, rflag := some (avail s) })

/-- The part of S_POP after the hold (R103): the byte is read before `drain` moves (R63). -/
def popByte (s : State) : State :=
  let v := Memory.read s.buf s.drain
  ({ s with drain := idxNext s.cfg s.drain, consumer := .ready } : State).ret .consumer
    { code := .ok, rbyte := some v }

/-- S_POP, first presented or held: it completes when a byte is retained and holds otherwise (R103). -/
def popOrHold (s : State) : Answer :=
  if avail s = false then .next { s with consumer := .heldPop }
  else if s.drain < s.cfg.c then .next (popByte s)
  else .fault (.bufAddress s.drain)

/-- S_POP (R103). -/
def execSPop (s : State) : Answer :=
  guarded .serial .consumer true s fun s => popOrHold s

/-- The code of an operation whose one write was answered (R104, R131). -/
def writeCode (ok : Bool) : Code := if ok then .ok else .errWrite

/-- S_TX's pseudocode (R104). -/
def serialTransmit (flush : Bool) (lenN : Nat) (txbuf : List Byte) (s : State) : State :=
  let tx := lineTx (takeBytes lenN s.freeIdx txbuf) flush s
  tx.2.ret .consumer { code := writeCode (tx.1 == .ok) }

/-- S_TX (R104). -/
def execSTx (flush : Bool) (lenN : Nat) (txbuf : List Byte) (s : State) : Answer :=
  guarded .serial .consumer true s fun s => .next (serialTransmit flush lenN txbuf s)

/-- S_OVR (R105). -/
def execSOvr (s : State) : Answer :=
  guarded .serial .consumer true s fun s =>
    .next (s.ret .consumer { code := .ok, rcount := some s.overruns })

end Sys2Proof.Machine
end

