-- ==== Sys2Proof/Machine/I2c.lean ====
section
/-! DEFINITION. The I2C framing engine (spec/41_i2c_framing.md R130 to R140): I_RESET, I_TX and I_RX as
single atomic transitions (the pseudocode of R130 to R132), the arrows of R135 for the multi-step
reading, and the frames of R80 to R82 as the bus transactions of that reading. -/

namespace Sys2Proof.Machine

/-! ## I_RESET -/

/-- I_RESET's pseudocode (R130). -/
def i2cReset (s : State) : State :=
  let s1 := (s.call .busDeinit).call .busInit
  ({ s1 with phase := .idle, attempt := 0, iInit := true } : State).ret .consumer { code := .ok }

/-- I_RESET (R130). -/
def execIReset (s : State) : Answer :=
  guarded .i2c .consumer false s fun s => .next (i2cReset s)

/-! ## The parts of I_TX, in the order of R131 -/

/-- The consumer is inside I_TX: `phase <- TX_ALLOC`. -/
def txBegin (flush : Bool) (addr : Nat) (len8 : Byte) (txbuf : List Byte) (s : State) : State :=
  { s with consumer := .inI2c (.tx flush addr len8 txbuf), phase := .txAlloc }

/-- `scratch[0] <- len8`, the payload after it, `phase <- TX_WRITE`. -/
def txBuild (len8 : Byte) (txbuf : List Byte) (s : State) : State :=
  { s.scratchStore (writeFrame len8 (takeBytes len8.toNat s.freeIdx txbuf)) with phase := .txWrite }

/-- The one `BusWrite` of the scratch region, `Free()`, and the result. -/
def txWrite (addr : Nat) (s : State) : State :=
  let w := busWrite addr s.scratchBytes s
  w.2.freeScratch.endTx { code := writeCode w.1 }

/-- I_TX's pseudocode (R131). -/
def i2cTransmit (flush : Bool) (addr : Nat) (len8 : Byte) (txbuf : List Byte) (s : State) : State :=
  let a := alloc (writeFrameSize len8) (txBegin flush addr len8 txbuf s)
  if a.1 then txWrite addr (txBuild len8 txbuf a.2)
  else a.2.endTx { code := .errAlloc }

/-- I_TX (R131). -/
def execITx (flush : Bool) (addr : Nat) (len8 : Byte) (txbuf : List Byte) (s : State) : Answer :=
  guarded .i2c .consumer true s fun s => .next (i2cTransmit flush addr len8 txbuf s)

/-! ## The parts of I_RX, in the order of R132 -/

/-- The consumer is inside I_RX: `phase <- RX_REQUEST`, `attempt <- 0`. -/
def rxBegin (addr : Nat) (len8 : Byte) (s : State) : State :=
  { s with consumer := .inI2c (.rx addr len8), phase := .rxRequest, attempt := 0 }

/-- One request write: `attempt <- attempt + 1` and `BusWrite` of the read-request frame. -/
def requestWrite (addr : Nat) (len8 : Byte) (s : State) : Bool × State :=
  busWrite addr (requestFrame len8) { s with attempt := s.attempt + 1 }

/-- Step 1 of R132: at most `n` more request writes, up to the first that is answered ok. -/
def requestPhase (addr : Nat) (len8 : Byte) : Nat → State → Bool × State
  | 0, s => (false, s)
  | n + 1, s =>
    let w := requestWrite addr len8 s
    if w.1 then w else requestPhase addr len8 n w.2

/-- The response's bytes into the scratch region, `phase <- RX_VALIDATE`. -/
def rxStore (bytes : List Byte) (s : State) : State :=
  { s.scratchStore bytes with phase := .rxValidate }

/-- Step 4 of R132, R136: on a match the payload is copied to `RXBUF` and the backlog returned, on a
mismatch `RXBUF` is untouched and no backlog is returned; `Free()` on both. -/
def rxValidate (len8 : Byte) (s : State) : State :=
  let response := s.scratchBytes
  let payload := (response.drop 2).take len8.toNat
  if response[1]? = some len8 then
    ({ s with rxbuf := Memory.writeBytes s.rxbuf 0 payload } : State).freeScratch.endRx
      { code := .ok, ravail := response[0]?, rxbuf := some payload }
  else s.freeScratch.endRx { code := .errLenMismatch }

/-- Steps 3 to 5 of R132 from the answer of the `BusRead` on. -/
def rxAnswer (len8 : Byte) (answer : Option (List Byte)) (s : State) : State :=
  match answer with
  | none => s.freeScratch.endRx { code := .errRead }
  | some bytes => rxValidate len8 (rxStore bytes s)

/-- Step 3 of R132: the allocation and the one read, and what follows it. -/
def rxReadPhase (addr : Nat) (len8 : Byte) (s : State) : State :=
  let a := alloc (responseSize len8) { s with phase := .rxAlloc }
  if a.1 then
    let r := busRead addr (responseSize len8) { a.2 with phase := .rxRead }
    rxAnswer len8 r.1 r.2
  else a.2.endRx { code := .errAlloc }

/-- I_RX's pseudocode (R132). -/
def i2cReceive (addr : Nat) (len8 : Byte) (s : State) : State :=
  let q := requestPhase addr len8 s.cfg.i2cReqAttempts (rxBegin addr len8 s)
  if q.1 then rxReadPhase addr len8 q.2
  else q.2.endRx { code := .errWrite }

/-- I_RX (R132). -/
def execIRx (addr : Nat) (len8 : Byte) (s : State) : Answer :=
  guarded .i2c .consumer true s fun s => .next (i2cReceive addr len8 s)

/-! ## The arrows of R135 -/

/-- `TX_ALLOC`: `Alloc` ok builds the frame, `Alloc` fail returns `ERR_ALLOC`. -/
def txAllocArrow (len8 : Byte) (txbuf : List Byte) (s : State) : State :=
  let a := alloc (writeFrameSize len8) s
  if a.1 then txBuild len8 txbuf a.2 else a.2.endTx { code := .errAlloc }

/-- `RX_REQUEST`: one request write; ok goes on, a failure stays until the attempts are used up. -/
def rxRequestArrow (addr : Nat) (len8 : Byte) (s : State) : State :=
  let w := requestWrite addr len8 s
  if w.1 then { w.2 with phase := .rxAlloc }
  else if w.2.attempt < w.2.cfg.i2cReqAttempts then w.2
  else w.2.endRx { code := .errWrite }

/-- `RX_ALLOC`. -/
def rxAllocArrow (len8 : Byte) (s : State) : State :=
  let a := alloc (responseSize len8) s
  if a.1 then { a.2 with phase := .rxRead } else a.2.endRx { code := .errAlloc }

/-- `RX_READ`: ok stores the response, fail returns `ERR_READ`. -/
def rxReadArrow (addr : Nat) (len8 : Byte) (s : State) : State :=
  let r := busRead addr (responseSize len8) s
  match r.1 with
  | none => r.2.freeScratch.endRx { code := .errRead }
  | some bytes => rxStore bytes r.2

/-! ## The wire frames -/

/-- FRAME_WRITE (R80): in phase `TX_WRITE` the frame in the scratch region is sent as one master write
(the two arrows of R135 out of `TX_WRITE`). The bus carries this frame at no other moment. -/
def execFrameWrite (length : Byte) (payload : List Byte) (s : State) : Answer :=
  match s.consumer with
  | .inI2c (.tx _ addr _ _) =>
    if s.phase = .txWrite ∧ s.scratchBytes = writeFrame length payload then .next (txWrite addr s)
    else .refused .noI2cInProgress
  | _ => .refused .noI2cInProgress

/-- FRAME_READ_REQUEST (R81): in phase `RX_REQUEST` the request for `length` bytes is sent as one master
write (the three arrows of R135 out of `RX_REQUEST`). -/
def execFrameReadRequest (length : Byte) (s : State) : Answer :=
  match s.consumer with
  | .inI2c (.rx addr len8) =>
    if s.phase = .rxRequest ∧ length = len8 then .next (rxRequestArrow addr len8 s)
    else .refused .noI2cInProgress
  | _ => .refused .noI2cInProgress

/-- FRAME_READ_RESPONSE (R82): in phase `RX_READ` the master read is answered ok with this frame, which
has the size asked for (R133); it is stored, validated, and accepted exactly when its echoed length is
the requested one (R136). -/
def execFrameReadResponse (available echoed : Byte) (payload : List Byte) (s : State) : Answer :=
  match s.consumer with
  | .inI2c (.rx addr len8) =>
    if s.phase = .rxRead ∧ payload.length = len8.toNat ∧ s.scratch.isSome then
      let bytes := available :: echoed :: payload
      .next (rxValidate len8 (rxStore bytes
        (s.call (.busRead addr (responseSize len8) s.cfg.i2cReadMs (some bytes)))))
    else .refused .noI2cInProgress
  | _ => .refused .noI2cInProgress

end Sys2Proof.Machine
end

