-- ==== Sys2Proof/Machine/Reserved.lean ====
section
/-! DEFINITION. The five reserved op codes (spec/30_encoding.md R79): presenting one is refused, changes no
state and returns nothing. -/

namespace Sys2Proof.Machine

/-- Presenting a reserved op code (R79, R10 item 2). -/
def refuseReserved (op : Nat) (_ : State) : Answer := .refused (.reservedOp op)

/-- Op code 0x6 (R79). -/
def execReserved6 (s : State) : Answer := refuseReserved 0x6 s

/-- Op code 0x7 (R79). -/
def execReserved7 (s : State) : Answer := refuseReserved 0x7 s

/-- Op code 0xB (R79). -/
def execReservedB (s : State) : Answer := refuseReserved 0xB s

/-- Op code 0xE (R79). -/
def execReservedE (s : State) : Answer := refuseReserved 0xE s

/-- Op code 0xF (R79). -/
def execReservedF (s : State) : Answer := refuseReserved 0xF s

end Sys2Proof.Machine
end

