-- ==== Sys2Proof/Machine/Timing.lean ====
section
/-! DEFINITION. The timing source (spec/42_timing_source.md R160 to R163): T_NOW, T_SLEEP, the TICK step,
and the completion of a held consumer operation. -/

namespace Sys2Proof.Machine

/-- T_NOW (R160). -/
def execTNow (s : State) : Answer :=
  guarded .timing .consumer false s fun s =>
    .next (s.ret .consumer { code := .ok, rtick := some s.tick })

/-- T_SLEEP (R161): presenting it samples `t0`; it completes in a later step (`sleepOrHold`). -/
def execTSleep (dur : Nat) (s : State) : Answer :=
  guarded .timing .consumer false s fun s => .next { s with consumer := .sleeping s.tick dur }

/-- The completion of T_SLEEP: `hold until ((tick - t0) mod 2^TICK_W) >= d`, then `return (OK)` (R161). -/
def sleepOrHold (t0 dur : Nat) (s : State) : State :=
  if dur ≤ elapsed s.cfg t0 s.tick then
    ({ s with consumer := .ready } : State).ret .consumer { code := .ok }
  else s

/-- The consumer looks whether its held operation may complete (R10 item 3). A hold that is not lifted
changes nothing; a consumer that is not held has nothing to complete. -/
def resumeConsumer (s : State) : Answer :=
  match s.consumer with
  | .ready => .next s
  | .heldPop => popOrHold s
  | .sleeping t0 dur => .next (sleepOrHold t0 dur s)
  | .inI2c _ => .next s

/-- TICK (R162). -/
def tickStep (s : State) : State := { s with tick := tickNext s.cfg s.tick }

end Sys2Proof.Machine
end

