-- ==== Sys2Proof/Machine/Dispatch.lean ====
section
/-! DEFINITION. The one match from an instruction to its meaning. -/

namespace Sys2Proof.Machine

def exec (i : Instr) (s : State) : Host.Outcome State Fault Refusal :=
  match i with
  | .sReset => Sys2Proof.Machine.execSReset s
  | .sPush data => Sys2Proof.Machine.execSPush data s
  | .sAvail => Sys2Proof.Machine.execSAvail s
  | .sPop => Sys2Proof.Machine.execSPop s
  | .sTx flush lenN txbuf => Sys2Proof.Machine.execSTx flush lenN txbuf s
  | .sOvr => Sys2Proof.Machine.execSOvr s
  | .iReset => Sys2Proof.Machine.execIReset s
  | .iTx flush addr len8 txbuf => Sys2Proof.Machine.execITx flush addr len8 txbuf s
  | .iRx addr len8 => Sys2Proof.Machine.execIRx addr len8 s
  | .tNow => Sys2Proof.Machine.execTNow s
  | .tSleep dur => Sys2Proof.Machine.execTSleep dur s
  | .reserved6 => Sys2Proof.Machine.execReserved6 s
  | .reserved7 => Sys2Proof.Machine.execReserved7 s
  | .reservedB => Sys2Proof.Machine.execReservedB s
  | .reservedE => Sys2Proof.Machine.execReservedE s
  | .reservedF => Sys2Proof.Machine.execReservedF s
  | .frameWrite length payload => Sys2Proof.Machine.execFrameWrite length payload s
  | .frameReadRequest length => Sys2Proof.Machine.execFrameReadRequest length s
  | .frameReadResponse available echoed payload => Sys2Proof.Machine.execFrameReadResponse available echoed payload s

end Sys2Proof.Machine
end

