-- ==== Sys2Proof/Machine/Agents.lean ====
section
/-! DEFINITION. What each agent's step does (spec/00_scope.md R8, R11): the events of `State.inputs`, each
run at the state from which the event has been taken. -/

namespace Sys2Proof.Machine

/-- The agent whose step an event is (R8). The answers of LINE, BUS and ALLOC inside an operation are
drawn by the primitives. -/
def Event.agent : Event → Agent
  | .command who _ => match who.role with | .producer => .producer | .consumer => .consumer
  | .commandStepwise who _ => match who.role with | .producer => .producer | .consumer => .consumer
  | .arrow => .consumer
  | .busResponse _ => .bus
  | .byteArrived _ => .line
  | .resume => .consumer
  | .tick => .ticker

/-- A presentation is decoded and run; bytes that are no frame are refused. -/
def runDecoded (p : Presentation) (s : State) : Answer :=
  match decode s.cfg p with
  | .ok i => exec i s
  | .error _ => .refused .badFrame

/-- An operation presented for the multi-step reading (R135): I_TX and I_RX take their arrow out of `IDLE`
(and are refused exactly when the atomic operation is); every other operation runs as it always does. -/
def beginStepwise (i : Instr) (s : State) : Answer :=
  match i with
  | .iTx flush addr len8 txbuf =>
    guarded .i2c .consumer true s fun s => .next (txBegin flush addr len8 txbuf s)
  | .iRx addr len8 => guarded .i2c .consumer true s fun s => .next (rxBegin addr len8 s)
  | i => exec i s

/-- One arrow of R135 out of the present phase. The arrows that put a frame on the bus run that frame. In
`IDLE` there is no arrow to take and nothing changes. -/
def takeArrow (s : State) : Answer :=
  match s.phase, s.consumer, s.scratch with
  | .idle, _, _ => .next s
  | .txAlloc, .inI2c (.tx _ _ len8 txbuf), _ => .next (txAllocArrow len8 txbuf s)
  | .txWrite, .inI2c (.tx _ _ _ _), some r => runDecoded (.busWriteData r.bytes) s
  | .rxRequest, .inI2c (.rx _ len8), _ => runDecoded (.busWriteData (requestFrame len8)) s
  | .rxAlloc, .inI2c (.rx _ len8), _ => .next (rxAllocArrow len8 s)
  | .rxRead, .inI2c (.rx addr len8), some _ => .next (rxReadArrow addr len8 s)
  | .rxValidate, .inI2c (.rx _ len8), some _ => .next (rxValidate len8 s)
  | _, _, _ => .refused .noI2cInProgress

/-- LINE has received a byte (R107, R177, R178): armed, the PRODUCER performs S_PUSH; not armed, the byte
is lost and not counted. -/
def lineDelivers (b : Byte) (s : State) : Answer :=
  if s.rxArmed then exec (.sPush b) { s with presenter := .producer } else .next s

/-- One event. -/
def handle (e : Event) (s : State) : Answer :=
  match e with
  | .command who p => runDecoded (.command p) { s with presenter := who }
  | .commandStepwise who p => beginStepwise (decodeCommand s.cfg p) { s with presenter := who }
  | .arrow => takeArrow s
  | .busResponse bytes => runDecoded (.busReadData bytes) s
  | .byteArrived b => lineDelivers b s
  | .resume => resumeConsumer s
  | .tick => .next (tickStep s)

/-- The role that may present an op code, from R78's column: the PRODUCER presents 0x1 and nothing else. -/
def tablePresenter (op : BitVec 4) : Presenter := if op = 0x1 then .producer else .consumer

/-- Places a presentation where `step` takes its next event (log entry 11). An operation is presented by
the role the table gives it. A frame is no operation of the command port: it is selected by the phase of
the I2C engine, which is therefore set to the point at which the engine sends it. -/
def place (s : State) (p : Presentation) : State :=
  match p with
  | .command ports => { s with inputs := .command (tablePresenter ports.op) ports :: s.inputs }
  | .busWriteData bytes =>
    match decodeWriteData bytes with
    | .ok (.frameReadRequest len8) =>
      { s with
        inputs := .arrow :: s.inputs
        phase := .rxRequest
        attempt := 0
        consumer := .inI2c (.rx 0 len8) }
    | .ok (.frameWrite len8 payload) =>
      { s with
        inputs := .arrow :: s.inputs
        phase := .txWrite
        consumer := .inI2c (.tx false 0 len8 payload)
        scratch := some { size := bytes.length, cells := Memory.writeBytes [] 0 bytes } }
    | _ => { s with inputs := .busResponse [] :: s.inputs }
  | .busReadData bytes => { s with inputs := .busResponse bytes :: s.inputs }

end Sys2Proof.Machine
end

