-- ==== Sys2Proof/Machine/Step.lean ====
section
/-! DEFINITION. One step of the machine: the next agent's step, taken from `State.inputs` (spec/00_scope.md
R8, R11; log entry 5). -/

namespace Sys2Proof.Machine

/-- One step. Where no agent has a step to take, nothing changes (R11: the block serves operations for as
long as agents present them). -/
def step (s : State) : Host.Outcome State Fault Refusal :=
  match s.inputs with
  | [] => .next s
  | e :: rest => handle e { s with inputs := rest }

/-- `s` with the instruction of a word of spec/opcode_table.json placed where `step` takes its next event. -/
def State.withFetchWord (s : State) (nbits w : Nat) : State := place s (presentationOfTableWord nbits w)

end Sys2Proof.Machine
end

