-- ==== Sys2Proof/Safety.lean ====
section
/-! DEFINITION. What counts as a safe state, and the terms the statements use: the invariants of
spec/10_state.md R27 with the register widths, the abstract view of R28, the power-on states of
spec/70_reset_and_hazards.md R200, and what a run shows (spec/00_scope.md R11). -/

namespace Sys2Proof.Machine

/-! ## What a run shows -/

/-- The results returned to the CONSUMER (R11 (a)); S_PUSH's goes to nobody (R101). -/
def consumerResults (s : State) : List Result :=
  (s.results.filter fun r => r.role == .consumer).map (·.result)

/-- The bytes S_POP has returned, in order. -/
def poppedBytes (s : State) : List Byte := s.results.filterMap (·.result.rbyte)

/-- Whether a call is a `BusWrite` or a `BusRead`: a transaction record of R85. -/
def EnvCall.isTransaction : EnvCall → Bool
  | .busWrite _ _ _ _ => true
  | .busRead _ _ _ _ => true
  | .lineDeinit => false
  | .lineInit => false
  | .lineArmRx => false
  | .lineTx _ _ _ _ => false
  | .busDeinit => false
  | .busInit => false
  | .alloc _ _ => false
  | .free => false

/-- Whether a call is a `BusWrite`. -/
def EnvCall.isBusWrite : EnvCall → Bool
  | .busWrite _ _ _ _ => true
  | _ => false

/-- Whether a call is a `BusRead`. -/
def EnvCall.isBusRead : EnvCall → Bool
  | .busRead _ _ _ _ => true
  | _ => false

/-- The transaction records `W` and `R` of R85, in order (R11 (c)). -/
def transactions (s : State) : List EnvCall := s.trace.filter EnvCall.isTransaction

/-- A record is as the contracts R107, R133 and R134 have it: a read answered ok delivers exactly the `n`
bytes asked for, a failed `LineTx` left at most all its bytes sent, and a scratch region has 1 to 257
bytes. -/
def EnvCall.Ok : EnvCall → Prop
  | .busRead _ n _ (some bytes) => bytes.length = n
  | .lineTx bytes _ _ (.fail left) => left ≤ bytes.length
  | .alloc n _ => 1 ≤ n ∧ n ≤ 257
  | _ => True

/-! ## The abstract view of the buffer -/

/-- R28: the retained bytes, oldest first. -/
def queue (s : State) : List Byte :=
  (List.range (occ s)).map fun i => Memory.read s.buf ((s.drain + i) % s.cfg.c)

/-- The cell index `a` is live: one of `drain, ..., fill-1` mod C (R12). -/
def Live (s : State) (a : Nat) : Prop := ∃ i, i < occ s ∧ a = (s.drain + i) % s.cfg.c

/-! ## Invariants -/

/-- The serial FIFO block after its first reset: R27 items 1 and 5. -/
structure SerialReady (s : State) : Prop where
  twoCells : 2 ≤ s.cfg.c
  built : s.cfg.has .serial = true
  initialised : s.sInit = true
  armed : s.rxArmed = true
  fillRange : s.fill < s.cfg.c
  drainRange : s.drain < s.cfg.c

/-- The I2C engine at rest: R32 ("Between operations `phase = IDLE` and `attempt = 0`") and R31. -/
structure EngineIdle (s : State) : Prop where
  phase : s.phase = .idle
  attempt : s.attempt = 0
  scratch : s.scratch = none

/-- The scratch region exists, is canonical, and has `n` cells. -/
def ScratchOf (s : State) (n : Nat) : Prop :=
  ∃ r, s.scratch = some r ∧ r.size = n ∧ Memory.wf r.cells

/-- The sequencer inside an I2C operation (R135): which phase goes with which `attempt` and scratch
region. -/
def SequencerOk (s : State) : I2cOp → Prop
  | .tx _ _ len8 _ =>
    s.attempt = 0 ∧
      (s.phase = .txAlloc ∧ s.scratch = none ∨
        s.phase = .txWrite ∧ ScratchOf s (writeFrameSize len8) ∧
          ∃ payload, payload.length = len8.toNat ∧ s.scratchBytes = writeFrame len8 payload)
  | .rx _ len8 =>
    s.phase = .rxRequest ∧ s.attempt < s.cfg.i2cReqAttempts ∧ s.scratch = none ∨
      1 ≤ s.attempt ∧ s.attempt ≤ s.cfg.i2cReqAttempts ∧
        (s.phase = .rxAlloc ∧ s.scratch = none ∨
          (s.phase = .rxRead ∨ s.phase = .rxValidate) ∧ ScratchOf s (responseSize len8))

/-- The consumer's context and the sequencer agree. -/
def ConsumerOk (s : State) : Prop :=
  match s.consumer with
  | .ready => EngineIdle s
  | .heldPop => EngineIdle s ∧ s.sInit = true
  | .sleeping t0 _ => EngineIdle s ∧ t0 < 2 ^ s.cfg.tickW
  | .inI2c op => s.iInit = true ∧ SequencerOk s op

/-- The invariant of the machine. -/
structure MachineInv (s : State) : Prop where
  cfgOk : s.cfg.Ok
  fillWidth : s.fill < 2 ^ s.cfg.idxW
  drainWidth : s.drain < 2 ^ s.cfg.idxW
  overrunsWidth : s.overruns < 2 ^ s.cfg.ovrW
  tickWidth : s.tick < 2 ^ s.cfg.tickW
  fillRange : s.sInit = true → s.fill < s.cfg.c
  drainRange : s.sInit = true → s.drain < s.cfg.c
  armed : s.rxArmed = s.sInit
  serialBuilt : s.sInit = true → s.cfg.has .serial = true
  i2cBuilt : s.iInit = true → s.cfg.has .i2c = true
  bufWf : Memory.wf s.buf
  bufRange : ∀ c ∈ s.buf, c.1 < s.cfg.c
  rxbufWf : Memory.wf s.rxbuf
  consumerOk : ConsumerOk s
  traceOk : ∀ c ∈ s.trace, c.Ok

/-- A power-on state (R200, R36): every register the spec leaves unspecified there has any value its width
holds. -/
structure PowerOn (s : State) : Prop where
  sInit : s.sInit = false
  iInit : s.iInit = false
  rxArmed : s.rxArmed = false
  idle : EngineIdle s
  consumer : s.consumer = .ready
  fillWidth : s.fill < 2 ^ s.cfg.idxW
  drainWidth : s.drain < 2 ^ s.cfg.idxW
  overrunsWidth : s.overruns < 2 ^ s.cfg.ovrW
  tickWidth : s.tick < 2 ^ s.cfg.tickW
  bufWf : Memory.wf s.buf
  bufRange : ∀ c ∈ s.buf, c.1 < s.cfg.c
  rxbufWf : Memory.wf s.rxbuf
  results : s.results = []
  trace : s.trace = []

/-- The CONSUMER may present an operation of block `b` and the one consumer is free (R10, R184). -/
structure ConsumerMay (b : Block) (s : State) : Prop where
  built : s.cfg.has b = true
  presenter : s.presenter = .consumer
  ready : s.consumer = .ready

/-- A safe step: it does not fault. -/
def StepSafe (s : State) : Prop := ∀ f, step s ≠ .fault f

/-! ## Runs -/

/-- `n` steps, stopping at the first fault or refusal. -/
def steps : Nat → State → Answer
  | 0, s => .next s
  | n + 1, s =>
    match step s with
    | .next t => steps n t
    | .fault f => .fault f
    | .refused r => .refused r

/-- Whether an event presents S_RESET (R78). -/
def Event.presentsReset : Event → Bool
  | .command _ p => p.op == 0x0
  | .commandStepwise _ p => p.op == 0x0
  | _ => false

/-- The byte an event brings to S_PUSH (R78, R107). -/
def Event.pushedByte : Event → Option Byte
  | .command _ p => if p.op = 0x1 then some p.data else none
  | .commandStepwise _ p => if p.op = 0x1 then some p.data else none
  | .byteArrived b => some b
  | _ => none

/-- The bytes pushed by a list of events, in order. -/
def pushedBytes (events : List Event) : List Byte := events.filterMap Event.pushedByte

/-- An event of an agent other than the CONSUMER that may fall between two consumer operations: a byte
arrives, or the tick advances (R62, R181). -/
def Event.isEnvironmentStep (e : Event) : Prop := (∃ b, e = .byteArrived b) ∨ e = .tick

/-! ## The columns of the op code map -/

/-- R78's column "Role allowed". The reserved codes and the frames are no operations of a role. -/
def roleAllowed : Instr → Option Role
  | .sPush _ => some .producer
  | .sReset => some .consumer
  | .sAvail => some .consumer
  | .sPop => some .consumer
  | .sTx _ _ _ => some .consumer
  | .sOvr => some .consumer
  | .iReset => some .consumer
  | .iTx _ _ _ _ => some .consumer
  | .iRx _ _ => some .consumer
  | .tNow => some .consumer
  | .tSleep _ => some .consumer
  | .reserved6 => none
  | .reserved7 => none
  | .reservedB => none
  | .reservedE => none
  | .reservedF => none
  | .frameWrite _ _ => none
  | .frameReadRequest _ => none
  | .frameReadResponse _ _ _ => none

/-- The block an operation belongs to (R78: the two high bits of `op` name the block). -/
def blockOf : Instr → Option Block
  | .sReset => some .serial
  | .sPush _ => some .serial
  | .sAvail => some .serial
  | .sPop => some .serial
  | .sTx _ _ _ => some .serial
  | .sOvr => some .serial
  | .iReset => some .i2c
  | .iTx _ _ _ _ => some .i2c
  | .iRx _ _ => some .i2c
  | .tNow => some .timing
  | .tSleep _ => some .timing
  | .reserved6 => none
  | .reserved7 => none
  | .reservedB => none
  | .reservedE => none
  | .reservedF => none
  | .frameWrite _ _ => some .i2c
  | .frameReadRequest _ => some .i2c
  | .frameReadResponse _ _ _ => some .i2c

/-- An operand byte sequence `bytes` of `n` bytes is what the caller's buffer `txbuf` holds there. A
buffer shorter than the length it states leaves the bytes beyond its end free (log entry 8). -/
def Carries (txbuf : List Byte) (n : Nat) (bytes : List Byte) : Prop :=
  bytes.length = n ∧ ∀ i, i < n → i < txbuf.length → bytes[i]? = txbuf[i]?

end Sys2Proof.Machine
end

