-- ==== Sys2Proof/Certificates/Slice0/Obligations.lean ====
section
/-! DEFINITION. The statements for the provers, each formalising or derived from numbered rules of spec/;
OBLIGATIONS.json lists them. -/

open Sys2Proof Sys2Proof.Machine

/-! ## Power-on, reset, the invariant -/

/-- R200: the state after power-on. The value 0 that log entry 1 gives the unspecified registers is not
stated here: `PowerOn` admits every value their widths hold. -/
def Obligations.ResetIsAPowerOnState : Prop := PowerOn State.reset

/-- R200 ("A claim about the hardware quantifies over every value of the unspecified registers"): the
invariant holds in every power-on state of a legal configuration. -/
def Obligations.EveryPowerOnStateMeetsTheInvariant : Prop :=
  ∀ (s : State), s.cfg.Ok → PowerOn s → MachineInv s

/-- The invariant holds at the model's reset state. -/
def Obligations.InvariantHoldsAtReset : Prop := MachineInv State.reset

/-- R21, R22, R24, R27, R30 to R33, R50, R85, R135: whatever agent steps, the registers stay in their
ranges, the spaces canonical, the sequencer coherent and the transaction records well formed. -/
def Obligations.EveryStepKeepsTheInvariant : Prop :=
  ∀ (s t : State), MachineInv s → step s = .next t → MachineInv t

/-- R51: no access to `BUF` can be out of range, so no step from a state of the invariant faults. -/
def Obligations.NoStepFaultsUnderTheInvariant : Prop := ∀ (s : State), MachineInv s → StepSafe s

/-! ## A step runs the decoded instruction -/

/-- What `step` adds around `exec`: the event is taken from `inputs`, and the presenter of a command is
latched. -/
def Obligations.StepRunsTheDecodedInstruction : Prop :=
  (∀ (s : State) (who : Presenter) (p : Ports) (rest : List Event) (i : Instr),
    s.inputs = .command who p :: rest → decode s.cfg (.command p) = .ok i →
    step s = exec i { s with inputs := rest, presenter := who }) ∧
  ∀ (s : State) (bytes : List Byte) (rest : List Event) (i : Instr),
    s.inputs = .busResponse bytes :: rest →
    decode s.cfg (.busReadData bytes) = .ok i → step s = exec i { s with inputs := rest }

/-- The arrows of R135 that put a frame on the bus run that frame. -/
def Obligations.ArrowsRunTheFramesTheySend : Prop :=
  (∀ (s : State) (rest : List Event) (addr : Nat) (len8 : Byte), s.inputs = .arrow :: rest →
    s.phase = .rxRequest →
    s.consumer = .inI2c (.rx addr len8) →
    step s = exec (.frameReadRequest len8) { s with inputs := rest }) ∧
  ∀ (s : State) (rest : List Event) (flush : Bool) (addr : Nat) (len8 : Byte) (txbuf : List Byte)
      (r : Scratch) (i : Instr),
    s.inputs = .arrow :: rest → s.phase = .txWrite →
    s.consumer = .inI2c (.tx flush addr len8 txbuf) → s.scratch = some r →
    decode s.cfg (.busWriteData r.bytes) = .ok i → step s = exec i { s with inputs := rest }

/-! ## Encoding -/

/-- R75 to R82: decoding an encoded well-formed instruction gives it back, every constructor, every
operand value the encoding admits. -/
def Obligations.DecodeOfEncodeIsTheInstruction : Prop :=
  ∀ (k : Config) (i : Instr), WellFormed k i = true → decode k (encode i) = .ok i

/-- R80, R81, R82: bytes on the bus have at most one meaning, it is well formed, and encoding it gives the
bytes back. -/
def Obligations.AcceptedFramesAreTheirOwnEncoding : Prop :=
  (∀ (k : Config) (bytes : List Byte) (i : Instr), decode k (.busWriteData bytes) = .ok i →
    WellFormed k i = true ∧ encode i = .busWriteData bytes) ∧
  ∀ (k : Config) (bytes : List Byte) (i : Instr), decode k (.busReadData bytes) = .ok i →
    WellFormed k i = true ∧ encode i = .busReadData bytes

/-- R75, R78, R79: the op code alone selects the operation, whatever the operand ports carry (the first
clause: the constructor that each of the 16 op codes decodes to), and ports it does not use are ignored
(the second). -/
def Obligations.OnlyTheUsedPortsAreDecoded : Prop :=
  (∀ (k : Config) (p : Ports),
    (p.op = 0x0 → decodeCommand k p = .sReset) ∧
    (p.op = 0x1 → ∃ data, decodeCommand k p = .sPush data) ∧
    (p.op = 0x2 → decodeCommand k p = .sAvail) ∧
    (p.op = 0x3 → decodeCommand k p = .sPop) ∧
    (p.op = 0x4 → ∃ flush lenN txbuf, decodeCommand k p = .sTx flush lenN txbuf) ∧
    (p.op = 0x5 → decodeCommand k p = .sOvr) ∧
    (p.op = 0x6 → decodeCommand k p = .reserved6) ∧
    (p.op = 0x7 → decodeCommand k p = .reserved7) ∧
    (p.op = 0x8 → decodeCommand k p = .iReset) ∧
    (p.op = 0x9 → ∃ flush addr len8 txbuf, decodeCommand k p = .iTx flush addr len8 txbuf) ∧
    (p.op = 0xA → ∃ addr len8, decodeCommand k p = .iRx addr len8) ∧
    (p.op = 0xB → decodeCommand k p = .reservedB) ∧
    (p.op = 0xC → decodeCommand k p = .tNow) ∧
    (p.op = 0xD → ∃ dur, decodeCommand k p = .tSleep dur) ∧
    (p.op = 0xE → decodeCommand k p = .reservedE) ∧
    (p.op = 0xF → decodeCommand k p = .reservedF)) ∧
  ∀ (k : Config) (p q : Ports), p.op = q.op →
    (p.op ∈ [0x0#4, 0x2, 0x3, 0x5, 0x6, 0x7, 0x8, 0xB, 0xC, 0xE, 0xF] →
      decodeCommand k p = decodeCommand k q) ∧
    (p.op = 0x1 → p.data = q.data → decodeCommand k p = decodeCommand k q) ∧
    (p.op = 0x4 → p.flush = q.flush → p.lenN = q.lenN → p.txbuf = q.txbuf →
      decodeCommand k p = decodeCommand k q) ∧
    (p.op = 0x9 → p.flush = q.flush → p.addr = q.addr → p.len8 = q.len8 → p.txbuf = q.txbuf →
      decodeCommand k p = decodeCommand k q) ∧
    (p.op = 0xA → p.addr = q.addr → p.len8 = q.len8 → decodeCommand k p = decodeCommand k q) ∧
    (p.op = 0xD → p.dur = q.dur → decodeCommand k p = decodeCommand k q)

/-- R78, R79, R81: words of the opcode table written out bit by bit. How a number names a row is the
model's reading, log entry 10: the op code stands in bits 3:0 and the operand ports carry zeros; of the
16-bit row, bits 15:8 are byte 0 of the frame, the first on the bus. -/
def Obligations.TableWordsDecodeToTheirRows : Prop :=
  decodeTableWord 8 0b0000 = some .sReset ∧ decodeTableWord 8 0b0011 = some .sPop ∧
  decodeTableWord 8 0b1000 = some .iReset ∧ decodeTableWord 8 0b1100 = some .tNow ∧
  decodeTableWord 8 0b1011 = some .reservedB ∧
  decodeTableWord 16 0b0000000000000011 = some (.frameReadRequest 3)

/-! ## Refusals -/

/-- R79: a reserved op code is refused in every state, and so is an operation of the absent transport. -/
def Obligations.ReservedAndAbsentOperationsAreRefused : Prop :=
  (∀ (s : State) (i : Instr), i = .reserved6 ∨ i = .reserved7 ∨ i = .reservedB ∨ i = .reservedE ∨
      i = .reservedF → ∃ why, exec i s = .refused why) ∧
  ∀ (s : State) (i : Instr) (b : Block), blockOf i = some b → s.cfg.has b = false →
    (roleAllowed i).isSome = true → ∃ why, exec i s = .refused why

/-- Which ground a refusal names for a reserved op code and for an operation of the absent transport: the
order of the grounds where several hold is the model's choice, log entry 16. -/
def Obligations.ReservedAndAbsentAreTheGroundsNamedFirst : Prop :=
  (∀ (s : State), exec .reserved6 s = .refused (.reservedOp 0x6) ∧
    exec .reserved7 s = .refused (.reservedOp 0x7) ∧
    exec .reservedB s = .refused (.reservedOp 0xB) ∧
    exec .reservedE s = .refused (.reservedOp 0xE) ∧
    exec .reservedF s = .refused (.reservedOp 0xF)) ∧
  ∀ (s : State) (i : Instr) (b : Block) (r : Role), roleAllowed i = some r → blockOf i = some b →
    s.cfg.has b = false →
    exec i s = .refused .absentTransport

/-- R184: an operation presented by the wrong role, by a second producer or by a second consumer is
refused. -/
def Obligations.WrongRoleAndSecondAgentAreRefused : Prop :=
  ∀ (s : State) (i : Instr) (r : Role), roleAllowed i = some r →
    (s.presenter.role ≠ r ∨ s.presenter.isSecond = true) →
    ∃ why, exec i s = .refused why

/-- R201: which operations are refused before their block's first reset, and which never on this ground. -/
def Obligations.OperationsBeforeTheFirstResetAreRefused : Prop :=
  (∀ (s : State) (data : Byte), s.sInit = false → ∃ why, exec (.sPush data) s = .refused why) ∧
  (∀ (s : State) (i : Instr), i = .sAvail ∨ i = .sPop ∨ i = .sOvr ∨
      (∃ flush lenN txbuf, i = .sTx flush lenN txbuf) →
    s.sInit = false → ∃ why, exec i s = .refused why) ∧
  (∀ (s : State) (i : Instr), (∃ flush addr len8 txbuf, i = .iTx flush addr len8 txbuf) ∨
      (∃ addr len8, i = .iRx addr len8) →
    s.iInit = false → ∃ why, exec i s = .refused why) ∧
  ∀ (s : State) (i : Instr), i = .sReset ∨ i = .iReset ∨ i = .tNow ∨ (∃ dur, i = .tSleep dur) →
    exec i s ≠ .refused .beforeReset

/-- R139: an I2C operation presented while `phase` is not `IDLE` is refused. -/
def Obligations.I2cOperationWhileBusyIsRefused : Prop :=
  ∀ (s : State) (i : Instr), i = .iReset ∨ (∃ flush addr len8 txbuf, i = .iTx flush addr len8 txbuf) ∨
      (∃ addr len8, i = .iRx addr len8) →
    s.phase ≠ .idle → ∃ why, exec i s = .refused why

/-- R10 item 2, R210: while the one consumer is held or inside an operation, no consumer operation, not
even S_RESET, can be issued. -/
def Obligations.BusyConsumerCannotIssueAnOperation : Prop :=
  ∀ (s : State) (i : Instr), roleAllowed i = some .consumer → s.consumer ≠ .ready →
    ∃ why, exec i s = .refused why

/-! ## The serial FIFO block -/

/-- R202 (and the pseudocode of R100): what S_RESET leaves, that it writes no cell, and that none is
live. -/
def Obligations.SResetEmptiesTheBuffer : Prop :=
  ∀ (s : State), ConsumerMay .serial s → ∃ t, exec .sReset s = .next t ∧
    t = { s with
      fill := 0
      drain := 0
      overruns := 0
      rxArmed := true
      sInit := true
      trace := s.trace ++ [.lineDeinit, .lineInit, .lineArmRx]
      results := s.results ++ [⟨.consumer, { code := .ok }⟩] } ∧
    ∀ (a : Nat), ¬ Live t a

/-- R101: S_PUSH, not full and full. -/
def Obligations.SPushStoresAndEvictsOnOverrun : Prop :=
  ∀ (s : State) (b : Byte), SerialReady s → s.presenter = .producer →
    exec (.sPush b) s = .next { s with
      buf := Memory.write s.buf s.fill b
      fill := if s.fill = s.cfg.c - 1 then 0 else s.fill + 1
      drain := if (s.fill + 1) % s.cfg.c = s.drain then (s.drain + 1) % s.cfg.c else s.drain
      overruns := if (s.fill + 1) % s.cfg.c = s.drain ∧ s.overruns ≠ 2 ^ s.cfg.ovrW - 1
        then s.overruns + 1 else s.overruns
      trace := s.trace ++ [.lineArmRx]
      results := s.results ++ [⟨.producer, { code := .ok }⟩] }

/-- R20, R29: the frame of S_PUSH in memory: the one cell stored to is `buf[fill]`; a byte that comes
while the line is not armed stores nothing. -/
def Obligations.SPushWritesOnlyTheCellAtFill : Prop :=
  ∀ (s t : State) (b : Byte), Memory.wf s.buf → exec (.sPush b) s = .next t →
    (∀ (a : Nat), a ≠ s.fill → Memory.read t.buf a = Memory.read s.buf a) ∧
    (s.rxArmed = true → Memory.read t.buf s.fill = b) ∧
    (s.rxArmed = false → t = s) ∧ t.rxbuf = s.rxbuf ∧ t.scratch = s.scratch

/-- R102: S_AVAIL. -/
def Obligations.SAvailReturnsWhetherAByteIsRetained : Prop :=
  ∀ (s : State), ConsumerMay .serial s → s.sInit = true →
    exec .sAvail s = .next { s with results := s.results ++
      [⟨.consumer, { code := .ok, rflag := some (decide (s.fill ≠ s.drain)) }⟩] }

/-- R103: S_POP with a byte retained. -/
def Obligations.SPopReturnsTheOldestByte : Prop :=
  ∀ (s : State), SerialReady s → ConsumerMay .serial s → s.fill ≠ s.drain →
    exec .sPop s = .next { s with
      drain := if s.drain = s.cfg.c - 1 then 0 else s.drain + 1
      results := s.results ++
        [⟨.consumer, { code := .ok, rbyte := some (Memory.read s.buf s.drain) }⟩] }

/-- R103, R10 item 3: on an empty buffer S_POP holds; while the buffer is empty the held consumer stays
as it is; the byte of the next S_PUSH lifts the hold and is the byte returned. -/
def Obligations.SPopHoldsUntilAPush : Prop :=
  ∀ (s : State), SerialReady s → Memory.wf s.buf → ConsumerMay .serial s → s.fill = s.drain →
    exec .sPop s = .next { s with consumer := .heldPop } ∧
    (∀ (rest : List Event),
      step { s with consumer := .heldPop, inputs := .resume :: rest } =
        .next { s with consumer := .heldPop, inputs := rest }) ∧
    ∀ (b : Byte) (rest : List Event), ∃ u,
      steps 2 { s with consumer := .heldPop, inputs := .byteArrived b :: .resume :: rest } =
        .next u ∧
      u.consumer = .ready ∧ u.inputs = rest ∧ u.fill = u.drain ∧
      consumerResults u = consumerResults s ++ [{ code := .ok, rbyte := some b }]

/-- R104, R107: S_TX hands the bytes to the line once, returns `OK` or `ERR_WRITE` by the answer, and
touches nothing else. -/
def Obligations.STxHandsTheBytesToTheLine : Prop :=
  ∀ (s : State) (flush : Bool) (lenN : Nat) (txbuf : List Byte), ConsumerMay .serial s →
    s.sInit = true →
    ∃ bytes answer, Carries txbuf lenN bytes ∧
      (∀ (left : Nat), answer = .fail left → left ≤ lenN) ∧
      (∀ (rest : List LineAnswer), s.answers.line = .ok :: rest → answer = .ok) ∧
      (∀ (left : Nat) (rest : List LineAnswer), s.answers.line = .fail left :: rest →
        answer = .fail (min left lenN)) ∧
      exec (.sTx flush lenN txbuf) s = .next { s with
        answers := { s.answers with line := s.answers.line.tail }
        freeIdx := s.freeIdx + 1
        trace := s.trace ++ [.lineTx bytes flush s.cfg.serialTxMs answer]
        results := s.results ++ [⟨.consumer, { code := if answer = .ok then .ok else .errWrite }⟩] }

/-- R105: S_OVR. -/
def Obligations.SOvrReturnsTheOverrunCount : Prop :=
  ∀ (s : State), ConsumerMay .serial s → s.sInit = true →
    exec .sOvr s = .next { s with results := s.results ++
      [⟨.consumer, { code := .ok, rcount := some s.overruns }⟩] }

/-- R26: the derived conditions, and how S_RESET, S_PUSH and S_POP change them. -/
def Obligations.DerivedConditionsFollowTheIndices : Prop :=
  (∀ (s : State), SerialReady s → occ s < s.cfg.c ∧ (avail s = true ↔ s.fill ≠ s.drain) ∧
    (avail s = true ↔ occ s ≠ 0) ∧ (full s = true ↔ (s.fill + 1) % s.cfg.c = s.drain) ∧
    (full s = true ↔ occ s = s.cfg.c - 1)) ∧
  (∀ (s t : State), 2 ≤ s.cfg.c → exec .sReset s = .next t →
    occ t = 0 ∧ avail t = false ∧ full t = false) ∧
  (∀ (s t : State) (b : Byte), SerialReady s → exec (.sPush b) s = .next t → avail t = true) ∧
  ∀ (s t : State), SerialReady s → avail s = true → exec .sPop s = .next t → full t = false

/-- R28: every operation on the abstract view. -/
def Obligations.OperationsActOnTheQueue : Prop :=
  (∀ (s t : State), 2 ≤ s.cfg.c → exec .sReset s = .next t → queue t = []) ∧
  (∀ (s t : State) (b : Byte), SerialReady s → Memory.wf s.buf → exec (.sPush b) s = .next t →
    ((queue s).length < s.cfg.c - 1 → queue t = queue s ++ [b] ∧ t.overruns = s.overruns) ∧
    ((queue s).length = s.cfg.c - 1 → queue t = (queue s).tail ++ [b] ∧
      t.overruns = if s.overruns = 2 ^ s.cfg.ovrW - 1 then s.overruns else s.overruns + 1)) ∧
  (∀ (s t : State), SerialReady s → exec .sAvail s = .next t → queue t = queue s ∧
    t.results = s.results ++
      [⟨.consumer, { code := .ok, rflag := some (decide ((queue s).length ≠ 0)) }⟩]) ∧
  (∀ (s t : State), SerialReady s → queue s = [] → exec .sPop s = .next t →
    t = { s with consumer := .heldPop }) ∧
  ∀ (s t : State) (b : Byte) (q : List Byte), SerialReady s → queue s = b :: q →
    exec .sPop s = .next t →
    queue t = q ∧ t.results = s.results ++ [⟨.consumer, { code := .ok, rbyte := some b }⟩]

/-- R27 item 4, R64: `buf[fill]` is never live and, where a byte is retained, `buf[drain]` is; S_PUSH,
overrun or not, changes no cell but `buf[fill]`, so no live one; and S_POP reads no cell but `buf[drain]`:
in another memory with the same byte there it does the same, and leaves that memory as it is. -/
def Obligations.ProducerAndConsumerNeverTouchTheSameCell : Prop :=
  ∀ (s : State), SerialReady s →
    ¬ Live s s.fill ∧ (s.fill ≠ s.drain → Live s s.drain) ∧
    (∀ (b : Byte) (t : State), Memory.wf s.buf → exec (.sPush b) s = .next t →
      (∀ (a : Nat), a ≠ s.fill → Memory.read t.buf a = Memory.read s.buf a) ∧
      ∀ (a : Nat), Live s a → Memory.read t.buf a = Memory.read s.buf a) ∧
    ∀ (m : Memory) (t : State), Memory.read m s.drain = Memory.read s.buf s.drain →
      exec .sPop s = .next t → exec .sPop { s with buf := m } = .next { t with buf := m }

/-- R110: the same at every position of `fill` and `drain`: stored without overrun up to occupancy C-1,
an overrun at C-1, and C never reached. -/
def Obligations.NoIndexPositionIsSpecial : Prop :=
  ∀ (s : State) (b : Byte), SerialReady s → s.presenter = .producer →
    ∃ t, exec (.sPush b) s = .next t ∧
    (occ s < s.cfg.c - 1 → occ t = occ s + 1 ∧ t.drain = s.drain ∧ t.overruns = s.overruns) ∧
    (occ s = s.cfg.c - 2 → full t = true) ∧
    (occ s = s.cfg.c - 1 → occ t = s.cfg.c - 1 ∧ t.drain = (s.drain + 1) % s.cfg.c ∧
      t.overruns = if s.overruns = 2 ^ s.cfg.ovrW - 1 then s.overruns else s.overruns + 1)

/-- R109: after S_RESET, n pushes and no pop. -/
def Obligations.OverrunKeepsTheMostRecentBytes : Prop :=
  ∀ (s : State) (bytes : List Byte), SerialReady s → Memory.wf s.buf → s.fill = 0 → s.drain = 0 →
    s.overruns = 0 →
    ∃ t, steps bytes.length { s with inputs := bytes.map Event.byteArrived } = .next t ∧
      t.fill = bytes.length % s.cfg.c ∧
      queue t = bytes.drop (bytes.length - (s.cfg.c - 1)) ∧
      t.overruns = min (bytes.length - (s.cfg.c - 1)) (2 ^ s.cfg.ovrW - 1) ∧
      (bytes.length < s.cfg.c - 1 → t.drain = 0) ∧
      (s.cfg.c - 1 ≤ bytes.length → occ t = s.cfg.c - 1 ∧ t.drain = (bytes.length + 1) % s.cfg.c)

/-- R67: between two S_RESETs, whatever the agents do, the bytes S_POP returned in that interval and the
bytes still retained are, in order, a subsequence of the bytes pushed in it, and what is missing is
counted. The interval may follow others: what S_POP returned before it stays listed. -/
def Obligations.BytesAreDeliveredInOrder : Prop :=
  ∀ (s : State) (events : List Event) (t : State), MachineInv s → s.sInit = true →
    s.fill = s.drain → s.overruns = 0 → (∀ e ∈ events, e.presentsReset = false) →
    steps events.length { s with inputs := events } = .next t →
    ∃ out, poppedBytes t = poppedBytes s ++ out ∧
      (out ++ queue t).Sublist (pushedBytes events) ∧
      t.overruns = min ((pushedBytes events).length - (out ++ queue t).length) (2 ^ s.cfg.ovrW - 1)

/-- R108: in a segment that starts at an empty buffer with no overrun counted, as S_RESET leaves it, and
in which nothing was evicted, the bytes returned are the first bytes pushed, in order. -/
def Obligations.WithoutOverrunPopsReturnTheFirstPushes : Prop :=
  ∀ (s : State) (events : List Event) (t : State), MachineInv s → 1 ≤ s.cfg.ovrW → s.sInit = true →
    s.fill = s.drain → s.overruns = 0 → (∀ e ∈ events, e.presentsReset = false) →
    steps events.length { s with inputs := events } = .next t → t.overruns = 0 →
    ∃ out, poppedBytes t = poppedBytes s ++ out ∧ out = (pushedBytes events).take out.length

/-- R62: after a true S_AVAIL the consumer's next S_POP does not hold, whatever the producer and the
ticker do in between. -/
def Obligations.TrueAvailMeansThePopDoesNotHold : Prop :=
  ∀ (s : State) (events : List Event), MachineInv s → s.sInit = true → ConsumerMay .serial s →
    avail s = true → (∀ e ∈ events, e.isEnvironmentStep) →
    ∃ t u b, steps events.length { s with inputs := events } = .next t ∧
      exec .sPop { t with presenter := .consumer } = .next u ∧ u.consumer = .ready ∧
      u.results = t.results ++ [⟨.consumer, { code := .ok, rbyte := some b }⟩]

/-- R104: S_TX commutes with an S_PUSH that happens while it blocks: in both orders the same state is
left and the same result is returned to the CONSUMER (only the order in which the two blocks' calls are
listed differs). -/
def Obligations.STxCommutesWithAPush : Prop :=
  ∀ (s : State) (b : Byte) (p : Ports), SerialReady s → s.consumer = .ready → p.op = 0x4 →
    ∃ t u, steps 2 { s with inputs := [.command .consumer p, .byteArrived b] } = .next t ∧
      steps 2 { s with inputs := [.byteArrived b, .command .consumer p] } = .next u ∧
      t.buf = u.buf ∧ t.fill = u.fill ∧ t.drain = u.drain ∧ t.overruns = u.overruns ∧
      t.rxArmed = u.rxArmed ∧ t.answers = u.answers ∧ consumerResults t = consumerResults u

/-- R179: both orders of a simultaneous S_PUSH and S_POP on a full buffer. -/
def Obligations.BothOrdersOfPushAndPopAreRuns : Prop :=
  ∀ (s : State) (b x y : Byte) (q : List Byte), SerialReady s → Memory.wf s.buf →
    s.consumer = .ready → 3 ≤ s.cfg.c →
    full s = true → queue s = x :: y :: q →
    (∃ t, steps 2 { s with inputs := [.command .consumer { op := 0x3 }, .byteArrived b] } = .next t ∧
      poppedBytes t = poppedBytes s ++ [x] ∧ queue t = y :: q ++ [b] ∧ t.overruns = s.overruns) ∧
    ∃ t, steps 2 { s with inputs := [.byteArrived b, .command .consumer { op := 0x3 }] } = .next t ∧
      poppedBytes t = poppedBytes s ++ [y] ∧ queue t = q ++ [b] ∧
      t.overruns = if s.overruns = 2 ^ s.cfg.ovrW - 1 then s.overruns else s.overruns + 1

/-- R177, R178: a byte that arrives while the line is armed makes the PRODUCER perform S_PUSH; one that
arrives while it is not is lost and not counted. -/
def Obligations.ArrivingByteIsPushedOrLost : Prop :=
  ∀ (s : State) (b : Byte) (rest : List Event), s.inputs = .byteArrived b :: rest →
    (s.rxArmed = true → step s = exec (.sPush b) { s with inputs := rest, presenter := .producer }) ∧
    (s.rxArmed = false → step s = .next { s with inputs := rest })

/-- R111: reception cannot stall: in every state of the invariant after the first S_RESET, whatever the
consumer is doing, an arriving byte is taken, the line is armed again, and the consumer stays where it
was. -/
def Obligations.ReceptionCannotStall : Prop :=
  ∀ (s : State) (b : Byte) (rest : List Event), MachineInv s → s.sInit = true →
    s.inputs = .byteArrived b :: rest →
    ∃ t, step s = .next t ∧ t.rxArmed = true ∧ avail t = true ∧ t.consumer = s.consumer

/-! ## The I2C framing engine -/

/-- R203 (and the pseudocode of R130): what I_RESET leaves, whatever `attempt` held; it sends nothing to
the device. -/
def Obligations.IResetReturnsTheEngineToIdle : Prop :=
  ∀ (s : State), ConsumerMay .i2c s → s.phase = .idle → ∃ t, exec .iReset s = .next t ∧
    t = { s with
      phase := .idle
      attempt := 0
      iInit := true
      trace := s.trace ++ [.busDeinit, .busInit]
      results := s.results ++ [⟨.consumer, { code := .ok }⟩] } ∧
    (s.scratch = none → EngineIdle t) ∧ transactions t = transactions s

/-- R131, R80: I_TX sends the write frame in exactly one master write, or nothing when the allocation
fails. -/
def Obligations.ITxSendsTheWriteFrameOnce : Prop :=
  ∀ (s : State) (flush : Bool) (addr : Nat) (len8 : Byte) (txbuf : List Byte), ConsumerMay .i2c s →
    EngineIdle s → s.iInit = true →
    ∃ payload aOk wOk, Carries txbuf len8.toNat payload ∧
      (∀ (a : Bool) (rest : List Bool), s.answers.alloc = a :: rest → aOk = a) ∧
      (∀ (w : Bool) (rest : List Bool), s.answers.write = w :: rest → wOk = w) ∧
      (aOk = false → exec (.iTx flush addr len8 txbuf) s = .next { s with
        answers := { s.answers with alloc := s.answers.alloc.tail }
        freeIdx := s.freeIdx + 1
        trace := s.trace ++ [.alloc (len8.toNat + 1) false]
        results := s.results ++ [⟨.consumer, { code := .errAlloc }⟩] }) ∧
      (aOk = true → exec (.iTx flush addr len8 txbuf) s = .next { s with
        answers := { s.answers with
          alloc := s.answers.alloc.tail
          write := s.answers.write.tail }
        freeIdx := s.freeIdx + 2
        trace := s.trace ++ [.alloc (len8.toNat + 1) true,
          .busWrite addr (len8 :: payload) s.cfg.i2cWriteMs wOk, .free]
        results := s.results ++ [⟨.consumer, { code := if wOk then .ok else .errWrite }⟩] })

/-- R132, R140 (first sentence): after `k` failed and one successful request write, a response with the
requested echoed length is copied to `RXBUF` and its backlog returned. -/
def Obligations.IRxReturnsPayloadAndBacklog : Prop :=
  ∀ (s : State) (addr : Nat) (len8 : Byte) (k : Nat) (writes allocs : List Bool)
      (reads : List (Option (List Byte))) (backlog : Byte) (payload : List Byte),
    ConsumerMay .i2c s → EngineIdle s →
    s.iInit = true → k < s.cfg.i2cReqAttempts → payload.length = len8.toNat →
    s.answers.write = List.replicate k false ++ true :: writes → s.answers.alloc = true :: allocs →
    s.answers.read = some (backlog :: len8 :: payload) :: reads →
    exec (.iRx addr len8) s = .next { s with
      answers := { s.answers with write := writes, alloc := allocs, read := reads }
      freeIdx := s.freeIdx + k + 3
      rxbuf := Memory.writeBytes s.rxbuf 0 payload
      trace := s.trace ++
        List.replicate k (.busWrite addr [0, len8] s.cfg.i2cWriteMs false) ++
        [.busWrite addr [0, len8] s.cfg.i2cWriteMs true, .alloc (len8.toNat + 2) true,
          .busRead addr (len8.toNat + 2) s.cfg.i2cReadMs (some (backlog :: len8 :: payload)), .free]
      results := s.results ++
        [⟨.consumer, { code := .ok, ravail := some backlog, rxbuf := some payload }⟩] }

/-- R136, R174: a response with another echoed length is a length mismatch; `RXBUF` is untouched, and the
backlog is not reported. -/
def Obligations.IRxRejectsAnotherEchoedLength : Prop :=
  ∀ (s : State) (addr : Nat) (len8 : Byte) (k : Nat) (writes allocs : List Bool)
      (reads : List (Option (List Byte))) (backlog echoed : Byte) (payload : List Byte),
    ConsumerMay .i2c s → EngineIdle s →
    s.iInit = true → k < s.cfg.i2cReqAttempts → payload.length = len8.toNat → echoed ≠ len8 →
    s.answers.write = List.replicate k false ++ true :: writes → s.answers.alloc = true :: allocs →
    s.answers.read = some (backlog :: echoed :: payload) :: reads →
    exec (.iRx addr len8) s = .next { s with
      answers := { s.answers with write := writes, alloc := allocs, read := reads }
      freeIdx := s.freeIdx + k + 3
      trace := s.trace ++
        List.replicate k (.busWrite addr [0, len8] s.cfg.i2cWriteMs false) ++
        [.busWrite addr [0, len8] s.cfg.i2cWriteMs true, .alloc (len8.toNat + 2) true,
          .busRead addr (len8.toNat + 2) s.cfg.i2cReadMs (some (backlog :: echoed :: payload)), .free]
      results := s.results ++ [⟨.consumer, { code := .errLenMismatch }⟩] }

/-- R171, R172, R173: where I_RX fails before a response is there: all request writes fail (no allocation
and no read is attempted), the allocation fails (no read), the read fails (it is not retried). -/
def Obligations.IRxReportsTheFirstFailure : Prop :=
  (∀ (s : State) (addr : Nat) (len8 : Byte) (writes : List Bool), ConsumerMay .i2c s →
    EngineIdle s → s.iInit = true →
    s.answers.write = List.replicate s.cfg.i2cReqAttempts false ++ writes →
    exec (.iRx addr len8) s = .next { s with
      answers := { s.answers with write := writes }
      freeIdx := s.freeIdx + s.cfg.i2cReqAttempts
      trace := s.trace ++
        List.replicate s.cfg.i2cReqAttempts (.busWrite addr [0, len8] s.cfg.i2cWriteMs false)
      results := s.results ++ [⟨.consumer, { code := .errWrite }⟩] }) ∧
  (∀ (s : State) (addr : Nat) (len8 : Byte) (k : Nat) (writes allocs : List Bool),
    ConsumerMay .i2c s → EngineIdle s → s.iInit = true →
    k < s.cfg.i2cReqAttempts → s.answers.write = List.replicate k false ++ true :: writes →
    s.answers.alloc = false :: allocs →
    exec (.iRx addr len8) s = .next { s with
      answers := { s.answers with write := writes, alloc := allocs }
      freeIdx := s.freeIdx + k + 2
      trace := s.trace ++
        List.replicate k (.busWrite addr [0, len8] s.cfg.i2cWriteMs false) ++
        [.busWrite addr [0, len8] s.cfg.i2cWriteMs true, .alloc (len8.toNat + 2) false]
      results := s.results ++ [⟨.consumer, { code := .errAlloc }⟩] }) ∧
  ∀ (s : State) (addr : Nat) (len8 : Byte) (k : Nat) (writes allocs : List Bool)
      (reads : List (Option (List Byte))),
    ConsumerMay .i2c s → EngineIdle s → s.iInit = true →
    k < s.cfg.i2cReqAttempts → s.answers.write = List.replicate k false ++ true :: writes →
    s.answers.alloc = true :: allocs → s.answers.read = none :: reads →
    exec (.iRx addr len8) s = .next { s with
      answers := { s.answers with write := writes, alloc := allocs, read := reads }
      freeIdx := s.freeIdx + k + 3
      trace := s.trace ++
        List.replicate k (.busWrite addr [0, len8] s.cfg.i2cWriteMs false) ++
        [.busWrite addr [0, len8] s.cfg.i2cWriteMs true, .alloc (len8.toNat + 2) true,
          .busRead addr (len8.toNat + 2) s.cfg.i2cReadMs none, .free]
      results := s.results ++ [⟨.consumer, { code := .errRead }⟩] }

/-- R132, R137, R176: whatever the environment answers, I_RX completes with one result, leaves the engine
idle and holding no scratch region, and touches the caller's buffer on success only. -/
def Obligations.IRxAlwaysCompletes : Prop :=
  ∀ (s : State) (addr : Nat) (len8 : Byte), ConsumerMay .i2c s → EngineIdle s → s.iInit = true →
    ∃ t res, exec (.iRx addr len8) s = .next t ∧ EngineIdle t ∧ t.consumer = .ready ∧
      t.iInit = true ∧ t.results = s.results ++ [{ role := .consumer, result := res }] ∧
      (res.code ≠ .ok → t.rxbuf = s.rxbuf ∧ res = { code := res.code }) ∧
      (res.code = .ok → ∃ backlog payload, payload.length = len8.toNat ∧
        t.rxbuf = Memory.writeBytes s.rxbuf 0 payload ∧
        res = { code := .ok, ravail := some backlog, rxbuf := some payload })

/-- R53, R132 (h): the frame of I_RX in memory: the bytes stored are `RXBUF[0 .. len8)`; every other byte
of `RXBUF`, and every byte of `BUF`, is unchanged. -/
def Obligations.IRxWritesOnlyTheRequestedBytes : Prop :=
  ∀ (s t : State) (addr : Nat) (len8 : Byte), Memory.wf s.rxbuf →
    exec (.iRx addr len8) s = .next t →
    (∀ (a : Nat), len8.toNat ≤ a → Memory.read t.rxbuf a = Memory.read s.rxbuf a) ∧ t.buf = s.buf

/-- R140, R68: how many transactions one I_RX makes; and where it reads, the request writes come first,
the last of them answered ok, then the allocation, then the read. -/
def Obligations.IRxTransactionCounts : Prop :=
  ∀ (s t : State) (addr : Nat) (len8 : Byte), 1 ≤ s.cfg.i2cReqAttempts →
    exec (.iRx addr len8) s = .next t →
    ∃ calls, t.trace = s.trace ++ calls ∧
      1 ≤ calls.countP EnvCall.isBusWrite ∧
      calls.countP EnvCall.isBusWrite ≤ s.cfg.i2cReqAttempts ∧
      calls.countP EnvCall.isBusRead ≤ 1 ∧
      (calls.countP EnvCall.isBusRead = 1 →
        (calls.filter EnvCall.isBusWrite).getLast? =
          some (.busWrite addr [0, len8] s.cfg.i2cWriteMs true) ∧
        EnvCall.alloc (len8.toNat + 2) true ∈ calls ∧
        ∃ n answer, calls = List.replicate n (.busWrite addr [0, len8] s.cfg.i2cWriteMs false) ++
          [.busWrite addr [0, len8] s.cfg.i2cWriteMs true, .alloc (len8.toNat + 2) true,
            .busRead addr (len8.toNat + 2) s.cfg.i2cReadMs answer, .free])

/-- R135: the multi-step and the one-step readings of I_TX and I_RX give the same results, the same
transactions and the same state, and are refused together. -/
def Obligations.StepwiseAndAtomicReadingsAgree : Prop :=
  ∀ (s : State) (who : Presenter) (p : Ports) (rest : List Event), 1 ≤ s.cfg.i2cReqAttempts →
    p.op = 0x9 ∨ p.op = 0xA →
    steps (s.cfg.i2cReqAttempts + 4) { s with inputs := .commandStepwise who p ::
        (List.replicate (s.cfg.i2cReqAttempts + 3) .arrow ++ rest) } =
      step { s with inputs := .command who p :: rest }

/-- R135: a TICK between two arrows changes nothing but the tick. -/
def Obligations.TickCommutesWithEveryArrow : Prop :=
  ∀ (s : State) (rest : List Event)
      (t : State), steps 2 { s with inputs := .tick :: .arrow :: rest } = .next t ↔
    steps 2 { s with inputs := .arrow :: .tick :: rest } = .next t

/-- R80, R135: in `TX_WRITE` the write frame goes out as one master write and I_TX returns. -/
def Obligations.FrameWriteEndsTheTransmit : Prop :=
  ∀ (s : State) (flush : Bool) (addr : Nat) (len8 : Byte) (txbuf : List Byte) (length : Byte)
      (payload : List Byte), s.consumer = .inI2c (.tx flush addr len8 txbuf) →
    s.phase = .txWrite → s.scratchBytes = length :: payload →
    ∃ wOk, (∀ (w : Bool) (rest : List Bool), s.answers.write = w :: rest → wOk = w) ∧
      exec (.frameWrite length payload) s = .next { s with
        phase := .idle
        consumer := .ready
        scratch := none
        answers := { s.answers with write := s.answers.write.tail }
        freeIdx := s.freeIdx + 1
        trace := s.trace ++ [.busWrite addr (length :: payload) s.cfg.i2cWriteMs wOk, .free]
        results := s.results ++ [⟨.consumer, { code := if wOk then .ok else .errWrite }⟩] }

/-- R81, R135: in `RX_REQUEST` the request frame goes out as one master write; the three arrows out of
`RX_REQUEST`. -/
def Obligations.FrameReadRequestIsOneAttempt : Prop :=
  ∀ (s : State) (addr : Nat) (len8 : Byte), s.consumer = .inI2c (.rx addr len8) →
    s.phase = .rxRequest →
    ∃ wOk, (∀ (w : Bool) (rest : List Bool), s.answers.write = w :: rest → wOk = w) ∧
      ∀ (sent : State), sent = { s with
        attempt := s.attempt + 1
        answers := { s.answers with write := s.answers.write.tail }
        freeIdx := s.freeIdx + 1
        trace := s.trace ++ [.busWrite addr [0, len8] s.cfg.i2cWriteMs wOk] } →
      (wOk = true →
        exec (.frameReadRequest len8) s = .next { sent with phase := .rxAlloc }) ∧
      (wOk = false → s.attempt + 1 < s.cfg.i2cReqAttempts →
        exec (.frameReadRequest len8) s = .next sent) ∧
      (wOk = false → s.cfg.i2cReqAttempts ≤ s.attempt + 1 →
        exec (.frameReadRequest len8) s = .next { sent with
          phase := .idle
          attempt := 0
          consumer := .ready
          results := s.results ++ [⟨.consumer, { code := .errWrite }⟩] })

/-- R82, R88, R135, R136: exactly the equality `scratch[1] = len8` decides, and `available` and the
payload are never checked. On a match the payload is copied and the backlog reported; on a mismatch the
length mismatch is reported, the payload and the backlog are discarded, and `RXBUF` is untouched. First
clause: a frame of the size asked for arrives in `RX_READ`; that it takes the arrow out of `RX_VALIDATE` as
well is the model's reading, log entry 9. Second clause: the arrow out of `RX_VALIDATE` by itself. -/
def Obligations.FrameReadResponseIsAcceptedIffEchoed : Prop :=
  (∀ (s : State) (addr : Nat) (len8 : Byte) (r : Scratch) (backlog echoed : Byte)
      (payload : List Byte), s.consumer = .inI2c (.rx addr len8) →
    s.phase = .rxRead → s.scratch = some r → r.size = len8.toNat + 2 → Memory.wf r.cells →
    payload.length = len8.toNat →
    ∀ (read : State), read = { s with
      phase := .idle
      attempt := 0
      consumer := .ready
      scratch := none
      trace := s.trace ++ [.busRead addr (len8.toNat + 2) s.cfg.i2cReadMs
        (some (backlog :: echoed :: payload)), .free] } →
    (echoed = len8 → exec (.frameReadResponse backlog echoed payload) s = .next { read with
      rxbuf := Memory.writeBytes s.rxbuf 0 payload
      results := s.results ++
        [⟨.consumer, { code := .ok, ravail := some backlog, rxbuf := some payload }⟩] }) ∧
    (echoed ≠ len8 → exec (.frameReadResponse backlog echoed payload) s = .next { read with
      results := s.results ++ [⟨.consumer, { code := .errLenMismatch }⟩] })) ∧
  ∀ (s : State) (rest : List Event) (addr : Nat) (len8 : Byte) (r : Scratch) (backlog echoed : Byte)
      (payload : List Byte), s.inputs = .arrow :: rest → s.phase = .rxValidate →
    s.consumer = .inI2c (.rx addr len8) → s.scratch = some r →
    r.bytes = backlog :: echoed :: payload → payload.length = len8.toNat →
    ∀ (done : State), done = { s with
      inputs := rest
      phase := .idle
      attempt := 0
      consumer := .ready
      scratch := none
      trace := s.trace ++ [.free] } →
    (echoed = len8 → step s = .next { done with
      rxbuf := Memory.writeBytes s.rxbuf 0 payload
      results := s.results ++
        [⟨.consumer, { code := .ok, ravail := some backlog, rxbuf := some payload }⟩] }) ∧
    (echoed ≠ len8 → step s = .next { done with
      results := s.results ++ [⟨.consumer, { code := .errLenMismatch }⟩] })

/-- R139: the bus carries no frame that the operation in progress does not call for: in `IDLE` every
frame is refused. -/
def Obligations.FramesOutsideAnOperationAreRefused : Prop :=
  ∀ (s : State) (i : Instr), (∃ length payload, i = .frameWrite length payload) ∨
      (∃ length, i = .frameReadRequest length) ∨
      (∃ backlog echoed payload, i = .frameReadResponse backlog echoed payload) →
    s.phase = .idle → exec i s = .refused .noI2cInProgress

/-! ## The timing source -/

/-- R160: T_NOW, from power-on. -/
def Obligations.TNowReturnsTheTick : Prop :=
  ∀ (s : State), s.presenter = .consumer → s.consumer = .ready →
    exec .tNow s = .next { s with results := s.results ++
      [⟨.consumer, { code := .ok, rtick := some s.tick }⟩] }

/-- R161: T_SLEEP samples the tick; the consumer is then held as long as fewer than `d` ticks have
elapsed, and completes with `OK` when it looks after at least `d` have. -/
def Obligations.TSleepBlocksForAtLeastItsDuration : Prop :=
  (∀ (s : State) (d : Nat), s.presenter = .consumer → s.consumer = .ready →
    exec (.tSleep d) s = .next { s with consumer := .sleeping s.tick d }) ∧
  (∀ (s : State) (rest : List Event) (t0 d : Nat), s.inputs = .resume :: rest →
    s.consumer = .sleeping t0 d → elapsed s.cfg t0 s.tick < d →
    step s = .next { s with inputs := rest }) ∧
  ∀ (s : State) (rest : List Event) (t0 d : Nat), s.inputs = .resume :: rest →
    s.consumer = .sleeping t0 d → d ≤ elapsed s.cfg t0 s.tick →
    step s = .next { s with
      inputs := rest
      consumer := .ready
      results := s.results ++ [⟨.consumer, { code := .ok }⟩] }

/-- R162: TICK is always enabled and adds one modulo `2^TICK_W`. -/
def Obligations.TickAddsOneAndWraps : Prop :=
  ∀ (s : State) (rest : List Event), s.inputs = .tick :: rest →
    step s = .next { s with inputs := rest, tick := (s.tick + 1) % 2 ^ s.cfg.tickW }

/-- R163: the elapsed count between two readings is exact as long as fewer than `2^TICK_W` ticks lie
between them, across the wrap too. -/
def Obligations.ElapsedTimeIsExactAcrossTheWrap : Prop :=
  ∀ (s : State) (n : Nat) (rest : List Event), s.tick < 2 ^ s.cfg.tickW → n < 2 ^ s.cfg.tickW →
    ∃ t, steps n { s with inputs := List.replicate n .tick ++ rest } = .next t ∧
      elapsed s.cfg s.tick t.tick = n

/-- R33, R204: nothing but the TICKER's step writes `tick`. -/
def Obligations.OnlyTheTickerWritesTheTick : Prop :=
  ∀ (s t : State), step s = .next t → t.tick ≠ s.tick →
    ∃ e rest, s.inputs = e :: rest ∧ e.agent = .ticker

/-! ## Frames over all instructions -/

/-- R29: who writes the state of the serial FIFO block. -/
def Obligations.WritersOfTheSerialState : Prop :=
  ∀ (i : Instr) (s t : State), exec i s = .next t →
    ((∀ (b : Byte), i ≠ .sPush b) → t.buf = s.buf) ∧
    ((∀ (b : Byte), i ≠ .sPush b) → i ≠ .sReset → t.fill = s.fill ∧ t.overruns = s.overruns ∧
      t.rxArmed = s.rxArmed) ∧
    ((∀ (b : Byte), i ≠ .sPush b) → i ≠ .sReset → i ≠ .sPop → t.drain = s.drain) ∧
    (∀ (b : Byte), i = .sPush b → full s = false → t.drain = s.drain ∧ t.overruns = s.overruns) ∧
    (i ≠ .sReset → t.sInit = s.sInit)

/-- R7: the two transports share no state, and neither writes the timing source, the configuration or
what drives the machine. -/
def Obligations.BlocksShareNoState : Prop :=
  ∀ (i : Instr) (s t : State), exec i s = .next t →
    (blockOf i = some .i2c → t.buf = s.buf ∧ t.fill = s.fill ∧ t.drain = s.drain ∧
      t.overruns = s.overruns ∧ t.rxArmed = s.rxArmed ∧ t.sInit = s.sInit) ∧
    (blockOf i ≠ some .i2c → t.iInit = s.iInit ∧ t.phase = s.phase ∧ t.attempt = s.attempt ∧
      t.scratch = s.scratch ∧ t.rxbuf = s.rxbuf) ∧
    t.tick = s.tick ∧ t.cfg = s.cfg ∧ t.inputs = s.inputs ∧ t.presenter = s.presenter

/-- R25, R30, R34: the configuration never changes, and the two bookkeeping bits are never cleared. -/
def Obligations.ConfigurationAndInitBitsPersist : Prop :=
  ∀ (s t : State), step s = .next t → t.cfg = s.cfg ∧ (s.sInit = true → t.sInit = true) ∧
    (s.iInit = true → t.iInit = true)

/-- R60: S_AVAIL, S_OVR and T_NOW are pure reads: each changes nothing but the list of results returned,
and repeated at once returns the same. -/
def Obligations.PureReadsRepeat : Prop :=
  ∀ (s t : State) (i : Instr), i = .sAvail ∨ i = .sOvr ∨ i = .tNow → exec i s = .next t →
    ∃ res, t = { s with results := s.results ++ [res] } ∧
      exec i t = .next { s with results := s.results ++ [res, res] }
end

