-- ==== Sys2Proof/Laws/Flags.lean ====
section
/-! SUPPORT. The arithmetic of the indices, the counter and the tick (spec/40_serial_fifo.md R106,
spec/10_state.md R26, spec/42_timing_source.md R163). -/

namespace Sys2Proof.Machine

theorem idxNext_lt (k : Config) (i : Nat) (h : 0 < k.c) : idxNext k i < k.c := Nat.mod_lt _ h

/-- R106: for an index already in `0 .. C-1` the update needs no division. -/
theorem idxNext_eq (k : Config) (i : Nat) (h : i < k.c) :
    idxNext k i = if i = k.c - 1 then 0 else i + 1 := by
  unfold idxNext
  split
  · next e => rw [e, Nat.sub_add_cancel (by omega), Nat.mod_self]
  · exact Nat.mod_eq_of_lt (by omega)

/-- `(x + c - y) mod c` for two indices in range. -/
theorem mod_sub_eq (x y c : Nat) (hx : x < c) (hy : y < c) :
    (x + c - y) % c = if y ≤ x then x - y else x + c - y := by
  split
  · next h =>
    have : x + c - y = (x - y) + c := by omega
    rw [this, Nat.add_mod_right, Nat.mod_eq_of_lt (by omega)]
  · exact Nat.mod_eq_of_lt (by omega)

theorem occ_eq (s : State) (hf : s.fill < s.cfg.c) (hd : s.drain < s.cfg.c) :
    occ s = if s.drain ≤ s.fill then s.fill - s.drain else s.fill + s.cfg.c - s.drain :=
  mod_sub_eq _ _ _ hf hd

theorem occ_lt (s : State) (h : 0 < s.cfg.c) : occ s < s.cfg.c := Nat.mod_lt _ h

theorem avail_iff (s : State) : avail s = true ↔ s.fill ≠ s.drain := by simp [avail]

theorem avail_false_iff (s : State) : avail s = false ↔ s.fill = s.drain := by simp [avail]

theorem full_iff (s : State) : full s = true ↔ idxNext s.cfg s.fill = s.drain := by simp [full]

/-- R26: `avail` is `occ != 0`. -/
theorem avail_iff_occ (s : State) (hf : s.fill < s.cfg.c) (hd : s.drain < s.cfg.c) :
    avail s = true ↔ occ s ≠ 0 := by
  rw [avail_iff, occ_eq s hf hd]
  split <;> omega

/-- R26: `full` is `occ = C-1`. -/
theorem full_iff_occ (s : State) (hf : s.fill < s.cfg.c) (hd : s.drain < s.cfg.c) :
    full s = true ↔ occ s = s.cfg.c - 1 := by
  rw [full_iff, occ_eq s hf hd, idxNext_eq _ _ hf]
  split <;> split <;> omega

/-- The cell at distance `i` from `drain`. -/
theorem mod_add_eq (x i c : Nat) (hx : x < c) (hi : i < c) :
    (x + i) % c = if x + i < c then x + i else x + i - c := by
  split
  · next h => exact Nat.mod_eq_of_lt h
  · have : x + i = (x + i - c) + c := by omega
    rw [this, Nat.add_mod_right, Nat.mod_eq_of_lt (by omega)]
    omega

/-- The saturating increment stays in the counter's width. -/
theorem satInc_lt (k : Config) (v : Nat) (h : v < 2 ^ k.ovrW) : satInc k v < 2 ^ k.ovrW := by
  unfold satInc; split <;> omega

/-- Counting on a saturating counter: one more step of `min n limit`. -/
theorem satInc_min (k : Config) (n : Nat) :
    satInc k (min n (2 ^ k.ovrW - 1)) = min (n + 1) (2 ^ k.ovrW - 1) := by
  unfold satInc; split <;> omega

theorem tickNext_lt (k : Config) (t : Nat) : tickNext k t < 2 ^ k.tickW := Nat.mod_lt _ (by positivity)

/-- The elapsed count of `n` steps of the tick from `t0` (R163). -/
theorem elapsed_add (k : Config) (t0 n : Nat) (ht : t0 < 2 ^ k.tickW) (hn : n < 2 ^ k.tickW) :
    elapsed k t0 ((t0 + n) % 2 ^ k.tickW) = n := by
  unfold elapsed
  rw [Nat.mod_eq_of_lt ht, mod_add_eq _ _ _ ht hn]
  split
  · next h =>
    have : t0 + n + 2 ^ k.tickW - t0 = n + 2 ^ k.tickW := by omega
    rw [this, Nat.add_mod_right, Nat.mod_eq_of_lt hn]
  · have : t0 + n - 2 ^ k.tickW + 2 ^ k.tickW - t0 = n := by omega
    rw [this, Nat.mod_eq_of_lt hn]

end Sys2Proof.Machine
end

