-- ==== Sys2Proof/Laws/Memory.lean ====
section
/-! SUPPORT. The laws of a byte-addressed space: a read after a write, what a write leaves alone, and that
every operation keeps the canonical form. -/

namespace Sys2Proof.Machine

theorem Memory.wf_nil : Memory.wf [] := by simp [Memory.wf]

theorem Memory.wf_tail {c : Host.Cell} {m : Memory} (h : Memory.wf (c :: m)) : Memory.wf m :=
  ⟨(List.pairwise_cons.mp h.1).2, fun d hd => h.2 d (by simp [hd])⟩

/-- Below every listed address nothing is listed. -/
theorem Memory.read_below : ∀ (m : Memory) (x : Nat), (∀ c ∈ m, x < c.1) →
    Memory.read m x = Config.unlistedByte
  | [], _, _ => rfl
  | (a, b) :: rest, x, h => by
    have hx : x < a := h (a, b) (by simp)
    have hne : x ≠ a := Nat.ne_of_lt hx
    rw [Memory.read, if_neg hne]
    exact Memory.read_below rest x fun c hc => h c (by simp [hc])

theorem Memory.read_cell_append (x y : Nat) (v : Byte) (m : Memory)
    (h : ∀ c ∈ m, x < c.1) :
    Memory.read (Memory.cell x v ++ m) y = if y = x then v else Memory.read m y := by
  unfold Memory.cell
  by_cases hv : v = Config.unlistedByte
  · by_cases hy : y = x
    · subst hy; simp [hv, Memory.read_below m y h]
    · simp [hv, hy]
  · simp [hv, Memory.read]

/-- A read after a write: the value written at that address, and what was there before at any other. -/
theorem Memory.read_write : ∀ (m : Memory) (x y : Nat) (v : Byte), Memory.wf m →
    Memory.read (Memory.write m x v) y = if y = x then v else Memory.read m y
  | [], x, y, v, _ => by
    have := Memory.read_cell_append x y v [] (by simp)
    simpa [Memory.write] using this
  | (a, b) :: rest, x, y, v, h => by
    have hp := List.pairwise_cons.mp h.1
    unfold Memory.write
    by_cases h1 : x < a
    · rw [if_pos h1, Memory.read_cell_append]
      intro c hc
      rcases List.mem_cons.mp hc with rfl | hc
      · exact h1
      · exact Nat.lt_trans h1 (hp.1 c hc)
    · rw [if_neg h1]
      by_cases h2 : x = a
      · subst h2
        rw [if_pos rfl, Memory.read_cell_append x y v rest (fun c hc => hp.1 c hc)]
        by_cases hy : y = x <;> simp [hy, Memory.read]
      · rw [if_neg h2]
        have ih := Memory.read_write rest x y v (Memory.wf_tail h)
        by_cases hy : y = a
        · subst hy
          have : y ≠ x := fun e => h2 e.symm
          simp [Memory.read, this]
        · simp [Memory.read, hy, ih]

theorem Memory.mem_write {c : Host.Cell} : ∀ {m : Memory} {x : Nat} {v : Byte},
    c ∈ Memory.write m x v → (c = (x, v) ∧ v ≠ Config.unlistedByte) ∨ c ∈ m
  | [], x, v, h => by
    by_cases hv : v = Config.unlistedByte <;> simp_all [Memory.write, Memory.cell]
  | (a, b) :: rest, x, v, h => by
    unfold Memory.write at h
    by_cases h1 : x < a
    · by_cases hv : v = Config.unlistedByte <;> simp_all [Memory.cell]
    · rw [if_neg h1] at h
      by_cases h2 : x = a
      · rw [if_pos h2] at h
        by_cases hv : v = Config.unlistedByte
        · rw [Memory.cell, if_pos hv, List.nil_append] at h
          exact .inr (List.mem_cons_of_mem _ h)
        · rw [Memory.cell, if_neg hv, List.singleton_append, List.mem_cons] at h
          rcases h with h | h
          · exact .inl ⟨h, hv⟩
          · exact .inr (List.mem_cons_of_mem _ h)
      · rw [if_neg h2, List.mem_cons] at h
        rcases h with h | h
        · exact .inr (by simp [h])
        · rcases Memory.mem_write h with h | h
          · exact .inl h
          · exact .inr (List.mem_cons_of_mem _ h)

theorem Memory.wf_cell_append {x : Nat} {v : Byte} {m : Memory} (hm : Memory.wf m)
    (h : ∀ c ∈ m, x < c.1) : Memory.wf (Memory.cell x v ++ m) := by
  unfold Memory.cell
  by_cases hv : v = Config.unlistedByte
  · simpa [hv] using hm
  · rw [if_neg hv]
    refine ⟨List.pairwise_cons.mpr ⟨fun c hc => h c hc, hm.1⟩, fun c hc => ?_⟩
    rcases List.mem_cons.mp hc with rfl | hc
    · exact hv
    · exact hm.2 c hc

/-- A write keeps the canonical form. -/
theorem Memory.write_wf : ∀ (m : Memory) (x : Nat) (v : Byte), Memory.wf m →
    Memory.wf (Memory.write m x v)
  | [], x, v, _ => by
    simpa [Memory.write] using Memory.wf_cell_append (x := x) (v := v) Memory.wf_nil (by simp)
  | (a, b) :: rest, x, v, h => by
    have hp := List.pairwise_cons.mp h.1
    unfold Memory.write
    by_cases h1 : x < a
    · rw [if_pos h1]
      refine Memory.wf_cell_append h fun c hc => ?_
      rcases List.mem_cons.mp hc with rfl | hc
      · exact h1
      · exact Nat.lt_trans h1 (hp.1 c hc)
    · rw [if_neg h1]
      by_cases h2 : x = a
      · subst h2
        rw [if_pos rfl]
        exact Memory.wf_cell_append (Memory.wf_tail h) hp.1
      · rw [if_neg h2]
        have ih := Memory.write_wf rest x v (Memory.wf_tail h)
        refine ⟨List.pairwise_cons.mpr ⟨fun c hc => ?_, ih.1⟩, fun c hc => ?_⟩
        · rcases Memory.mem_write hc with ⟨rfl, -⟩ | hc
          · show a < x
            omega
          · exact hp.1 c hc
        · rcases List.mem_cons.mp hc with rfl | hc
          · exact h.2 _ (by simp)
          · exact ih.2 c hc

/-- Canonical spaces that read the same at every address are equal data. -/
theorem Memory.ext_read : ∀ (m n : Memory), Memory.wf m → Memory.wf n →
    (∀ x, Memory.read m x = Memory.read n x) → m = n
  | [], [], _, _, _ => rfl
  | [], (a, b) :: rest, _, hn, h => by
    have := h a
    simp only [Memory.read, if_true] at this
    exact absurd this.symm (hn.2 (a, b) (by simp))
  | (a, b) :: rest, [], hm, _, h => by
    have := h a
    simp only [Memory.read, if_true] at this
    exact absurd this (hm.2 (a, b) (by simp))
  | (a, b) :: m, (c, d) :: n, hm, hn, h => by
    have pm := List.pairwise_cons.mp hm.1
    have pn := List.pairwise_cons.mp hn.1
    have hac : a = c := by
      rcases Nat.lt_trichotomy a c with hlt | heq | hgt
      · have := h a
        rw [Memory.read, if_pos rfl, Memory.read_below ((c, d) :: n) a] at this
        · exact absurd this (hm.2 (a, b) (by simp))
        · intro e he
          rcases List.mem_cons.mp he with rfl | he
          · exact hlt
          · exact Nat.lt_trans hlt (pn.1 e he)
      · exact heq
      · have := h c
        rw [Memory.read_below ((a, b) :: m) c, Memory.read, if_pos rfl] at this
        · exact absurd this.symm (hn.2 (c, d) (by simp))
        · intro e he
          rcases List.mem_cons.mp he with rfl | he
          · exact hgt
          · exact Nat.lt_trans hgt (pm.1 e he)
    subst hac
    have hbd : b = d := by simpa [Memory.read] using h a
    have hrest : m = n := by
      refine Memory.ext_read m n (Memory.wf_tail hm) (Memory.wf_tail hn) fun x => ?_
      by_cases hx : x = a
      · subst hx
        rw [Memory.read_below m x pm.1, Memory.read_below n x pn.1]
      · simpa [Memory.read, hx] using h x
    rw [hbd, hrest]

/-- Writing several bytes keeps the canonical form. -/
theorem Memory.writeBytes_wf : ∀ (bytes : List Byte) (m : Memory) (x : Nat), Memory.wf m →
    Memory.wf (Memory.writeBytes m x bytes)
  | [], _, _, h => h
  | b :: rest, m, x, h => Memory.writeBytes_wf rest _ _ (Memory.write_wf m x b h)

/-- Reads after writing several bytes: the bytes in their range, what was there before outside it. -/
theorem Memory.read_writeBytes : ∀ (bytes : List Byte) (m : Memory) (x y : Nat), Memory.wf m →
    Memory.read (Memory.writeBytes m x bytes) y =
      if x ≤ y ∧ y < x + bytes.length then bytes.getD (y - x) 0 else Memory.read m y
  | [], m, x, y, _ => by
    have : ¬ (x ≤ y ∧ y < x + ([] : List Byte).length) := by simp
    rw [if_neg this, Memory.writeBytes]
  | b :: rest, m, x, y, h => by
    rw [Memory.writeBytes, Memory.read_writeBytes rest _ _ _ (Memory.write_wf m x b h),
      Memory.read_write m x y b h]
    by_cases h1 : x + 1 ≤ y ∧ y < x + 1 + rest.length
    · rw [if_pos h1, if_pos (by simp; omega)]
      obtain ⟨k, hk⟩ : ∃ k, y - x = k + 1 := ⟨y - x - 1, by omega⟩
      have hk' : y - (x + 1) = k := by omega
      simp [hk, hk']
    · rw [if_neg h1]
      by_cases h2 : y = x
      · subst h2; simp
      · rw [if_neg h2, if_neg (by simp; omega)]

theorem Memory.readBytes_length (m : Memory) (x n : Nat) : (Memory.readBytes m x n).length = n := by
  simp [Memory.readBytes]

/-- The bytes written from an address on are read back. -/
theorem Memory.readBytes_writeBytes (m : Memory) (x : Nat) (bytes : List Byte) (h : Memory.wf m) :
    Memory.readBytes (Memory.writeBytes m x bytes) x bytes.length = bytes := by
  apply List.ext_getElem
  · simp [Memory.readBytes]
  · intro i h1 h2
    have hi : i < bytes.length := h2
    simp [Memory.readBytes, Memory.read_writeBytes bytes m x (x + i) h, hi]

end Sys2Proof.Machine
end

