-- ==== Sys2Proof/Laws/State.lean ====
section
/-! SUPPORT. What each shared operation does to each field of the state: one clause per field, true by
definition, and a simp rule each, so that no later proof unfolds a record update. -/

namespace Sys2Proof.Machine

variable (s : State)

@[simp] theorem lineTx_answer (bytes : List Byte) (flush : Bool) :
    (lineTx bytes flush s).1 = lineAnswer bytes.length s := rfl

@[simp] theorem busWrite_answer (addr : Nat) (bytes : List Byte) :
    (busWrite addr bytes s).1 = writeAnswer s := rfl

@[simp] theorem busRead_answer (addr n : Nat) : (busRead addr n s).1 = readAnswer n s := rfl

@[simp] theorem alloc_answer (n : Nat) : (alloc n s).1 = allocAnswer s := rfl

@[simp] theorem call_fields (c : EnvCall) :
    (s.call c).cfg = s.cfg ∧
    (s.call c).buf = s.buf ∧
    (s.call c).fill = s.fill ∧
    (s.call c).drain = s.drain ∧
    (s.call c).overruns = s.overruns ∧
    (s.call c).rxArmed = s.rxArmed ∧
    (s.call c).sInit = s.sInit ∧
    (s.call c).iInit = s.iInit ∧
    (s.call c).phase = s.phase ∧
    (s.call c).attempt = s.attempt ∧
    (s.call c).scratch = s.scratch ∧
    (s.call c).tick = s.tick ∧
    (s.call c).rxbuf = s.rxbuf ∧
    (s.call c).consumer = s.consumer ∧
    (s.call c).presenter = s.presenter ∧
    (s.call c).results = s.results ∧
    (s.call c).trace = s.trace ++ [c] ∧
    (s.call c).inputs = s.inputs ∧
    (s.call c).answers = s.answers ∧
    (s.call c).freeIdx = s.freeIdx :=
  ⟨rfl, rfl, rfl, rfl, rfl, rfl, rfl, rfl, rfl, rfl, rfl, rfl, rfl, rfl, rfl, rfl, rfl, rfl, rfl, rfl⟩

@[simp] theorem ret_fields (r : Role) (res : Result) :
    (s.ret r res).cfg = s.cfg ∧
    (s.ret r res).buf = s.buf ∧
    (s.ret r res).fill = s.fill ∧
    (s.ret r res).drain = s.drain ∧
    (s.ret r res).overruns = s.overruns ∧
    (s.ret r res).rxArmed = s.rxArmed ∧
    (s.ret r res).sInit = s.sInit ∧
    (s.ret r res).iInit = s.iInit ∧
    (s.ret r res).phase = s.phase ∧
    (s.ret r res).attempt = s.attempt ∧
    (s.ret r res).scratch = s.scratch ∧
    (s.ret r res).tick = s.tick ∧
    (s.ret r res).rxbuf = s.rxbuf ∧
    (s.ret r res).consumer = s.consumer ∧
    (s.ret r res).presenter = s.presenter ∧
    (s.ret r res).results = s.results ++ [{ role := r, result := res }] ∧
    (s.ret r res).trace = s.trace ∧
    (s.ret r res).inputs = s.inputs ∧
    (s.ret r res).answers = s.answers ∧
    (s.ret r res).freeIdx = s.freeIdx :=
  ⟨rfl, rfl, rfl, rfl, rfl, rfl, rfl, rfl, rfl, rfl, rfl, rfl, rfl, rfl, rfl, rfl, rfl, rfl, rfl, rfl⟩

@[simp] theorem endTx_fields (res : Result) :
    (s.endTx res).cfg = s.cfg ∧
    (s.endTx res).buf = s.buf ∧
    (s.endTx res).fill = s.fill ∧
    (s.endTx res).drain = s.drain ∧
    (s.endTx res).overruns = s.overruns ∧
    (s.endTx res).rxArmed = s.rxArmed ∧
    (s.endTx res).sInit = s.sInit ∧
    (s.endTx res).iInit = s.iInit ∧
    (s.endTx res).phase = .idle ∧
    (s.endTx res).attempt = s.attempt ∧
    (s.endTx res).scratch = s.scratch ∧
    (s.endTx res).tick = s.tick ∧
    (s.endTx res).rxbuf = s.rxbuf ∧
    (s.endTx res).consumer = .ready ∧
    (s.endTx res).presenter = s.presenter ∧
    (s.endTx res).results = s.results ++ [{ role := .consumer, result := res }] ∧
    (s.endTx res).trace = s.trace ∧
    (s.endTx res).inputs = s.inputs ∧
    (s.endTx res).answers = s.answers ∧
    (s.endTx res).freeIdx = s.freeIdx :=
  ⟨rfl, rfl, rfl, rfl, rfl, rfl, rfl, rfl, rfl, rfl, rfl, rfl, rfl, rfl, rfl, rfl, rfl, rfl, rfl, rfl⟩

@[simp] theorem endRx_fields (res : Result) :
    (s.endRx res).cfg = s.cfg ∧
    (s.endRx res).buf = s.buf ∧
    (s.endRx res).fill = s.fill ∧
    (s.endRx res).drain = s.drain ∧
    (s.endRx res).overruns = s.overruns ∧
    (s.endRx res).rxArmed = s.rxArmed ∧
    (s.endRx res).sInit = s.sInit ∧
    (s.endRx res).iInit = s.iInit ∧
    (s.endRx res).phase = .idle ∧
    (s.endRx res).attempt = 0 ∧
    (s.endRx res).scratch = s.scratch ∧
    (s.endRx res).tick = s.tick ∧
    (s.endRx res).rxbuf = s.rxbuf ∧
    (s.endRx res).consumer = .ready ∧
    (s.endRx res).presenter = s.presenter ∧
    (s.endRx res).results = s.results ++ [{ role := .consumer, result := res }] ∧
    (s.endRx res).trace = s.trace ∧
    (s.endRx res).inputs = s.inputs ∧
    (s.endRx res).answers = s.answers ∧
    (s.endRx res).freeIdx = s.freeIdx :=
  ⟨rfl, rfl, rfl, rfl, rfl, rfl, rfl, rfl, rfl, rfl, rfl, rfl, rfl, rfl, rfl, rfl, rfl, rfl, rfl, rfl⟩

@[simp] theorem lineArmRx_fields :
    s.lineArmRx.cfg = s.cfg ∧
    s.lineArmRx.buf = s.buf ∧
    s.lineArmRx.fill = s.fill ∧
    s.lineArmRx.drain = s.drain ∧
    s.lineArmRx.overruns = s.overruns ∧
    s.lineArmRx.rxArmed = true ∧
    s.lineArmRx.sInit = s.sInit ∧
    s.lineArmRx.iInit = s.iInit ∧
    s.lineArmRx.phase = s.phase ∧
    s.lineArmRx.attempt = s.attempt ∧
    s.lineArmRx.scratch = s.scratch ∧
    s.lineArmRx.tick = s.tick ∧
    s.lineArmRx.rxbuf = s.rxbuf ∧
    s.lineArmRx.consumer = s.consumer ∧
    s.lineArmRx.presenter = s.presenter ∧
    s.lineArmRx.results = s.results ∧
    s.lineArmRx.trace = s.trace ++ [.lineArmRx] ∧
    s.lineArmRx.inputs = s.inputs ∧
    s.lineArmRx.answers = s.answers ∧
    s.lineArmRx.freeIdx = s.freeIdx :=
  ⟨rfl, rfl, rfl, rfl, rfl, rfl, rfl, rfl, rfl, rfl, rfl, rfl, rfl, rfl, rfl, rfl, rfl, rfl, rfl, rfl⟩

@[simp] theorem lineTx_fields (bytes : List Byte) (flush : Bool) :
    (lineTx bytes flush s).2.cfg = s.cfg ∧
    (lineTx bytes flush s).2.buf = s.buf ∧
    (lineTx bytes flush s).2.fill = s.fill ∧
    (lineTx bytes flush s).2.drain = s.drain ∧
    (lineTx bytes flush s).2.overruns = s.overruns ∧
    (lineTx bytes flush s).2.rxArmed = s.rxArmed ∧
    (lineTx bytes flush s).2.sInit = s.sInit ∧
    (lineTx bytes flush s).2.iInit = s.iInit ∧
    (lineTx bytes flush s).2.phase = s.phase ∧
    (lineTx bytes flush s).2.attempt = s.attempt ∧
    (lineTx bytes flush s).2.scratch = s.scratch ∧
    (lineTx bytes flush s).2.tick = s.tick ∧
    (lineTx bytes flush s).2.rxbuf = s.rxbuf ∧
    (lineTx bytes flush s).2.consumer = s.consumer ∧
    (lineTx bytes flush s).2.presenter = s.presenter ∧
    (lineTx bytes flush s).2.results = s.results ∧
    (lineTx bytes flush s).2.trace = s.trace ++ [.lineTx bytes flush s.cfg.serialTxMs (lineAnswer bytes.length s)] ∧
    (lineTx bytes flush s).2.inputs = s.inputs ∧
    (lineTx bytes flush s).2.answers = { s.answers with line := s.answers.line.tail } ∧
    (lineTx bytes flush s).2.freeIdx = s.freeIdx + 1 :=
  ⟨rfl, rfl, rfl, rfl, rfl, rfl, rfl, rfl, rfl, rfl, rfl, rfl, rfl, rfl, rfl, rfl, rfl, rfl, rfl, rfl⟩

@[simp] theorem busWrite_fields (addr : Nat) (bytes : List Byte) :
    (busWrite addr bytes s).2.cfg = s.cfg ∧
    (busWrite addr bytes s).2.buf = s.buf ∧
    (busWrite addr bytes s).2.fill = s.fill ∧
    (busWrite addr bytes s).2.drain = s.drain ∧
    (busWrite addr bytes s).2.overruns = s.overruns ∧
    (busWrite addr bytes s).2.rxArmed = s.rxArmed ∧
    (busWrite addr bytes s).2.sInit = s.sInit ∧
    (busWrite addr bytes s).2.iInit = s.iInit ∧
    (busWrite addr bytes s).2.phase = s.phase ∧
    (busWrite addr bytes s).2.attempt = s.attempt ∧
    (busWrite addr bytes s).2.scratch = s.scratch ∧
    (busWrite addr bytes s).2.tick = s.tick ∧
    (busWrite addr bytes s).2.rxbuf = s.rxbuf ∧
    (busWrite addr bytes s).2.consumer = s.consumer ∧
    (busWrite addr bytes s).2.presenter = s.presenter ∧
    (busWrite addr bytes s).2.results = s.results ∧
    (busWrite addr bytes s).2.trace = s.trace ++ [.busWrite addr bytes s.cfg.i2cWriteMs (writeAnswer s)] ∧
    (busWrite addr bytes s).2.inputs = s.inputs ∧
    (busWrite addr bytes s).2.answers = { s.answers with write := s.answers.write.tail } ∧
    (busWrite addr bytes s).2.freeIdx = s.freeIdx + 1 :=
  ⟨rfl, rfl, rfl, rfl, rfl, rfl, rfl, rfl, rfl, rfl, rfl, rfl, rfl, rfl, rfl, rfl, rfl, rfl, rfl, rfl⟩

@[simp] theorem busRead_fields (addr n : Nat) :
    (busRead addr n s).2.cfg = s.cfg ∧
    (busRead addr n s).2.buf = s.buf ∧
    (busRead addr n s).2.fill = s.fill ∧
    (busRead addr n s).2.drain = s.drain ∧
    (busRead addr n s).2.overruns = s.overruns ∧
    (busRead addr n s).2.rxArmed = s.rxArmed ∧
    (busRead addr n s).2.sInit = s.sInit ∧
    (busRead addr n s).2.iInit = s.iInit ∧
    (busRead addr n s).2.phase = s.phase ∧
    (busRead addr n s).2.attempt = s.attempt ∧
    (busRead addr n s).2.scratch = s.scratch ∧
    (busRead addr n s).2.tick = s.tick ∧
    (busRead addr n s).2.rxbuf = s.rxbuf ∧
    (busRead addr n s).2.consumer = s.consumer ∧
    (busRead addr n s).2.presenter = s.presenter ∧
    (busRead addr n s).2.results = s.results ∧
    (busRead addr n s).2.trace = s.trace ++ [.busRead addr n s.cfg.i2cReadMs (readAnswer n s)] ∧
    (busRead addr n s).2.inputs = s.inputs ∧
    (busRead addr n s).2.answers = { s.answers with read := s.answers.read.tail } ∧
    (busRead addr n s).2.freeIdx = s.freeIdx + 1 :=
  ⟨rfl, rfl, rfl, rfl, rfl, rfl, rfl, rfl, rfl, rfl, rfl, rfl, rfl, rfl, rfl, rfl, rfl, rfl, rfl, rfl⟩

@[simp] theorem alloc_fields (n : Nat) :
    (alloc n s).2.cfg = s.cfg ∧
    (alloc n s).2.buf = s.buf ∧
    (alloc n s).2.fill = s.fill ∧
    (alloc n s).2.drain = s.drain ∧
    (alloc n s).2.overruns = s.overruns ∧
    (alloc n s).2.rxArmed = s.rxArmed ∧
    (alloc n s).2.sInit = s.sInit ∧
    (alloc n s).2.iInit = s.iInit ∧
    (alloc n s).2.phase = s.phase ∧
    (alloc n s).2.attempt = s.attempt ∧
    (alloc n s).2.scratch = (if allocAnswer s then some { size := n, cells := [] } else none) ∧
    (alloc n s).2.tick = s.tick ∧
    (alloc n s).2.rxbuf = s.rxbuf ∧
    (alloc n s).2.consumer = s.consumer ∧
    (alloc n s).2.presenter = s.presenter ∧
    (alloc n s).2.results = s.results ∧
    (alloc n s).2.trace = s.trace ++ [.alloc n (allocAnswer s)] ∧
    (alloc n s).2.inputs = s.inputs ∧
    (alloc n s).2.answers = { s.answers with alloc := s.answers.alloc.tail } ∧
    (alloc n s).2.freeIdx = s.freeIdx + 1 :=
  ⟨rfl, rfl, rfl, rfl, rfl, rfl, rfl, rfl, rfl, rfl, rfl, rfl, rfl, rfl, rfl, rfl, rfl, rfl, rfl, rfl⟩

@[simp] theorem freeScratch_fields :
    s.freeScratch.cfg = s.cfg ∧
    s.freeScratch.buf = s.buf ∧
    s.freeScratch.fill = s.fill ∧
    s.freeScratch.drain = s.drain ∧
    s.freeScratch.overruns = s.overruns ∧
    s.freeScratch.rxArmed = s.rxArmed ∧
    s.freeScratch.sInit = s.sInit ∧
    s.freeScratch.iInit = s.iInit ∧
    s.freeScratch.phase = s.phase ∧
    s.freeScratch.attempt = s.attempt ∧
    s.freeScratch.scratch = none ∧
    s.freeScratch.tick = s.tick ∧
    s.freeScratch.rxbuf = s.rxbuf ∧
    s.freeScratch.consumer = s.consumer ∧
    s.freeScratch.presenter = s.presenter ∧
    s.freeScratch.results = s.results ∧
    s.freeScratch.trace = s.trace ++ [.free] ∧
    s.freeScratch.inputs = s.inputs ∧
    s.freeScratch.answers = s.answers ∧
    s.freeScratch.freeIdx = s.freeIdx :=
  ⟨rfl, rfl, rfl, rfl, rfl, rfl, rfl, rfl, rfl, rfl, rfl, rfl, rfl, rfl, rfl, rfl, rfl, rfl, rfl, rfl⟩

@[simp] theorem scratchStore_fields (bytes : List Byte) :
    (s.scratchStore bytes).cfg = s.cfg ∧
    (s.scratchStore bytes).buf = s.buf ∧
    (s.scratchStore bytes).fill = s.fill ∧
    (s.scratchStore bytes).drain = s.drain ∧
    (s.scratchStore bytes).overruns = s.overruns ∧
    (s.scratchStore bytes).rxArmed = s.rxArmed ∧
    (s.scratchStore bytes).sInit = s.sInit ∧
    (s.scratchStore bytes).iInit = s.iInit ∧
    (s.scratchStore bytes).phase = s.phase ∧
    (s.scratchStore bytes).attempt = s.attempt ∧
    (s.scratchStore bytes).scratch = (s.scratch.map fun r => { r with cells := Memory.writeBytes r.cells 0 bytes }) ∧
    (s.scratchStore bytes).tick = s.tick ∧
    (s.scratchStore bytes).rxbuf = s.rxbuf ∧
    (s.scratchStore bytes).consumer = s.consumer ∧
    (s.scratchStore bytes).presenter = s.presenter ∧
    (s.scratchStore bytes).results = s.results ∧
    (s.scratchStore bytes).trace = s.trace ∧
    (s.scratchStore bytes).inputs = s.inputs ∧
    (s.scratchStore bytes).answers = s.answers ∧
    (s.scratchStore bytes).freeIdx = s.freeIdx :=
  ⟨rfl, rfl, rfl, rfl, rfl, rfl, rfl, rfl, rfl, rfl, rfl, rfl, rfl, rfl, rfl, rfl, rfl, rfl, rfl, rfl⟩

@[simp] theorem evictOldest_fields :
    (evictOldest s).cfg = s.cfg ∧
    (evictOldest s).buf = s.buf ∧
    (evictOldest s).fill = s.fill ∧
    (evictOldest s).drain = idxNext s.cfg s.drain ∧
    (evictOldest s).overruns = satInc s.cfg s.overruns ∧
    (evictOldest s).rxArmed = s.rxArmed ∧
    (evictOldest s).sInit = s.sInit ∧
    (evictOldest s).iInit = s.iInit ∧
    (evictOldest s).phase = s.phase ∧
    (evictOldest s).attempt = s.attempt ∧
    (evictOldest s).scratch = s.scratch ∧
    (evictOldest s).tick = s.tick ∧
    (evictOldest s).rxbuf = s.rxbuf ∧
    (evictOldest s).consumer = s.consumer ∧
    (evictOldest s).presenter = s.presenter ∧
    (evictOldest s).results = s.results ∧
    (evictOldest s).trace = s.trace ∧
    (evictOldest s).inputs = s.inputs ∧
    (evictOldest s).answers = s.answers ∧
    (evictOldest s).freeIdx = s.freeIdx :=
  ⟨rfl, rfl, rfl, rfl, rfl, rfl, rfl, rfl, rfl, rfl, rfl, rfl, rfl, rfl, rfl, rfl, rfl, rfl, rfl, rfl⟩

@[simp] theorem tickStep_fields :
    (tickStep s).cfg = s.cfg ∧
    (tickStep s).buf = s.buf ∧
    (tickStep s).fill = s.fill ∧
    (tickStep s).drain = s.drain ∧
    (tickStep s).overruns = s.overruns ∧
    (tickStep s).rxArmed = s.rxArmed ∧
    (tickStep s).sInit = s.sInit ∧
    (tickStep s).iInit = s.iInit ∧
    (tickStep s).phase = s.phase ∧
    (tickStep s).attempt = s.attempt ∧
    (tickStep s).scratch = s.scratch ∧
    (tickStep s).tick = tickNext s.cfg s.tick ∧
    (tickStep s).rxbuf = s.rxbuf ∧
    (tickStep s).consumer = s.consumer ∧
    (tickStep s).presenter = s.presenter ∧
    (tickStep s).results = s.results ∧
    (tickStep s).trace = s.trace ∧
    (tickStep s).inputs = s.inputs ∧
    (tickStep s).answers = s.answers ∧
    (tickStep s).freeIdx = s.freeIdx :=
  ⟨rfl, rfl, rfl, rfl, rfl, rfl, rfl, rfl, rfl, rfl, rfl, rfl, rfl, rfl, rfl, rfl, rfl, rfl, rfl, rfl⟩

end Sys2Proof.Machine
end

