-- ==== Sys2Proof/Laws/Ops.lean ====
section
/-! SUPPORT. What each shared operation can do, said once: presenting an operation, reading an operand,
the scratch region, and the parts of the serial and I2C operations. -/

namespace Sys2Proof.Machine

/-! ## Presenting an operation -/

/-- Everything that an admitted presentation says about the state (R10, R184, R201, R139). -/
theorem whyRefused_eq_none {b : Block} {r : Role} {n : Bool} {s : State} :
    whyRefused b r n s = none ↔
      s.cfg.has b = true ∧ s.presenter.isSecond = false ∧ s.presenter.role = r ∧
      (b = .i2c → s.phase = .idle) ∧ (r = .consumer → s.consumer = .ready) ∧
      (n = true → s.blockReset b = true) := by
  unfold whyRefused
  constructor
  · intro h
    split at h <;> try cases h
    split at h <;> try cases h
    split at h <;> try cases h
    split at h <;> try cases h
    split at h <;> try cases h
    split at h <;> try cases h
    next h1 h2 h3 h4 h5 h6 =>
    refine ⟨by simpa using h1, by simpa using h2, by simpa using h3, ?_, ?_, ?_⟩
    · intro hb; by_contra hp; exact h4 ⟨hb, hp⟩
    · intro hr; by_contra hp; exact h5 ⟨hr, hp⟩
    · intro hn; by_contra hp; exact h6 ⟨hn, by simpa using hp⟩
  · rintro ⟨h1, h2, h3, h4, h5, h6⟩
    rw [if_neg (by simp [h1]), if_neg (by simp [h2]), if_neg (by simp [h3]),
      if_neg (by rintro ⟨hb, hp⟩; exact hp (h4 hb)),
      if_neg (by rintro ⟨hr, hp⟩; exact hp (h5 hr)),
      if_neg (by rintro ⟨hn, hp⟩; rw [h6 hn] at hp; cases hp)]

theorem guarded_of_none {b : Block} {r : Role} {n : Bool} {s : State} {run : State → Answer}
    (h : whyRefused b r n s = none) : guarded b r n s run = run s := by
  unfold guarded; rw [h]

/-- A guarded operation that answers a next state was admitted and ran. -/
theorem guarded_next {b : Block} {r : Role} {n : Bool} {s t : State} {run : State → Answer}
    (h : guarded b r n s run = .next t) : whyRefused b r n s = none ∧ run s = .next t := by
  unfold guarded at h
  cases ha : whyRefused b r n s with
  | none => rw [ha] at h; exact ⟨rfl, h⟩
  | some why => rw [ha] at h; cases h

/-- A guarded operation that is not admitted is refused. -/
theorem guarded_refused {b : Block} {r : Role} {n : Bool} {s : State} {run : State → Answer}
    (h : whyRefused b r n s ≠ none) : ∃ why, guarded b r n s run = .refused why := by
  unfold guarded
  cases ha : whyRefused b r n s with
  | none => exact absurd ha h
  | some why => exact ⟨why, rfl⟩

/-! ## Operands -/

@[simp] theorem takeBytes_length (n k : Nat) (bytes : List Byte) : (takeBytes n k bytes).length = n := by
  simp [takeBytes]

/-- A sequence of the stated length is read as it is. -/
theorem takeBytes_eq (n k : Nat) (bytes : List Byte) (h : bytes.length = n) :
    takeBytes n k bytes = bytes := by
  apply List.ext_getElem
  · simp [h]
  · intro i h1 h2
    simp [takeBytes, h2]

theorem takeBytes_getElem? (n k i : Nat) (bytes : List Byte) (hn : i < n) (hi : i < bytes.length) :
    (takeBytes n k bytes)[i]? = bytes[i]? := by
  simp [takeBytes, hn, hi]

/-! ## The scratch region -/

/-- The bytes stored into a fresh region of their size are its bytes. -/
theorem scratchBytes_store {s : State} {r : Scratch} {bytes : List Byte} (h : s.scratch = some r)
    (hs : r.size = bytes.length) (hw : Memory.wf r.cells) :
    (s.scratchStore bytes).scratchBytes = bytes := by
  simp [State.scratchBytes, h, Scratch.bytes, hs, Memory.readBytes_writeBytes _ _ _ hw]

theorem scratchBytes_length {s : State} {r : Scratch} (h : s.scratch = some r) :
    s.scratchBytes.length = r.size := by
  simp [State.scratchBytes, h, Scratch.bytes, Memory.readBytes]

end Sys2Proof.Machine
end

