-- ==== Sys2Proof/Laws/Exec.lean ====
section
/-! SUPPORT. What `exec` of each operation is: which block and role it is for, whether it needs the block's
first reset (spec/30_encoding.md R78, spec/70_reset_and_hazards.md R201), and what then runs. -/

namespace Sys2Proof.Machine

variable (s : State)

theorem exec_sReset :
    exec .sReset s = guarded .serial .consumer false s fun s => .next (serialReset s) := rfl

theorem exec_sPush (data : Byte) :
    exec (.sPush data) s = guarded .serial .producer true s fun s =>
      if s.rxArmed = false then .next s
      else if s.fill < s.cfg.c then .next (pushByte data s)
      else .fault (.bufAddress s.fill) := rfl

theorem exec_sAvail :
    exec .sAvail s = guarded .serial .consumer true s fun s =>
      .next (s.ret .consumer { code := .ok, rflag := some (avail s) }) := rfl

theorem exec_sPop : exec .sPop s = guarded .serial .consumer true s fun s => popOrHold s := rfl

theorem exec_sTx (flush : Bool) (lenN : Nat) (txbuf : List Byte) :
    exec (.sTx flush lenN txbuf) s = guarded .serial .consumer true s fun s =>
      .next (serialTransmit flush lenN txbuf s) := rfl

theorem exec_sOvr :
    exec .sOvr s = guarded .serial .consumer true s fun s =>
      .next (s.ret .consumer { code := .ok, rcount := some s.overruns }) := rfl

theorem exec_iReset :
    exec .iReset s = guarded .i2c .consumer false s fun s => .next (i2cReset s) := rfl

theorem exec_iTx (flush : Bool) (addr : Nat) (len8 : Byte) (txbuf : List Byte) :
    exec (.iTx flush addr len8 txbuf) s = guarded .i2c .consumer true s fun s =>
      .next (i2cTransmit flush addr len8 txbuf s) := rfl

theorem exec_iRx (addr : Nat) (len8 : Byte) :
    exec (.iRx addr len8) s = guarded .i2c .consumer true s fun s =>
      .next (i2cReceive addr len8 s) := rfl

theorem exec_tNow :
    exec .tNow s = guarded .timing .consumer false s fun s =>
      .next (s.ret .consumer { code := .ok, rtick := some s.tick }) := rfl

theorem exec_tSleep (dur : Nat) :
    exec (.tSleep dur) s = guarded .timing .consumer false s fun s =>
      .next { s with consumer := .sleeping s.tick dur } := rfl

/-- The reserved op codes are refused in every state (R79). -/
theorem exec_reserved :
    exec .reserved6 s = .refused (.reservedOp 0x6) ∧ exec .reserved7 s = .refused (.reservedOp 0x7) ∧
    exec .reservedB s = .refused (.reservedOp 0xB) ∧ exec .reservedE s = .refused (.reservedOp 0xE) ∧
    exec .reservedF s = .refused (.reservedOp 0xF) := ⟨rfl, rfl, rfl, rfl, rfl⟩

/-- A write frame runs exactly inside an I_TX in `TX_WRITE` whose scratch region holds it. -/
theorem exec_frameWrite_next {s t : State} {length : Byte} {payload : List Byte} :
    exec (.frameWrite length payload) s = .next t ↔
      ∃ flush addr len8 txbuf, s.consumer = .inI2c (.tx flush addr len8 txbuf) ∧ s.phase = .txWrite ∧
        s.scratchBytes = writeFrame length payload ∧ t = txWrite addr s := by
  simp only [exec, execFrameWrite]
  constructor
  · intro h
    split at h
    · split at h
      · next h1 => cases h; exact ⟨_, _, _, _, ‹_›, h1.1, h1.2, rfl⟩
      · cases h
    · cases h
  · rintro ⟨f, a, l, x, h1, h2, h3, rfl⟩
    simp [h1, h2, h3]

/-- A read request runs exactly inside an I_RX of its length in `RX_REQUEST`. -/
theorem exec_frameReadRequest_next {s t : State} {length : Byte} :
    exec (.frameReadRequest length) s = .next t ↔
      ∃ addr, s.consumer = .inI2c (.rx addr length) ∧ s.phase = .rxRequest ∧
        t = rxRequestArrow addr length s := by
  simp only [exec, execFrameReadRequest]
  constructor
  · intro h
    split at h
    · split at h
      · next h1 => obtain ⟨h1, rfl⟩ := h1; cases h; exact ⟨_, ‹_›, h1, rfl⟩
      · cases h
    · cases h
  · rintro ⟨a, h1, h2, rfl⟩
    simp [h1, h2]

/-- A read response runs exactly inside an I_RX in `RX_READ` that asked for its size. -/
theorem exec_frameReadResponse_next {s t : State} {available echoed : Byte} {payload : List Byte} :
    exec (.frameReadResponse available echoed payload) s = .next t ↔
      ∃ addr len8, s.consumer = .inI2c (.rx addr len8) ∧ s.phase = .rxRead ∧
        payload.length = len8.toNat ∧ s.scratch.isSome = true ∧
        t = rxValidate len8 (rxStore (available :: echoed :: payload)
          (s.call (.busRead addr (responseSize len8) s.cfg.i2cReadMs
            (some (available :: echoed :: payload))))) := by
  simp only [exec, execFrameReadResponse]
  constructor
  · intro h
    split at h
    · split at h
      · next h1 => cases h; exact ⟨_, _, ‹_›, h1.1, h1.2.1, h1.2.2, rfl⟩
      · cases h
    · cases h
  · rintro ⟨a, l, h1, h2, h3, h4, rfl⟩
    simp [h1, h2, h3, h4]

end Sys2Proof.Machine
end

