-- ==== Sys2Proof/Laws/I2c.lean ====
section
/-! SUPPORT. What the parts of I_TX and I_RX do, said once: the answers a script gives, the request phase
up to its first success or through all its attempts, and the read phase (spec/41_i2c_framing.md R131 to
R136). -/

namespace Sys2Proof.Machine

/-! ## The answers a script gives -/

theorem writeAnswer_script {s : State} {w : Bool} {ws : List Bool} (h : s.answers.write = w :: ws) :
    writeAnswer s = w := by simp [writeAnswer, h]

theorem allocAnswer_script {s : State} {a : Bool} {as : List Bool} (h : s.answers.alloc = a :: as) :
    allocAnswer s = a := by simp [allocAnswer, h]

theorem readAnswer_fail {s : State} {n : Nat} {rs : List (Option (List Byte))}
    (h : s.answers.read = none :: rs) : readAnswer n s = none := by simp [readAnswer, h]

theorem readAnswer_ok {s : State} {n : Nat} {bytes : List Byte} {rs : List (Option (List Byte))}
    (h : s.answers.read = some bytes :: rs) (hn : bytes.length = n) :
    readAnswer n s = some bytes := by simp [readAnswer, h, takeBytes_eq _ _ _ hn]

/-- A read that is answered ok delivers as many bytes as were asked for (R133). -/
theorem readAnswer_length {s : State} {n : Nat} {bytes : List Byte}
    (h : readAnswer n s = some bytes) : bytes.length = n := by
  unfold readAnswer at h
  split at h
  · cases h; simp
  · cases h
  · split at h <;> cases h
    simp

/-! ## The request phase -/

/-- The state after `k` request writes that failed (R132 step 1). -/
def afterFailures (addr : Nat) (len8 : Byte) (k : Nat) (ws : List Bool) (s : State) : State :=
  { s with
    attempt := s.attempt + k
    answers := { s.answers with write := ws }
    freeIdx := s.freeIdx + k
    trace := s.trace ++ List.replicate k (.busWrite addr (requestFrame len8) s.cfg.i2cWriteMs false) }

/-- One request write whose answer the script gives. -/
theorem requestWrite_script {s : State} {addr : Nat} {len8 : Byte} {w : Bool} {ws : List Bool}
    (h : s.answers.write = w :: ws) :
    requestWrite addr len8 s = (w, { s with
      attempt := s.attempt + 1
      answers := { s.answers with write := ws }
      freeIdx := s.freeIdx + 1
      trace := s.trace ++ [.busWrite addr (requestFrame len8) s.cfg.i2cWriteMs w] }) := by
  simp [requestWrite, busWrite, writeAnswer, h]

/-- The request phase when the first `k` answers are failures. -/
theorem requestPhase_failures (addr : Nat) (len8 : Byte) : ∀ (k n : Nat) (ws : List Bool) (s : State),
    s.answers.write = List.replicate k false ++ ws →
    requestPhase addr len8 (n + k) s = requestPhase addr len8 n (afterFailures addr len8 k ws s)
  | 0, n, ws, s, h => by
    have e : { s.answers with write := ws } = s.answers := by
      rw [← (show s.answers.write = ws by simpa using h)]
    simp [afterFailures, e]
  | k + 1, n, ws, s, h => by
    have h' : s.answers.write = false :: (List.replicate k false ++ ws) := by
      simpa [List.replicate_succ] using h
    rw [show n + (k + 1) = (n + k) + 1 by omega, requestPhase, requestWrite_script h']
    simp only [Bool.false_eq_true, if_false]
    rw [requestPhase_failures addr len8 k n ws _ rfl]
    simp [afterFailures, List.replicate_succ, Nat.add_comm, Nat.add_left_comm]

/-- The request phase that fails `k` times and then succeeds within its attempts. -/
theorem requestPhase_succeeds {addr : Nat} {len8 : Byte} {k n : Nat} {ws : List Bool} {s : State}
    (hk : k < n) (h : s.answers.write = List.replicate k false ++ true :: ws) :
    requestPhase addr len8 n s = (true, { s with
      attempt := s.attempt + k + 1
      answers := { s.answers with write := ws }
      freeIdx := s.freeIdx + k + 1
      trace := s.trace ++
        List.replicate k (.busWrite addr (requestFrame len8) s.cfg.i2cWriteMs false) ++
        [.busWrite addr (requestFrame len8) s.cfg.i2cWriteMs true] }) := by
  obtain ⟨m, rfl⟩ : ∃ m, n = (m + 1) + k := ⟨n - k - 1, by omega⟩
  rw [requestPhase_failures addr len8 k (m + 1) _ s h, requestPhase, requestWrite_script rfl]
  simp [afterFailures]

/-- The request phase whose attempts all fail. -/
theorem requestPhase_fails {addr : Nat} {len8 : Byte} {n : Nat} {ws : List Bool} {s : State}
    (h : s.answers.write = List.replicate n false ++ ws) :
    requestPhase addr len8 n s = (false, afterFailures addr len8 n ws s) := by
  have := requestPhase_failures addr len8 n 0 ws s h
  simpa [requestPhase] using this

/-- Everything the request phase can do: some attempts fail, and then either one succeeds or none was
left; it touches the sequencer's count, the script, the trace and nothing else. -/
theorem requestPhase_cases (addr : Nat) (len8 : Byte) : ∀ (n : Nat) (s : State), ∃ k ws,
    k ≤ n ∧
    (requestPhase addr len8 n s = (false, afterFailures addr len8 n ws s) ∧ k = n ∨
      k < n ∧ requestPhase addr len8 n s = (true, { s with
        attempt := s.attempt + k + 1
        answers := { s.answers with write := ws }
        freeIdx := s.freeIdx + k + 1
        trace := s.trace ++
          List.replicate k (.busWrite addr (requestFrame len8) s.cfg.i2cWriteMs false) ++
          [.busWrite addr (requestFrame len8) s.cfg.i2cWriteMs true] }))
  | 0, s => ⟨0, s.answers.write, Nat.le_refl 0, .inl ⟨by simp [requestPhase, afterFailures], rfl⟩⟩
  | n + 1, s => by
    cases hw : writeAnswer s with
    | true =>
      refine ⟨0, s.answers.write.tail, by omega, .inr ⟨by omega, ?_⟩⟩
      have : (requestWrite addr len8 s).1 = true := hw
      rw [requestPhase, if_pos this]
      have e : writeAnswer { s with attempt := s.attempt + 1 } = true := hw
      simp [requestWrite, busWrite, e]
    | false =>
      have hf : (requestWrite addr len8 s).1 = false := hw
      have e : writeAnswer { s with attempt := s.attempt + 1 } = false := hw
      have hr : requestPhase addr len8 (n + 1) s = requestPhase addr len8 n (requestWrite addr len8 s).2 := by
        simp [requestPhase, hf]
      obtain ⟨k, ws, hk, h | ⟨hlt, h⟩⟩ := requestPhase_cases addr len8 n (requestWrite addr len8 s).2
      · refine ⟨n + 1, ws, by omega, .inl ⟨?_, rfl⟩⟩
        rw [hr, h.1]
        simp [afterFailures, requestWrite, busWrite, e, List.replicate_succ, Nat.add_comm,
          Nat.add_left_comm]
      · refine ⟨k + 1, ws, by omega, .inr ⟨by omega, ?_⟩⟩
        rw [hr, h]
        simp [requestWrite, busWrite, e, List.replicate_succ, Nat.add_comm, Nat.add_left_comm]

/-! ## The response -/

/-- Everything the validation can do (R136), on a scratch region that holds a response of the size asked
for: the payload is accepted when the second byte is the length asked for, and else discarded. -/
theorem rxValidate_cases {s : State} {len8 available echoed : Byte} {payload : List Byte}
    (hb : s.scratchBytes = available :: echoed :: payload) (hp : payload.length = len8.toNat) :
    rxValidate len8 s =
      if echoed = len8 then
        ({ s with rxbuf := Memory.writeBytes s.rxbuf 0 payload } : State).freeScratch.endRx
          { code := .ok, ravail := some available, rxbuf := some payload }
      else s.freeScratch.endRx { code := .errLenMismatch } := by
  have ht : payload.take len8.toNat = payload := List.take_of_length_le (by omega)
  simp only [rxValidate, hb, List.getElem?_cons_succ, List.getElem?_cons_zero, List.drop_succ_cons,
    List.drop_zero, ht, Option.some.injEq]

/-- A response of the size of its region is read back from it: its first byte, its second, its payload. -/
theorem rxValidate_stored {s : State} {r : Scratch} {len8 available echoed : Byte} {payload : List Byte}
    (hr : s.scratch = some r) (hsize : r.size = responseSize len8) (hw : Memory.wf r.cells)
    (hp : payload.length = len8.toNat) :
    rxValidate len8 (rxStore (available :: echoed :: payload) s) =
      if echoed = len8 then
        ({ (rxStore (available :: echoed :: payload) s) with
          rxbuf := Memory.writeBytes s.rxbuf 0 payload } : State).freeScratch.endRx
            { code := .ok, ravail := some available, rxbuf := some payload }
      else (rxStore (available :: echoed :: payload) s).freeScratch.endRx
        { code := .errLenMismatch } := by
  exact rxValidate_cases (scratchBytes_store hr (by simp [hsize, responseSize, hp]) hw) hp

/-! ## What I_RX can do -/

/-- The state in which the one read has been made: a region of its size was allocated, `RX_READ` entered,
the answer drawn (R132 step 3). -/
def afterRead (addr : Nat) (len8 : Byte) (s : State) : State :=
  { s with
    phase := .rxRead
    scratch := some { size := responseSize len8, cells := [] }
    answers := { s.answers with alloc := s.answers.alloc.tail, read := s.answers.read.tail }
    freeIdx := s.freeIdx + 2
    trace := s.trace ++ [.alloc (responseSize len8) true] ++
      [.busRead addr (responseSize len8) s.cfg.i2cReadMs
        (readAnswer (responseSize len8) { s with freeIdx := s.freeIdx + 1 })] }

/-- Everything the read phase can do (R132 steps 3 to 5): the allocation fails; the read fails; a response
of the size asked for is accepted when its second byte is the length asked for, and else rejected. -/
theorem rxReadPhase_cases (addr : Nat) (len8 : Byte) (s : State) :
    allocAnswer s = false ∧ rxReadPhase addr len8 s =
      ({ s with
        scratch := none
        answers := { s.answers with alloc := s.answers.alloc.tail }
        freeIdx := s.freeIdx + 1
        trace := s.trace ++ [.alloc (responseSize len8) false] } : State).endRx { code := .errAlloc } ∨
    allocAnswer s = true ∧
      (readAnswer (responseSize len8) { s with freeIdx := s.freeIdx + 1 } = none ∧
        rxReadPhase addr len8 s = (afterRead addr len8 s).freeScratch.endRx { code := .errRead } ∨
      ∃ available echoed payload, payload.length = len8.toNat ∧
        readAnswer (responseSize len8) { s with freeIdx := s.freeIdx + 1 } =
          some (available :: echoed :: payload) ∧
        (echoed = len8 ∧ rxReadPhase addr len8 s =
            ({ (rxStore (available :: echoed :: payload) (afterRead addr len8 s)) with
              rxbuf := Memory.writeBytes s.rxbuf 0 payload } : State).freeScratch.endRx
                { code := .ok, ravail := some available, rxbuf := some payload } ∨
          echoed ≠ len8 ∧ rxReadPhase addr len8 s =
            (rxStore (available :: echoed :: payload) (afterRead addr len8 s)).freeScratch.endRx
              { code := .errLenMismatch })) := by
  cases ha : allocAnswer s with
  | false =>
    have ha' : allocAnswer { s with phase := .rxAlloc } = false := ha
    exact .inl ⟨rfl, by simp [rxReadPhase, alloc, ha']; rfl⟩
  | true =>
    refine .inr ⟨rfl, ?_⟩
    have ha' : allocAnswer { s with phase := .rxAlloc } = true := ha
    have hr : rxReadPhase addr len8 s = rxAnswer len8
        (readAnswer (responseSize len8) { s with freeIdx := s.freeIdx + 1 })
        (afterRead addr len8 s) := by
      simp only [rxReadPhase, alloc, ha', if_true]; rfl
    cases hd : readAnswer (responseSize len8) { s with freeIdx := s.freeIdx + 1 } with
    | none => exact .inl ⟨rfl, by rw [hr, hd]; rfl⟩
    | some bytes =>
      have hl := readAnswer_length hd
      match bytes, hl, hd with
      | available :: echoed :: payload, hl, hd =>
        have hp : payload.length = len8.toNat := by simpa [responseSize] using hl
        refine .inr ⟨available, echoed, payload, hp, rfl, ?_⟩
        have hv := rxValidate_stored (s := afterRead addr len8 s) (available := available)
          (echoed := echoed) (r := ⟨responseSize len8, []⟩) rfl rfl Memory.wf_nil hp
        rw [hr, hd, rxAnswer, hv]
        by_cases he : echoed = len8
        · exact .inl ⟨he, by rw [if_pos he]; rfl⟩
        · exact .inr ⟨he, by rw [if_neg he]⟩

/-- Everything I_RX can do in its request phase (R132 steps 1 and 2): every attempt fails and it returns
`ERR_WRITE`, or one succeeds and the read phase follows. -/
theorem i2cReceive_cases (addr : Nat) (len8 : Byte) (s : State) : ∃ ws,
    i2cReceive addr len8 s = (afterFailures addr len8 s.cfg.i2cReqAttempts ws
      (rxBegin addr len8 s)).endRx { code := .errWrite } ∨
    ∃ k, k < s.cfg.i2cReqAttempts ∧ i2cReceive addr len8 s = rxReadPhase addr len8
      { rxBegin addr len8 s with
        attempt := k + 1
        answers := { s.answers with write := ws }
        freeIdx := s.freeIdx + k + 1
        trace := s.trace ++
          List.replicate k (.busWrite addr (requestFrame len8) s.cfg.i2cWriteMs false) ++
          [.busWrite addr (requestFrame len8) s.cfg.i2cWriteMs true] } := by
  obtain ⟨k, ws, -, ⟨h, -⟩ | ⟨hk, h⟩⟩ :=
    requestPhase_cases addr len8 s.cfg.i2cReqAttempts (rxBegin addr len8 s)
  · exact ⟨ws, .inl (by simp [i2cReceive, h])⟩
  · refine ⟨ws, .inr ⟨k, hk, ?_⟩⟩
    simp only [i2cReceive, h, if_true]
    simp [rxBegin]

/-! ## What the I2C engine leaves alone -/

/-- Two states agree on everything outside the I2C engine, its caller's buffer and the outside's parts:
the serial FIFO block, the timing source, the configuration, the bookkeeping bits, what drives the machine
(R7, R30, R135). -/
structure SameOutsideEngine (s t : State) : Prop where
  cfg : t.cfg = s.cfg
  buf : t.buf = s.buf
  fill : t.fill = s.fill
  drain : t.drain = s.drain
  overruns : t.overruns = s.overruns
  rxArmed : t.rxArmed = s.rxArmed
  sInit : t.sInit = s.sInit
  iInit : t.iInit = s.iInit
  tick : t.tick = s.tick
  presenter : t.presenter = s.presenter
  inputs : t.inputs = s.inputs

theorem SameOutsideEngine.refl (s : State) : SameOutsideEngine s s :=
  ⟨rfl, rfl, rfl, rfl, rfl, rfl, rfl, rfl, rfl, rfl, rfl⟩

theorem SameOutsideEngine.trans {s t u : State} (h : SameOutsideEngine s t)
    (k : SameOutsideEngine t u) : SameOutsideEngine s u :=
  ⟨k.cfg.trans h.cfg, k.buf.trans h.buf, k.fill.trans h.fill, k.drain.trans h.drain,
    k.overruns.trans h.overruns, k.rxArmed.trans h.rxArmed, k.sInit.trans h.sInit,
    k.iInit.trans h.iInit, k.tick.trans h.tick, k.presenter.trans h.presenter,
    k.inputs.trans h.inputs⟩

theorem txBegin_same (flush : Bool) (addr : Nat) (len8 : Byte) (txbuf : List Byte) (s : State) :
    SameOutsideEngine s (txBegin flush addr len8 txbuf s) := by constructor <;> simp [txBegin]

theorem txBuild_same (len8 : Byte) (txbuf : List Byte) (s : State) :
    SameOutsideEngine s (txBuild len8 txbuf s) := by constructor <;> simp [txBuild]

theorem txWrite_same (addr : Nat) (s : State) : SameOutsideEngine s (txWrite addr s) := by
  constructor <;> simp [txWrite]

theorem alloc_same (n : Nat) (s : State) : SameOutsideEngine s (alloc n s).2 := by constructor <;> simp

theorem endTx_same (s : State) (res : Result) : SameOutsideEngine s (s.endTx res) := by
  constructor <;> simp

theorem endRx_same (s : State) (res : Result) : SameOutsideEngine s (s.endRx res) := by
  constructor <;> simp

theorem freeScratch_same (s : State) : SameOutsideEngine s s.freeScratch := by constructor <;> simp

theorem rxStore_same (bytes : List Byte) (s : State) : SameOutsideEngine s (rxStore bytes s) := by
  constructor <;> simp [rxStore]

theorem rxValidate_same (len8 : Byte) (s : State) : SameOutsideEngine s (rxValidate len8 s) := by
  unfold rxValidate
  dsimp only
  split
  · constructor <;> simp
  · exact (freeScratch_same s).trans (endRx_same _ _)

/-- I_TX leaves everything outside the engine alone. -/
theorem i2cTransmit_same (flush : Bool) (addr : Nat) (len8 : Byte) (txbuf : List Byte) (s : State) :
    SameOutsideEngine s (i2cTransmit flush addr len8 txbuf s) := by
  have h := (txBegin_same flush addr len8 txbuf s).trans (alloc_same (writeFrameSize len8) _)
  unfold i2cTransmit
  dsimp only
  split
  · exact (h.trans (txBuild_same len8 txbuf _)).trans (txWrite_same addr _)
  · exact h.trans (endTx_same _ _)

theorem requestWrite_same (addr : Nat) (len8 : Byte) (s : State) :
    SameOutsideEngine s (requestWrite addr len8 s).2 := by constructor <;> simp [requestWrite]

theorem requestPhase_same (addr : Nat) (len8 : Byte) : ∀ (n : Nat) (s : State),
    SameOutsideEngine s (requestPhase addr len8 n s).2
  | 0, s => SameOutsideEngine.refl s
  | n + 1, s => by
    rw [requestPhase]
    split
    · exact requestWrite_same addr len8 s
    · exact (requestWrite_same addr len8 s).trans (requestPhase_same addr len8 n _)

theorem rxAnswer_same (len8 : Byte) (answer : Option (List Byte)) (s : State) :
    SameOutsideEngine s (rxAnswer len8 answer s) := by
  cases answer with
  | none => exact (freeScratch_same s).trans (endRx_same _ _)
  | some bytes => exact (rxStore_same bytes s).trans (rxValidate_same len8 _)

theorem rxReadPhase_same (addr : Nat) (len8 : Byte) (s : State) :
    SameOutsideEngine s (rxReadPhase addr len8 s) := by
  unfold rxReadPhase
  dsimp only
  split
  · refine SameOutsideEngine.trans ?_ (rxAnswer_same len8 _ _)
    constructor <;> simp
  · refine SameOutsideEngine.trans ?_ (endRx_same _ _)
    constructor <;> simp

/-- I_RX leaves everything outside the engine and `RXBUF` alone. -/
theorem i2cReceive_same (addr : Nat) (len8 : Byte) (s : State) :
    SameOutsideEngine s (i2cReceive addr len8 s) := by
  have h : SameOutsideEngine s (rxBegin addr len8 s) := by constructor <;> simp [rxBegin]
  have h2 := h.trans (requestPhase_same addr len8 s.cfg.i2cReqAttempts _)
  unfold i2cReceive
  dsimp only
  split
  · exact h2.trans (rxReadPhase_same addr len8 _)
  · exact h2.trans (endRx_same _ _)

theorem txAllocArrow_same (len8 : Byte) (txbuf : List Byte) (s : State) :
    SameOutsideEngine s (txAllocArrow len8 txbuf s) := by
  unfold txAllocArrow
  dsimp only
  split
  · exact (alloc_same _ s).trans (txBuild_same len8 txbuf _)
  · exact (alloc_same _ s).trans (endTx_same _ _)

theorem rxRequestArrow_same (addr : Nat) (len8 : Byte) (s : State) :
    SameOutsideEngine s (rxRequestArrow addr len8 s) := by
  have h := requestWrite_same addr len8 s
  unfold rxRequestArrow
  dsimp only
  split
  · exact h.trans (by constructor <;> rfl)
  · split
    · exact h
    · exact h.trans (endRx_same _ _)

theorem rxAllocArrow_same (len8 : Byte) (s : State) : SameOutsideEngine s (rxAllocArrow len8 s) := by
  unfold rxAllocArrow
  dsimp only
  split
  · exact (alloc_same (responseSize len8) s).trans (by constructor <;> rfl)
  · exact (alloc_same _ s).trans (endRx_same _ _)

theorem rxReadArrow_same (addr : Nat) (len8 : Byte) (s : State) :
    SameOutsideEngine s (rxReadArrow addr len8 s) := by
  have h : SameOutsideEngine s (busRead addr (responseSize len8) s).2 := by constructor <;> simp
  unfold rxReadArrow
  dsimp only
  split
  · exact h.trans ((freeScratch_same _).trans (endRx_same _ _))
  · exact h.trans (rxStore_same _ _)

/-- A frame on the bus leaves everything outside the engine alone. -/
theorem exec_frame_same {i : Instr} {s t : State}
    (hi : (∃ length payload, i = .frameWrite length payload) ∨
      (∃ length, i = .frameReadRequest length) ∨
      ∃ available echoed payload, i = .frameReadResponse available echoed payload)
    (h : exec i s = .next t) : SameOutsideEngine s t := by
  rcases hi with ⟨length, payload, rfl⟩ | ⟨length, rfl⟩ | ⟨available, echoed, payload, rfl⟩
  · obtain ⟨_, addr, _, _, _, _, _, rfl⟩ := exec_frameWrite_next.mp h
    exact txWrite_same addr s
  · obtain ⟨addr, _, _, rfl⟩ := exec_frameReadRequest_next.mp h
    exact rxRequestArrow_same addr length s
  · obtain ⟨addr, len8, _, _, _, _, rfl⟩ := exec_frameReadResponse_next.mp h
    have h1 : SameOutsideEngine s (s.call (.busRead addr (responseSize len8) s.cfg.i2cReadMs
        (some (available :: echoed :: payload)))) := by constructor <;> simp
    exact (h1.trans (rxStore_same _ _)).trans (rxValidate_same len8 _)

end Sys2Proof.Machine
end

