-- ==== Sys2Proof/Laws/Serial.lean ====
section
/-! SUPPORT. What the operations of the serial FIFO block, and I_RESET, do to each field of the state; and
what each of them can answer. -/

namespace Sys2Proof.Machine

section Fields

variable (s : State)

@[simp] theorem serialReset_fields :
    (serialReset s).cfg = s.cfg ∧
    (serialReset s).buf = s.buf ∧
    (serialReset s).fill = 0 ∧
    (serialReset s).drain = 0 ∧
    (serialReset s).overruns = 0 ∧
    (serialReset s).rxArmed = true ∧
    (serialReset s).sInit = true ∧
    (serialReset s).iInit = s.iInit ∧
    (serialReset s).phase = s.phase ∧
    (serialReset s).attempt = s.attempt ∧
    (serialReset s).scratch = s.scratch ∧
    (serialReset s).tick = s.tick ∧
    (serialReset s).rxbuf = s.rxbuf ∧
    (serialReset s).consumer = s.consumer ∧
    (serialReset s).presenter = s.presenter ∧
    (serialReset s).results = s.results ++ [{ role := .consumer, result := { code := .ok } }] ∧
    (serialReset s).trace = s.trace ++ [.lineDeinit, .lineInit, .lineArmRx] ∧
    (serialReset s).inputs = s.inputs ∧
    (serialReset s).answers = s.answers ∧
    (serialReset s).freeIdx = s.freeIdx := by
  simp [serialReset]

@[simp] theorem pushByte_fields (b : Byte) :
    (pushByte b s).cfg = s.cfg ∧
    (pushByte b s).buf = Memory.write s.buf s.fill b ∧
    (pushByte b s).fill = idxNext s.cfg s.fill ∧
    (pushByte b s).drain = (if full s then idxNext s.cfg s.drain else s.drain) ∧
    (pushByte b s).overruns = (if full s then satInc s.cfg s.overruns else s.overruns) ∧
    (pushByte b s).rxArmed = true ∧
    (pushByte b s).sInit = s.sInit ∧
    (pushByte b s).iInit = s.iInit ∧
    (pushByte b s).phase = s.phase ∧
    (pushByte b s).attempt = s.attempt ∧
    (pushByte b s).scratch = s.scratch ∧
    (pushByte b s).tick = s.tick ∧
    (pushByte b s).rxbuf = s.rxbuf ∧
    (pushByte b s).consumer = s.consumer ∧
    (pushByte b s).presenter = s.presenter ∧
    (pushByte b s).results = s.results ++ [{ role := .producer, result := { code := .ok } }] ∧
    (pushByte b s).trace = s.trace ++ [.lineArmRx] ∧
    (pushByte b s).inputs = s.inputs ∧
    (pushByte b s).answers = s.answers ∧
    (pushByte b s).freeIdx = s.freeIdx := by
  have e : full { s with rxArmed := false } = full s := rfl
  simp only [pushByte, e]
  cases full s <;> simp

@[simp] theorem popByte_fields :
    (popByte s).cfg = s.cfg ∧
    (popByte s).buf = s.buf ∧
    (popByte s).fill = s.fill ∧
    (popByte s).drain = idxNext s.cfg s.drain ∧
    (popByte s).overruns = s.overruns ∧
    (popByte s).rxArmed = s.rxArmed ∧
    (popByte s).sInit = s.sInit ∧
    (popByte s).iInit = s.iInit ∧
    (popByte s).phase = s.phase ∧
    (popByte s).attempt = s.attempt ∧
    (popByte s).scratch = s.scratch ∧
    (popByte s).tick = s.tick ∧
    (popByte s).rxbuf = s.rxbuf ∧
    (popByte s).consumer = .ready ∧
    (popByte s).presenter = s.presenter ∧
    (popByte s).results = s.results ++ [⟨.consumer, { code := .ok, rbyte := some (Memory.read s.buf s.drain) }⟩] ∧
    (popByte s).trace = s.trace ∧
    (popByte s).inputs = s.inputs ∧
    (popByte s).answers = s.answers ∧
    (popByte s).freeIdx = s.freeIdx := by
  simp [popByte]

@[simp] theorem serialTransmit_fields (flush : Bool) (lenN : Nat) (txbuf : List Byte) :
    (serialTransmit flush lenN txbuf s).cfg = s.cfg ∧
    (serialTransmit flush lenN txbuf s).buf = s.buf ∧
    (serialTransmit flush lenN txbuf s).fill = s.fill ∧
    (serialTransmit flush lenN txbuf s).drain = s.drain ∧
    (serialTransmit flush lenN txbuf s).overruns = s.overruns ∧
    (serialTransmit flush lenN txbuf s).rxArmed = s.rxArmed ∧
    (serialTransmit flush lenN txbuf s).sInit = s.sInit ∧
    (serialTransmit flush lenN txbuf s).iInit = s.iInit ∧
    (serialTransmit flush lenN txbuf s).phase = s.phase ∧
    (serialTransmit flush lenN txbuf s).attempt = s.attempt ∧
    (serialTransmit flush lenN txbuf s).scratch = s.scratch ∧
    (serialTransmit flush lenN txbuf s).tick = s.tick ∧
    (serialTransmit flush lenN txbuf s).rxbuf = s.rxbuf ∧
    (serialTransmit flush lenN txbuf s).consumer = s.consumer ∧
    (serialTransmit flush lenN txbuf s).presenter = s.presenter ∧
    (serialTransmit flush lenN txbuf s).results = s.results ++ [⟨.consumer, { code := writeCode (lineAnswer lenN s == .ok) }⟩] ∧
    (serialTransmit flush lenN txbuf s).trace = s.trace ++ [.lineTx (takeBytes lenN s.freeIdx txbuf) flush s.cfg.serialTxMs (lineAnswer lenN s)] ∧
    (serialTransmit flush lenN txbuf s).inputs = s.inputs ∧
    (serialTransmit flush lenN txbuf s).answers = { s.answers with line := s.answers.line.tail } ∧
    (serialTransmit flush lenN txbuf s).freeIdx = s.freeIdx + 1 := by
  simp [serialTransmit]

@[simp] theorem i2cReset_fields :
    (i2cReset s).cfg = s.cfg ∧
    (i2cReset s).buf = s.buf ∧
    (i2cReset s).fill = s.fill ∧
    (i2cReset s).drain = s.drain ∧
    (i2cReset s).overruns = s.overruns ∧
    (i2cReset s).rxArmed = s.rxArmed ∧
    (i2cReset s).sInit = s.sInit ∧
    (i2cReset s).iInit = true ∧
    (i2cReset s).phase = .idle ∧
    (i2cReset s).attempt = 0 ∧
    (i2cReset s).scratch = s.scratch ∧
    (i2cReset s).tick = s.tick ∧
    (i2cReset s).rxbuf = s.rxbuf ∧
    (i2cReset s).consumer = s.consumer ∧
    (i2cReset s).presenter = s.presenter ∧
    (i2cReset s).results = s.results ++ [{ role := .consumer, result := { code := .ok } }] ∧
    (i2cReset s).trace = s.trace ++ [.busDeinit, .busInit] ∧
    (i2cReset s).inputs = s.inputs ∧
    (i2cReset s).answers = s.answers ∧
    (i2cReset s).freeIdx = s.freeIdx := by
  simp [i2cReset]

end Fields

/-! ## What each operation can answer -/

/-- S_PUSH that answers a next state was admitted, and either lost an unarmed byte or pushed it. -/
theorem exec_sPush_next {s t : State} {b : Byte} (h : exec (.sPush b) s = .next t) :
    whyRefused .serial .producer true s = none ∧
      (s.rxArmed = false ∧ t = s ∨ s.rxArmed = true ∧ s.fill < s.cfg.c ∧ t = pushByte b s) := by
  rw [exec_sPush] at h
  obtain ⟨ha, h⟩ := guarded_next h
  refine ⟨ha, ?_⟩
  split at h
  · cases h; exact .inl ⟨‹_›, rfl⟩
  · split at h <;> cases h
    exact .inr ⟨by simp_all, ‹_›, rfl⟩

/-- A presented or held S_POP that answers a next state holds or pops. -/
theorem popOrHold_next {s t : State} (h : popOrHold s = .next t) :
    s.fill = s.drain ∧ t = { s with consumer := .heldPop } ∨
      s.fill ≠ s.drain ∧ s.drain < s.cfg.c ∧ t = popByte s := by
  unfold popOrHold at h
  split at h
  · cases h; exact .inl ⟨(avail_false_iff s).mp ‹_›, rfl⟩
  · split at h <;> cases h
    exact .inr ⟨(avail_iff s).mp (by simp_all), ‹_›, rfl⟩

theorem popOrHold_pops {s : State} (ha : s.fill ≠ s.drain) (hd : s.drain < s.cfg.c) :
    popOrHold s = .next (popByte s) := by
  simp [popOrHold, (avail_iff s).mpr ha, hd]

theorem popOrHold_holds {s : State} (h : s.fill = s.drain) :
    popOrHold s = .next { s with consumer := .heldPop } := by
  simp [popOrHold, (avail_false_iff s).mpr h]

/-- S_POP that answers a next state was admitted, and holds or pops. -/
theorem exec_sPop_next {s t : State} (h : exec .sPop s = .next t) :
    whyRefused .serial .consumer true s = none ∧
      (s.fill = s.drain ∧ t = { s with consumer := .heldPop } ∨
        s.fill ≠ s.drain ∧ s.drain < s.cfg.c ∧ t = popByte s) := by
  rw [exec_sPop] at h
  obtain ⟨ha, h⟩ := guarded_next h
  exact ⟨ha, popOrHold_next h⟩

end Sys2Proof.Machine
end

