-- ==== Sys2Proof/Laws/Step.lean ====
section
/-! SUPPORT. What one step is, event by event, and how runs of several steps are put together. -/

namespace Sys2Proof.Machine

/-- No agent has a step to take. -/
theorem step_idle {s : State} (h : s.inputs = []) : step s = .next s := by
  simp [step, h]

/-- The next event is taken and handled. -/
theorem step_event {s : State} {e : Event} {rest : List Event} (h : s.inputs = e :: rest) :
    step s = handle e { s with inputs := rest } := by
  simp [step, h]

theorem step_with (s : State) (e : Event) (rest : List Event) :
    step { s with inputs := e :: rest } = handle e { s with inputs := rest } := rfl

variable (s : State)

theorem handle_command (who : Presenter) (p : Ports) :
    handle (.command who p) s = exec (decodeCommand s.cfg p) { s with presenter := who } := rfl

theorem handle_commandStepwise (who : Presenter) (p : Ports) :
    handle (.commandStepwise who p) s =
      beginStepwise (decodeCommand s.cfg p) { s with presenter := who } := rfl

theorem handle_arrow : handle .arrow s = takeArrow s := rfl

theorem handle_busResponse (bytes : List Byte) :
    handle (.busResponse bytes) s = runDecoded (.busReadData bytes) s := rfl

theorem handle_byteArrived (b : Byte) : handle (.byteArrived b) s = lineDelivers b s := rfl

theorem handle_resume : handle .resume s = resumeConsumer s := rfl

theorem handle_tick : handle .tick s = .next (tickStep s) := rfl

theorem lineDelivers_armed {s : State} {b : Byte} (h : s.rxArmed = true) :
    lineDelivers b s = exec (.sPush b) { s with presenter := .producer } := by
  simp [lineDelivers, h]

theorem lineDelivers_unarmed {s : State} {b : Byte} (h : s.rxArmed = false) :
    lineDelivers b s = .next s := by
  simp [lineDelivers, h]

/-! ## Runs -/

theorem steps_zero : steps 0 s = .next s := rfl

theorem steps_succ {s t : State} {n : Nat} (h : step s = .next t) : steps (n + 1) s = steps n t := by
  simp [steps, h]

/-- A run that answers a next state after `n + 1` steps did so after the first. -/
theorem steps_succ_next {s u : State} {n : Nat} (h : steps (n + 1) s = .next u) :
    ∃ t, step s = .next t ∧ steps n t = .next u := by
  unfold steps at h
  cases hs : step s with
  | next t => rw [hs] at h; exact ⟨t, rfl, h⟩
  | fault f => rw [hs] at h; cases h
  | refused r => rw [hs] at h; cases h

theorem coreRun_succ (M : Host.Core) (n : Nat) (s : M.State) :
    Host.Core.run M (n + 1) s =
      match M.step s with
      | .next t => Host.Core.run M n t
      | .fault f => .fault f
      | .refused r => .refused r := rfl

/-- `steps` is the host's `Core.run`. -/
theorem steps_eq_run : ∀ (n : Nat) (s : State), steps n s = Host.Core.run Sys2Proof.core n s
  | 0, _ => rfl
  | n + 1, s => by
    refine Eq.trans ?_ (coreRun_succ Sys2Proof.core n s).symm
    have hc : Host.Core.step Sys2Proof.core s = step s := rfl
    rw [hc]
    cases hs : step s with
    | next t => exact (steps_succ hs).trans (steps_eq_run n t)
    | fault f => simp only [steps, hs]; rfl
    | refused r => simp only [steps, hs]; rfl

end Sys2Proof.Machine
end

