-- ==== Sys2Proof/Laws/Agents.lean ====
section
/-! SUPPORT. What each agent's step can do, said once: the decoded frames, the arrows of
spec/41_i2c_framing.md R135, the presentation for the multi-step reading, and a resumed hold. -/

namespace Sys2Proof.Machine

/-! ## Frames -/

theorem decode_requestFrame (k : Config) (len8 : Byte) :
    decode k (.busWriteData (requestFrame len8)) = .ok (.frameReadRequest len8) := by
  simp [decode, decodeWriteData, requestFrame]

/-- A write frame whose payload has its length decodes to itself (R80). -/
theorem decode_writeFrame (k : Config) (len8 : Byte) (payload : List Byte)
    (h : payload.length = len8.toNat) :
    decode k (.busWriteData (writeFrame len8 payload)) = .ok (.frameWrite len8 payload) := by
  cases payload with
  | nil =>
    have h0 : len8 = 0 := by
      apply BitVec.eq_of_toNat_eq; simpa using h.symm
    simp [decode, decodeWriteData, writeFrame, h0]
  | cons a rest =>
    have h0 : len8 ≠ 0 := by rintro rfl; simp at h
    have h1 : rest.length + 1 = len8.toNat := by simpa using h
    simp only [decode, decodeWriteData, writeFrame, if_neg h0, if_pos h1]

/-- Bytes that are run as a frame are one, and the frame runs. -/
theorem runDecoded_next {p : Presentation} {s t : State} (h : runDecoded p s = .next t) :
    ∃ i, decode s.cfg p = .ok i ∧ exec i s = .next t := by
  unfold runDecoded at h
  split at h
  · exact ⟨_, ‹_›, h⟩
  · cases h

theorem runDecoded_ok {p : Presentation} {s : State} {i : Instr} (h : decode s.cfg p = .ok i) :
    runDecoded p s = exec i s := by
  unfold runDecoded; rw [h]

/-- The data of a master write that decodes is one of its two frames (R80, R81). -/
theorem decodeWriteData_ok {bytes : List Byte} {i : Instr} (h : decodeWriteData bytes = .ok i) :
    (∃ length payload, i = .frameWrite length payload) ∨ ∃ length, i = .frameReadRequest length := by
  unfold decodeWriteData at h
  split at h
  · cases h
  · split at h <;> cases h
    exact .inl ⟨_, _, rfl⟩
  · split at h
    · split at h <;> cases h
      exact .inr ⟨_, rfl⟩
    · split at h <;> cases h
      exact .inl ⟨_, _, rfl⟩

/-- The data of a master read that decodes is a read response (R82). -/
theorem decodeReadData_ok {bytes : List Byte} {i : Instr} (h : decodeReadData bytes = .ok i) :
    ∃ available echoed payload, i = .frameReadResponse available echoed payload ∧
      bytes = available :: echoed :: payload := by
  unfold decodeReadData at h
  split at h
  · split at h <;> cases h
    exact ⟨_, _, _, rfl, rfl⟩
  · cases h

/-! ## The arrows of R135 -/

/-- Everything an arrow can do. -/
theorem takeArrow_cases {s t : State} (h : takeArrow s = .next t) :
    s.phase = .idle ∧ t = s ∨
    (∃ flush addr len8 txbuf, s.consumer = .inI2c (.tx flush addr len8 txbuf) ∧
      (s.phase = .txAlloc ∧ t = txAllocArrow len8 txbuf s ∨
        s.phase = .txWrite ∧ t = txWrite addr s ∧
          ∃ length payload, s.scratchBytes = writeFrame length payload)) ∨
    ∃ addr len8, s.consumer = .inI2c (.rx addr len8) ∧
      (s.phase = .rxRequest ∧ t = rxRequestArrow addr len8 s ∨
        s.phase = .rxAlloc ∧ t = rxAllocArrow len8 s ∨
        s.phase = .rxRead ∧ s.scratch.isSome = true ∧ t = rxReadArrow addr len8 s ∨
        s.phase = .rxValidate ∧ s.scratch.isSome = true ∧ t = rxValidate len8 s) := by
  unfold takeArrow at h
  split at h
  · cases h; exact .inl ⟨‹_›, rfl⟩
  · cases h; exact .inr (.inl ⟨_, _, _, _, ‹_›, .inl ⟨‹_›, rfl⟩⟩)
  · obtain ⟨i, hd, h⟩ := runDecoded_next h
    rcases decodeWriteData_ok hd with ⟨length, payload, rfl⟩ | ⟨length, rfl⟩
    · obtain ⟨flush, addr, len8, txbuf, hc, hp, hs, rfl⟩ := exec_frameWrite_next.mp h
      exact .inr (.inl ⟨_, _, _, _, hc, .inr ⟨hp, rfl, _, _, hs⟩⟩)
    · obtain ⟨addr, hc, hp, rfl⟩ := exec_frameReadRequest_next.mp h
      exact .inr (.inr ⟨_, _, hc, .inl ⟨hp, rfl⟩⟩)
  · obtain ⟨i, hd, h⟩ := runDecoded_next h
    rw [decode_requestFrame] at hd
    cases hd
    obtain ⟨addr, hc, hp, rfl⟩ := exec_frameReadRequest_next.mp h
    exact .inr (.inr ⟨_, _, hc, .inl ⟨hp, rfl⟩⟩)
  · cases h; exact .inr (.inr ⟨_, _, ‹_›, .inr (.inl ⟨‹_›, rfl⟩)⟩)
  · next hs => cases h; exact .inr (.inr ⟨_, _, ‹_›, .inr (.inr (.inl ⟨‹_›, by rw [hs]; rfl, rfl⟩))⟩)
  · next hs => cases h; exact .inr (.inr ⟨_, _, ‹_›, .inr (.inr (.inr ⟨‹_›, by rw [hs]; rfl, rfl⟩))⟩)
  · cases h

/-- An arrow leaves everything outside the engine alone. -/
theorem takeArrow_same {s t : State} (h : takeArrow s = .next t) : SameOutsideEngine s t := by
  rcases takeArrow_cases h with ⟨-, rfl⟩ | ⟨_, addr, len8, txbuf, -, ⟨-, rfl⟩ | ⟨-, rfl, -⟩⟩ |
    ⟨addr, len8, -, ⟨-, rfl⟩ | ⟨-, rfl⟩ | ⟨-, -, rfl⟩ | ⟨-, -, rfl⟩⟩
  · exact SameOutsideEngine.refl _
  · exact txAllocArrow_same len8 txbuf s
  · exact txWrite_same addr s
  · exact rxRequestArrow_same addr len8 s
  · exact rxAllocArrow_same len8 s
  · exact rxReadArrow_same addr len8 s
  · exact rxValidate_same len8 s

/-! ## Presenting for the multi-step reading, and resuming a hold -/

/-- A presentation for the multi-step reading takes the first arrow of I_TX or I_RX, or runs as it always
does. -/
theorem beginStepwise_cases {i : Instr} {s t : State} (h : beginStepwise i s = .next t) :
    (∃ flush addr len8 txbuf, i = .iTx flush addr len8 txbuf ∧
      whyRefused .i2c .consumer true s = none ∧ t = txBegin flush addr len8 txbuf s) ∨
    (∃ addr len8, i = .iRx addr len8 ∧ whyRefused .i2c .consumer true s = none ∧
      t = rxBegin addr len8 s) ∨
    exec i s = .next t := by
  cases i with
  | iTx flush addr len8 txbuf =>
    rw [beginStepwise] at h
    obtain ⟨ha, h⟩ := guarded_next h
    cases h
    exact .inl ⟨_, _, _, _, rfl, ha, rfl⟩
  | iRx addr len8 =>
    rw [beginStepwise] at h
    obtain ⟨ha, h⟩ := guarded_next h
    cases h
    exact .inr (.inl ⟨_, _, rfl, ha, rfl⟩)
  | _ => exact .inr (.inr h)

/-- Resuming changes nothing, completes a held S_POP or T_SLEEP, or leaves it held. -/
theorem resumeConsumer_cases {s t : State} (h : resumeConsumer s = .next t) :
    t = s ∨
    (s.consumer = .heldPop ∧ s.fill ≠ s.drain ∧ s.drain < s.cfg.c ∧ t = popByte s) ∨
    ∃ t0 dur, s.consumer = .sleeping t0 dur ∧ dur ≤ elapsed s.cfg t0 s.tick ∧
      t = ({ s with consumer := .ready } : State).ret .consumer { code := .ok } := by
  unfold resumeConsumer at h
  split at h
  · cases h; exact .inl rfl
  · next hc =>
    rcases popOrHold_next h with ⟨-, rfl⟩ | ⟨hf, hd, rfl⟩
    · exact .inl (by rw [← hc])
    · exact .inr (.inl ⟨hc, hf, hd, rfl⟩)
  · next t0 dur hc =>
    cases h
    unfold sleepOrHold
    split
    · exact .inr (.inr ⟨t0, dur, hc, ‹_›, rfl⟩)
    · exact .inl rfl
  · cases h; exact .inl rfl

/-- Everything a step can do: one clause per kind of event. -/
theorem handle_cases {e : Event} {s t : State} (h : handle e s = .next t) :
    (∃ who p, e = .command who p ∧ exec (decodeCommand s.cfg p) { s with presenter := who } = .next t) ∨
    (∃ who p, e = .commandStepwise who p ∧
      beginStepwise (decodeCommand s.cfg p) { s with presenter := who } = .next t) ∨
    (e = .arrow ∧ takeArrow s = .next t) ∨
    (∃ available echoed payload, e = .busResponse (available :: echoed :: payload) ∧
      exec (.frameReadResponse available echoed payload) s = .next t) ∨
    (∃ b, e = .byteArrived b ∧ (s.rxArmed = false ∧ t = s ∨
      s.rxArmed = true ∧ exec (.sPush b) { s with presenter := .producer } = .next t)) ∨
    (e = .resume ∧ resumeConsumer s = .next t) ∨
    e = .tick ∧ t = tickStep s := by
  cases e with
  | command who p => exact .inl ⟨_, _, rfl, h⟩
  | commandStepwise who p => exact .inr (.inl ⟨_, _, rfl, h⟩)
  | arrow => exact .inr (.inr (.inl ⟨rfl, h⟩))
  | busResponse bytes =>
    obtain ⟨i, hd, hx⟩ := runDecoded_next h
    obtain ⟨a, b, c, rfl, rfl⟩ := decodeReadData_ok hd
    exact .inr (.inr (.inr (.inl ⟨_, _, _, rfl, hx⟩)))
  | byteArrived b =>
    refine .inr (.inr (.inr (.inr (.inl ⟨_, rfl, ?_⟩))))
    by_cases ha : s.rxArmed = true
    · rw [handle_byteArrived, lineDelivers_armed ha] at h
      exact .inr ⟨ha, h⟩
    · have ha' : s.rxArmed = false := by simpa using ha
      rw [handle_byteArrived, lineDelivers_unarmed ha'] at h
      cases h
      exact .inl ⟨ha', rfl⟩
  | resume => exact .inr (.inr (.inr (.inr (.inr (.inl ⟨rfl, h⟩)))))
  | tick => cases h; exact .inr (.inr (.inr (.inr (.inr (.inr ⟨rfl, rfl⟩)))))

end Sys2Proof.Machine
end

