-- ==== Sys2Proof/Laws/PerInstr.lean ====
section
/-! SUPPORT. One lemma per constructor of `Instr`: the encoder presents each operation under the op code of
its row of spec/opcode_table.json (spec/30_encoding.md R78, R79) and each frame as bus data (R80 to R82). -/

namespace Sys2Proof.Laws.TableRow

/-- The column `op` of R78 and the reserved codes of R79; the frames have none. -/
def opOf : Instr → Option (BitVec 4)
  | .sReset => some 0x0
  | .sPush _ => some 0x1
  | .sAvail => some 0x2
  | .sPop => some 0x3
  | .sTx _ _ _ => some 0x4
  | .sOvr => some 0x5
  | .reserved6 => some 0x6
  | .reserved7 => some 0x7
  | .iReset => some 0x8
  | .iTx _ _ _ _ => some 0x9
  | .iRx _ _ => some 0xA
  | .reservedB => some 0xB
  | .tNow => some 0xC
  | .tSleep _ => some 0xD
  | .reservedE => some 0xE
  | .reservedF => some 0xF
  | .frameWrite _ _ => none
  | .frameReadRequest _ => none
  | .frameReadResponse _ _ _ => none

/-- The op code a presentation carries. -/
def carriedOp : Presentation → Option (BitVec 4)
  | .command p => some p.op
  | .busWriteData _ => none
  | .busReadData _ => none

/-- The encoding of the instruction carries its row's op code. -/
def Statement (i : Instr) : Prop := carriedOp (encode i) = opOf i

theorem sReset : Statement .sReset := rfl
theorem sPush (data : Byte) : Statement (.sPush data) := rfl
theorem sAvail : Statement .sAvail := rfl
theorem sPop : Statement .sPop := rfl
theorem sTx (flush : Bool) (lenN : Nat) (txbuf : List Byte) : Statement (.sTx flush lenN txbuf) := rfl
theorem sOvr : Statement .sOvr := rfl
theorem iReset : Statement .iReset := rfl
theorem iTx (flush : Bool) (addr : Nat) (len8 : Byte) (txbuf : List Byte) :
    Statement (.iTx flush addr len8 txbuf) := rfl
theorem iRx (addr : Nat) (len8 : Byte) : Statement (.iRx addr len8) := rfl
theorem tNow : Statement .tNow := rfl
theorem tSleep (dur : Nat) : Statement (.tSleep dur) := rfl
theorem reserved6 : Statement .reserved6 := rfl
theorem reserved7 : Statement .reserved7 := rfl
theorem reservedB : Statement .reservedB := rfl
theorem reservedE : Statement .reservedE := rfl
theorem reservedF : Statement .reservedF := rfl
theorem frameWrite (length : Byte) (payload : List Byte) : Statement (.frameWrite length payload) := rfl
theorem frameReadRequest (length : Byte) : Statement (.frameReadRequest length) := rfl
theorem frameReadResponse (available echoed : Byte) (payload : List Byte) :
    Statement (.frameReadResponse available echoed payload) := rfl

end Sys2Proof.Laws.TableRow
end

