-- ==== Sys2Proof/Tests/Slice0.lean ====
section
/-! SUPPORT. The model's own tests: words decoded by hand from spec/30_encoding.md, ill-formed terms that
`WellFormed` refuses, one step at a time of the vectors of spec/95_test_vectors.md (section 2 unless the
comment says otherwise), and a witness for the hypotheses of each statement. -/

namespace Sys2Proof.Machine

/-! ## Helpers -/

/-- The next state of an answer, if it is one. -/
def nextOf : Answer → Option State
  | .next t => some t
  | .fault _ => none
  | .refused _ => none

/-- Why an answer is a refusal, if it is one. -/
def refusalOf : Answer → Option Refusal
  | .next _ => none
  | .fault _ => none
  | .refused why => some why

/-- The serial FIFO block after its reset, with `C = 4` (95_test_vectors.md 2.1). -/
def fifo (fill drain overruns : Nat) (cells : List Byte) : State :=
  { State.reset with
    cfg := { c := 4 }
    sInit := true
    rxArmed := true
    fill := fill
    drain := drain
    overruns := overruns
    buf := Memory.writeBytes [] 0 cells }

/-- The same, for the PRODUCER. -/
def fifoIn (fill drain overruns : Nat) (cells : List Byte) : State :=
  { fifo fill drain overruns cells with presenter := .producer }

/-- `fill drain ovr | buf` as the vectors write it, with C = 4. -/
def view (s : State) : Nat × Nat × Nat × List Byte :=
  (s.fill, s.drain, s.overruns, Memory.readBytes s.buf 0 4)

/-- What an answer leaves of the FIFO. -/
def viewOf (a : Answer) : Option (Nat × Nat × Nat × List Byte) := (nextOf a).map view

/-- The results an answer leaves. -/
def resultsOf (a : Answer) : Option (List Returned) := (nextOf a).map (·.results)

/-- The transactions an answer leaves. -/
def transactionsOf (a : Answer) : Option (List EnvCall) := (nextOf a).map transactions

/-- The I2C engine after its reset, with a script of answers. -/
def engine (alloc write : List Bool) (read : List (Option (List Byte))) : State :=
  { State.reset with
    iInit := true
    answers := { alloc := alloc, write := write, read := read } }

/-! ## Decoding: words written out from 30_encoding.md R78 to R82 -/

theorem test_decode_sReset : decodeTableWord 8 0b0000 = some .sReset := by decide
theorem test_decode_sPush : decode {} (.command { op := 0b0001, data := 0x41 }) = .ok (.sPush 0x41) := rfl
theorem test_decode_sAvail_ignores_data :
    decode {} (.command { op := 0b0010, data := 0xFF }) = .ok .sAvail := rfl
theorem test_decode_sPop : decodeTableWord 8 0b0011 = some .sPop := by decide
theorem test_decode_sTx : decode {} (.command
    { op := 0b0100, flush := true, lenN := 2, txbuf := [0x7B, 0x7D] }) =
    .ok (.sTx true 2 [0x7B, 0x7D]) := rfl
theorem test_decode_sOvr : decodeTableWord 8 0b0101 = some .sOvr := by decide
theorem test_decode_reserved :
    decodeTableWord 8 0b0110 = some .reserved6 ∧ decodeTableWord 8 0b0111 = some .reserved7 ∧
    decodeTableWord 8 0b1011 = some .reservedB ∧ decodeTableWord 8 0b1110 = some .reservedE ∧
    decodeTableWord 8 0b1111 = some .reservedF := by decide
theorem test_decode_iReset : decodeTableWord 8 0b1000 = some .iReset := by decide
theorem test_decode_iTx : decode {} (.command
    { op := 0b1001, addr := 0x17, len8 := 2, txbuf := [0x7B, 0x7D] }) =
    .ok (.iTx false 0x17 2 [0x7B, 0x7D]) := rfl
theorem test_decode_iRx : decode {} (.command { op := 0b1010, addr := 0x17, len8 := 3 }) =
    .ok (.iRx 0x17 3) := rfl
theorem test_decode_tNow : decodeTableWord 8 0b1100 = some .tNow := by decide
theorem test_decode_tSleep : decode {} (.command { op := 0b1101, dur := 2 }) = .ok (.tSleep 2) := rfl
/-- R80, W1. -/
theorem test_decode_frameWrite : decode {} (.busWriteData [0x04, 0xDE, 0xAD, 0xBE, 0xEF]) =
    .ok (.frameWrite 4 [0xDE, 0xAD, 0xBE, 0xEF]) := rfl
/-- R80: with `length = 0` the frame is the one byte `[0x00]`. -/
theorem test_decode_frameWrite_empty : decode {} (.busWriteData [0x00]) = .ok (.frameWrite 0 []) := rfl
/-- R81: byte 0 first on the bus, 0x00, then the length. -/
theorem test_decode_frameReadRequest :
    decodeTableWord 16 0b0000000000000011 = some (.frameReadRequest 3) := by decide
/-- R82, W6. -/
theorem test_decode_frameReadResponse : decode {} (.busReadData [0x02, 0x03, 0x41, 0x42, 0x43]) =
    .ok (.frameReadResponse 2 3 [0x41, 0x42, 0x43]) := rfl

/-- Bytes that are no frame are rejected by name. -/
theorem test_decode_rejects :
    decode {} (.busWriteData []) = .error .emptyWrite ∧
    decode {} (.busWriteData [3]) = .error .lengthDisagrees ∧
    decode {} (.busWriteData [3, 1, 2]) = .error .lengthDisagrees ∧
    decode {} (.busWriteData [0, 1, 2]) = .error .lengthDisagrees ∧
    decode {} (.busReadData [7]) = .error .shortResponse := ⟨rfl, rfl, rfl, rfl, rfl⟩
theorem test_decode_rejects_long :
    decode {} (.busReadData (0 :: 0 :: List.replicate 256 0)) = .error .longResponse := by
  simp only [decode, decodeReadData, List.length_replicate]
  rfl

/-! ## Ill-formed terms -/

theorem test_illformed_sTx_length : WellFormed { lenW := 1 } (.sTx false 2 [1, 2]) = false := by decide
theorem test_illformed_sTx_payload : WellFormed {} (.sTx false 2 [1]) = false := by decide
theorem test_illformed_iTx_addr : WellFormed {} (.iTx false 128 1 [1]) = false := by decide
theorem test_illformed_iTx_payload : WellFormed {} (.iTx false 0x17 2 [1, 2, 3]) = false := by decide
theorem test_illformed_iRx_addr : WellFormed {} (.iRx 128 0) = false := by decide
theorem test_illformed_tSleep : WellFormed {} (.tSleep (2 ^ 32)) = false := by decide
theorem test_illformed_frameWrite : WellFormed {} (.frameWrite 2 [1]) = false := by decide
theorem test_illformed_frameReadResponse :
    WellFormed {} (.frameReadResponse 0 0 (List.replicate 256 0)) = false := by
  simp only [WellFormed, List.length_replicate]
  decide
theorem test_wellformed : WellFormed {} (.iTx true 127 2 [1, 2]) = true := by decide
theorem test_illegal_config_c : ¬ Config.Ok { c := 1 } := by decide
theorem test_illegal_config_tick : ¬ Config.Ok { tickW := 31 } := by decide
theorem test_illegal_config_attempts : ¬ Config.Ok { i2cReqAttempts := 0 } := by decide
theorem test_reset_memory_wf : Memory.wf State.reset.buf ∧ Memory.wf State.reset.rxbuf := by decide

/-! ## The serial FIFO block -/

/-- V1. -/
theorem test_sReset : viewOf (exec .sReset { fifo 2 1 7 [] with sInit := false, rxArmed := false }) =
    some (0, 0, 0, [0, 0, 0, 0]) := by decide
theorem test_sReset_arms : (nextOf (exec .sReset { fifo 2 1 7 [] with sInit := false, rxArmed := false })).map
    (fun t => (t.sInit, t.rxArmed)) = some (true, true) := by decide
/-- V4: overrun, `fill` wraps. -/
theorem test_sPush_overrun : viewOf (exec (.sPush 4) (fifoIn 3 0 0 [1, 2, 3])) =
    some (0, 1, 1, [1, 2, 3, 4]) := by decide
/-- V10: saturation at `OVR_W = 2`; the eviction still happens. -/
theorem test_sPush_saturates : viewOf (exec (.sPush 4)
    { fifoIn 3 0 3 [1, 2, 3] with cfg := { c := 4, ovrW := 2 } }) = some (0, 1, 3, [1, 2, 3, 4]) := by decide
/-- V1, V2. -/
theorem test_sAvail_empty : resultsOf (exec .sAvail (fifo 0 0 0 [])) =
    some [⟨.consumer, { code := .ok, rflag := some false }⟩] := by decide
theorem test_sAvail_one : resultsOf (exec .sAvail (fifo 1 0 0 [0])) =
    some [⟨.consumer, { code := .ok, rflag := some true }⟩] := by decide
/-- V8: `drain` wraps C-1 to 0. -/
theorem test_sPop_wraps : (nextOf (exec .sPop (fifo 1 3 0 [0x32, 0, 0, 0x31]))).map
    (fun t => (t.fill, t.drain, t.results)) =
    some (1, 0, [⟨.consumer, { code := .ok, rbyte := some 0x31 }⟩]) := by decide
/-- V9: on an empty buffer S_POP holds. -/
theorem test_sPop_holds : (nextOf (exec .sPop (fifo 2 2 0 []))).map (fun t => (t.consumer, t.results)) =
    some (.heldPop, []) := by decide
/-- V16. -/
theorem test_sTx_ok : resultsOf (exec (.sTx false 2 [0x7B, 0x7D])
    { fifo 0 0 0 [] with answers := { line := [.ok] } }) = some [⟨.consumer, { code := .ok }⟩] := by decide
/-- V17: a failure after one byte. -/
theorem test_sTx_fail : (nextOf (exec (.sTx true 2 [0x7B, 0x7D])
    { fifo 0 0 0 [] with answers := { line := [.fail 1] } })).map (fun t => (t.results, t.trace)) =
    some ([⟨.consumer, { code := .errWrite }⟩], [.lineTx [0x7B, 0x7D] true 5000 (.fail 1)]) := by decide
/-- V12. -/
theorem test_sOvr : resultsOf (exec .sOvr (fifo 1 2 2 [5, 2, 3, 4])) =
    some [⟨.consumer, { code := .ok, rcount := some 2 }⟩] := by decide

/-! ## The I2C framing engine -/

/-- W20. -/
theorem test_iReset : (nextOf (exec .iReset State.reset)).map
    (fun t => (t.iInit, t.phase, t.attempt, transactions t)) = some (true, .idle, 0, []) := by decide
/-- W1. -/
theorem test_iTx : transactionsOf (exec (.iTx false 0x17 4 [0xDE, 0xAD, 0xBE, 0xEF])
    (engine [true] [true] [])) =
    some [.busWrite 0x17 [0x04, 0xDE, 0xAD, 0xBE, 0xEF] 250 true] := by decide
/-- W4: allocation is tried first. -/
theorem test_iTx_alloc_fails : (nextOf (exec (.iTx false 0x17 4 [0xDE, 0xAD, 0xBE, 0xEF])
    (engine [false] [] []))).map (fun t => (t.results, t.trace)) =
    some ([⟨.consumer, { code := .errAlloc }⟩], [.alloc 5 false]) := by decide
/-- W13: two failed request writes, then success. -/
theorem test_iRx_retries : (nextOf (exec (.iRx 0x17 3)
    (engine [true] [false, false, true] [some [0, 3, 0x41, 0x42, 0x43]]))).map
    (fun t => (t.results, Memory.readBytes t.rxbuf 0 3, t.attempt)) =
    some ([⟨.consumer, { code := .ok, ravail := some 0, rxbuf := some [0x41, 0x42, 0x43] }⟩],
      [0x41, 0x42, 0x43], 0) := by decide
/-- W15: three consecutive failures, no allocation, no read. -/
theorem test_iRx_gives_up : (nextOf (exec (.iRx 0x17 3) (engine [] [false, false, false] []))).map
    (fun t => (t.results, t.trace)) =
    some ([⟨.consumer, { code := .errWrite }⟩],
      [.busWrite 0x17 [0, 3] 250 false, .busWrite 0x17 [0, 3] 250 false,
        .busWrite 0x17 [0, 3] 250 false]) := by decide

/-! ## The wire frames, in the phases that send them -/

/-- Inside I_TX of `[0x7B, 0x7D]` in `TX_WRITE`. -/
def sending : State :=
  { engine [] [true] [] with
    phase := .txWrite
    consumer := .inI2c (.tx false 0x17 2 [0x7B, 0x7D])
    scratch := some { size := 3, cells := Memory.writeBytes [] 0 [2, 0x7B, 0x7D] } }

/-- Inside I_RX of 3 bytes, `n` request writes made, in phase `p`. -/
def receiving (p : Phase) (n : Nat) (write : List Bool) : State :=
  { engine [] write [] with
    phase := p
    attempt := n
    consumer := .inI2c (.rx 0x17 3) }

/-- Inside I_RX of 3 bytes, waiting for the response. -/
def reading : State := { receiving .rxRead 1 [] with scratch := some { size := 5, cells := [] } }

/-- Inside I_RX of 3 bytes, with a response whose byte 1 is `echoed` in the scratch region. -/
def validating (echoed : Byte) : State :=
  { receiving .rxValidate 1 [] with
    inputs := [.arrow]
    scratch := some { size := 5, cells := Memory.writeBytes [] 0 [2, echoed, 0x41, 0x42, 0x43] } }

/-- P3 step 2. -/
theorem test_frameWrite : transactionsOf (exec (.frameWrite 2 [0x7B, 0x7D]) sending) =
    some [.busWrite 0x17 [2, 0x7B, 0x7D] 250 true] := by decide
/-- The sequencer path of W13 after the first failure. -/
theorem test_frameReadRequest_stays : (nextOf (exec (.frameReadRequest 3)
    (receiving .rxRequest 0 [false]))).map (fun t => (t.phase, t.attempt)) = some (.rxRequest, 1) := by decide
/-- The sequencer path of W15: the third failure returns. -/
theorem test_frameReadRequest_gives_up : (nextOf (exec (.frameReadRequest 3)
    (receiving .rxRequest 2 [false]))).map (fun t => (t.phase, t.attempt, t.results)) =
    some (.idle, 0, [⟨.consumer, { code := .errWrite }⟩]) := by decide
/-- W6. -/
theorem test_frameReadResponse : resultsOf (exec (.frameReadResponse 2 3 [0x41, 0x42, 0x43]) reading) =
    some [⟨.consumer, { code := .ok, ravail := some 2, rxbuf := some [0x41, 0x42, 0x43] }⟩] := by decide
/-- W11: the device echoes 4, RXBUF stays. -/
theorem test_frameReadResponse_mismatch : (nextOf (exec (.frameReadResponse 2 4 [0x41, 0x42, 0x43])
    { reading with rxbuf := Memory.writeBytes [] 0 [0xEE, 0xEE, 0xEE] })).map
    (fun t => (t.results, Memory.readBytes t.rxbuf 0 3)) =
    some ([⟨.consumer, { code := .errLenMismatch }⟩], [0xEE, 0xEE, 0xEE]) := by decide

/-! ## The timing source -/

/-- T1, V24: accepted from power-on. -/
theorem test_tNow : resultsOf (exec .tNow { State.reset with tick := 1000 }) =
    some [⟨.consumer, { code := .ok, rtick := some 1000 }⟩] := by decide
/-- T5: samples `t0 = 100`. -/
theorem test_tSleep : (nextOf (exec (.tSleep 5) { State.reset with tick := 100 })).map
    (fun t => (t.consumer, t.results)) = some (.sleeping 100 5, []) := by decide
/-- T7: across the wrap: held at 3 elapsed, enabled at 4. -/
theorem test_sleep_across_wrap :
    (sleepOrHold 0xFFFFFFFE 4 { State.reset with tick := 1 }).results = [] ∧
    (sleepOrHold 0xFFFFFFFE 4 { State.reset with tick := 2 }).results =
      [⟨.consumer, { code := .ok }⟩] := by decide
/-- T2 and T8. -/
theorem test_tick_wraps : (tickStep { State.reset with tick := 0xFFFFFFFF }).tick = 0 ∧
    (tickStep { State.reset with cfg := { tickW := 40 }, tick := 0xFFFFFFFF }).tick = 0x100000000 ∧
    (tickStep { State.reset with cfg := { tickW := 40 }, tick := 0xFFFFFFFFFF }).tick = 0 := by decide

/-! ## Refusals -/

/-- V20. -/
theorem test_refused_before_reset : refusalOf (exec .sPop State.reset) = some .beforeReset := by decide
/-- V21. -/
theorem test_refused_reserved : refusalOf (exec .reservedB State.reset) = some (.reservedOp 0xB) := by decide
/-- V22. -/
theorem test_refused_absent : refusalOf (exec (.iTx false 0x17 0 [])
    { State.reset with cfg := { transport := .serial } }) = some .absentTransport := by decide
/-- V23, both halves. -/
theorem test_refused_role : refusalOf (exec (.sPush 1) (fifo 0 0 0 [])) = some .wrongRole ∧
    refusalOf (exec .sPop (fifoIn 1 0 0 [])) = some .wrongRole := by decide

/-! ## Witnesses: a concrete state and operands that meet all the hypotheses of a statement together -/

theorem fifo_ready : SerialReady (fifo 3 0 0 [1, 2, 3]) := by constructor <;> decide
theorem fifoIn_ready : SerialReady (fifoIn 3 0 0 [1, 2, 3]) := by constructor <;> decide
theorem empty_ready : SerialReady (fifo 2 2 0 []) := by constructor <;> decide
theorem fifo_may : ConsumerMay .serial (fifo 3 0 0 [1, 2, 3]) := by constructor <;> decide
theorem empty_may : ConsumerMay .serial (fifo 2 2 0 []) := by constructor <;> decide
theorem fifo_idle (fill drain overruns : Nat) (cells : List Byte) :
    ConsumerOk (fifo fill drain overruns cells) := ⟨rfl, rfl, rfl⟩
theorem fifo_inv : MachineInv (fifo 3 0 0 [1, 2, 3]) := by
  constructor <;> first | exact fifo_idle _ _ _ _ | decide | exact fun _ h => nomatch h
theorem empty_inv : MachineInv (fifo 2 2 0 []) := by
  constructor <;> first | exact fifo_idle _ _ _ _ | decide | exact fun _ h => nomatch h
theorem engine_may (a w : List Bool) (r : List (Option (List Byte))) :
    ConsumerMay .i2c (engine a w r) := by constructor <;> rfl
theorem engine_idle (a w : List Bool) (r : List (Option (List Byte))) :
    EngineIdle (engine a w r) := ⟨rfl, rfl, rfl⟩

/-- A power-on state whose unspecified registers are not zero. -/
def anyPowerOn : State :=
  { State.reset with fill := 511, drain := 1, overruns := 2 ^ 32 - 1, tick := 2 ^ 32 - 1, buf := [(511, 7)] }

theorem wit_EveryPowerOnStateMeetsTheInvariant : anyPowerOn.cfg.Ok ∧ PowerOn anyPowerOn := by
  refine ⟨by decide, ?_⟩
  constructor <;> first | exact ⟨rfl, rfl, rfl⟩ | decide
theorem wit_EveryStepKeepsTheInvariant :
    MachineInv { fifo 3 0 0 [1, 2, 3] with inputs := [.byteArrived 4] } ∧
    ∃ t, step { fifo 3 0 0 [1, 2, 3] with inputs := [.byteArrived 4] } = .next t := by
  refine ⟨?_, _, rfl⟩
  constructor <;> first | exact ⟨rfl, rfl, rfl⟩ | decide | exact fun _ h => nomatch h
theorem wit_NoStepFaultsUnderTheInvariant : MachineInv (fifo 3 0 0 [1, 2, 3]) := fifo_inv
theorem wit_StepRunsTheDecodedInstruction :
    ({ State.reset with inputs := [.command .producer { op := 1, data := 5 }] } : State).inputs =
      .command .producer { op := 1, data := 5 } :: [] ∧
    decode State.reset.cfg (.command { op := 1, data := 5 }) = .ok (.sPush 5) ∧
    decode State.reset.cfg (.busReadData [2, 0]) = .ok (.frameReadResponse 2 0 []) := ⟨rfl, rfl, rfl⟩
theorem wit_ArrowsRunTheFramesTheySend :
    (receiving .rxRequest 0 [false]).consumer = .inI2c (.rx 0x17 3) ∧ sending.phase = .txWrite ∧
    sending.consumer = .inI2c (.tx false 0x17 2 [0x7B, 0x7D]) ∧
    ∃ r, sending.scratch = some r ∧
      decode sending.cfg (.busWriteData r.bytes) = .ok (.frameWrite 2 [0x7B, 0x7D]) :=
  ⟨rfl, rfl, rfl, _, rfl, rfl⟩
theorem wit_DecodeOfEncodeIsTheInstruction : WellFormed {} (.frameWrite 1 [0]) = true ∧
    WellFormed {} (.frameWrite 0 []) = true ∧ WellFormed { lenW := 2 } (.sTx true 3 [1, 2, 3]) = true ∧
    WellFormed {} (.iRx 127 255) = true := by decide
theorem wit_AcceptedFramesAreTheirOwnEncoding :
    decode {} (.busWriteData [0]) = .ok (.frameWrite 0 []) ∧
    decode {} (.busWriteData [0, 0]) = .ok (.frameReadRequest 0) ∧
    decode {} (.busReadData [9, 0]) = .ok (.frameReadResponse 9 0 []) := ⟨rfl, rfl, rfl⟩
/-- The two presentations differ only in a port the operation does not use; one op code of each clause. -/
theorem wit_OnlyTheUsedPortsAreDecoded :
    ({ op := 0x2, data := 1 } : Ports) ≠ { op := 0x2 } ∧ ({ op := 0x1, dur := 1 } : Ports) ≠ { op := 0x1 } ∧
    ({ op := 0x4, addr := 1 } : Ports) ≠ { op := 0x4 } ∧ ({ op := 0x9, lenN := 1 } : Ports) ≠ { op := 0x9 } ∧
    ({ op := 0xA, flush := true } : Ports) ≠ { op := 0xA } ∧
    ({ op := 0xD, len8 := 1 } : Ports) ≠ { op := 0xD } := by decide
theorem wit_ReservedAndAbsentOperationsAreRefused :
    (roleAllowed (.iRx 1 1)).isSome = true ∧ blockOf (.iRx 1 1) = some .i2c ∧
    ({ transport := .serial } : Config).has .i2c = false ∧
    (roleAllowed (.sPush 1)).isSome = true ∧ blockOf (.sPush 1) = some .serial ∧
    ({ transport := .i2c } : Config).has .serial = false := by decide
theorem wit_ReservedAndAbsentAreTheGroundsNamedFirst :
    roleAllowed (.iRx 1 1) = some .consumer ∧ blockOf (.iRx 1 1) = some .i2c ∧
    ({ transport := .serial } : Config).has .i2c = false ∧
    roleAllowed (.sPush 1) = some .producer ∧ blockOf (.sPush 1) = some .serial ∧
    ({ transport := .i2c } : Config).has .serial = false := by decide
theorem wit_WrongRoleAndSecondAgentAreRefused :
    roleAllowed .sPop = some .consumer ∧ (fifoIn 1 0 0 [5]).presenter.role ≠ .consumer ∧
    Presenter.isSecond .secondConsumer = true := by decide
theorem wit_OperationsBeforeTheFirstResetAreRefused :
    State.reset.sInit = false ∧ State.reset.iInit = false := by decide
theorem wit_I2cOperationWhileBusyIsRefused : sending.phase ≠ .idle := by decide
theorem wit_BusyConsumerCannotIssueAnOperation : roleAllowed .sReset = some .consumer ∧
    ({ fifo 2 2 0 [] with consumer := .heldPop } : State).consumer ≠ .ready := by decide
theorem wit_SResetEmptiesTheBuffer : ConsumerMay .serial State.reset := by constructor <;> decide
theorem wit_SPushStoresAndEvictsOnOverrun : SerialReady (fifoIn 3 0 0 [1, 2, 3]) ∧
    (fifoIn 3 0 0 [1, 2, 3]).presenter = .producer := ⟨fifoIn_ready, rfl⟩
theorem wit_SPushWritesOnlyTheCellAtFill :
    Memory.wf (fifoIn 3 0 0 [1, 2, 3]).buf ∧ (fifoIn 3 0 0 [1, 2, 3]).rxArmed = true ∧
    (∃ t, exec (.sPush 4) (fifoIn 3 0 0 [1, 2, 3]) = .next t) ∧
    ∃ t, exec (.sPush 4) { fifoIn 3 0 0 [1, 2, 3] with rxArmed := false } = .next t :=
  ⟨by decide, rfl, ⟨_, rfl⟩, ⟨_, rfl⟩⟩
theorem wit_SAvailReturnsWhetherAByteIsRetained :
    ConsumerMay .serial (fifo 3 0 0 [1, 2, 3]) ∧ (fifo 3 0 0 [1, 2, 3]).sInit = true := ⟨fifo_may, rfl⟩
theorem wit_SPopReturnsTheOldestByte : SerialReady (fifo 3 0 0 [1, 2, 3]) ∧
    ConsumerMay .serial (fifo 3 0 0 [1, 2, 3]) ∧
    (fifo 3 0 0 [1, 2, 3]).fill ≠ (fifo 3 0 0 [1, 2, 3]).drain := ⟨fifo_ready, fifo_may, by decide⟩
theorem wit_SPopHoldsUntilAPush : SerialReady (fifo 2 2 0 []) ∧ Memory.wf (fifo 2 2 0 []).buf ∧
    ConsumerMay .serial (fifo 2 2 0 []) ∧ (fifo 2 2 0 []).fill = (fifo 2 2 0 []).drain :=
  ⟨empty_ready, by decide, empty_may, rfl⟩
/-- Both scripts of the statement's clauses can be given. -/
theorem wit_STxHandsTheBytesToTheLine :
    ConsumerMay .serial { fifo 2 2 0 [] with answers := { line := [.ok] } } ∧
    ConsumerMay .serial { fifo 2 2 0 [] with answers := { line := [.fail 0] } } ∧
    (fifo 2 2 0 []).sInit = true := ⟨by constructor <;> decide, by constructor <;> decide, rfl⟩
theorem wit_SOvrReturnsTheOverrunCount :
    ConsumerMay .serial (fifo 3 0 0 [1, 2, 3]) ∧ (fifo 3 0 0 [1, 2, 3]).sInit = true := ⟨fifo_may, rfl⟩
theorem wit_DerivedConditionsFollowTheIndices : SerialReady (fifo 3 0 0 [1, 2, 3]) ∧
    avail (fifo 3 0 0 [1, 2, 3]) = true ∧ (∃ t, exec .sReset (fifo 3 0 0 [1, 2, 3]) = .next t) ∧
    (∃ t, exec .sPop (fifo 3 0 0 [1, 2, 3]) = .next t) ∧
    ∃ t, exec (.sPush 4) (fifoIn 3 0 0 [1, 2, 3]) = .next t :=
  ⟨fifo_ready, by decide, ⟨_, rfl⟩, ⟨_, rfl⟩, ⟨_, rfl⟩⟩
/-- The queue at `C-1`, below it, and empty. -/
theorem wit_OperationsActOnTheQueue : SerialReady (fifoIn 3 0 0 [1, 2, 3]) ∧
    queue (fifoIn 3 0 0 [1, 2, 3]) = [1, 2, 3] ∧ queue (fifo 1 3 0 [0x32, 0, 0, 0x31]) = [0x31, 0x32] ∧
    queue (fifo 2 2 0 []) = [] ∧ SerialReady (fifo 2 2 0 []) := ⟨fifoIn_ready, by decide, by decide, by decide, empty_ready⟩
/-- A full buffer; the other memory differs in the cell at `fill`. -/
theorem wit_ProducerAndConsumerNeverTouchTheSameCell : SerialReady (fifo 3 0 0 [1, 2, 3]) ∧
    (fifo 3 0 0 [1, 2, 3]).fill ≠ (fifo 3 0 0 [1, 2, 3]).drain ∧
    SerialReady (fifoIn 3 0 0 [1, 2, 3]) ∧ Memory.wf (fifoIn 3 0 0 [1, 2, 3]).buf ∧
    (∃ t, exec (.sPush 4) (fifoIn 3 0 0 [1, 2, 3]) = .next t) ∧ Live (fifoIn 3 0 0 [1, 2, 3]) 2 ∧
    Memory.read [(0, 1), (3, 9)] (fifo 3 0 0 [1, 2, 3]).drain =
      Memory.read (fifo 3 0 0 [1, 2, 3]).buf (fifo 3 0 0 [1, 2, 3]).drain ∧
    ∃ t, exec .sPop (fifo 3 0 0 [1, 2, 3]) = .next t :=
  ⟨fifo_ready, by decide, fifoIn_ready, by decide, ⟨_, rfl⟩, ⟨2, by decide, by decide⟩, by decide, _, rfl⟩
/-- `fill = C-1` with `drain = 0` (full) and with `drain = 1` (one slot left), R110. -/
theorem wit_NoIndexPositionIsSpecial : SerialReady (fifoIn 3 0 0 [1, 2, 3]) ∧
    occ (fifoIn 3 0 0 [1, 2, 3]) = (fifoIn 3 0 0 [1, 2, 3]).cfg.c - 1 ∧
    SerialReady (fifoIn 3 1 0 []) ∧ occ (fifoIn 3 1 0 []) = (fifoIn 3 1 0 []).cfg.c - 2 :=
  ⟨fifoIn_ready, by decide, by constructor <;> decide, by decide⟩
theorem wit_OverrunKeepsTheMostRecentBytes : SerialReady (fifo 0 0 0 []) ∧
    Memory.wf (fifo 0 0 0 []).buf := ⟨by constructor <;> decide, by decide⟩
/-- The buffer is empty after a byte was pushed and popped: a later interval. -/
def emptyAgain : State :=
  { fifo 2 2 0 [] with results := [⟨.consumer, { code := .ok, rbyte := some 7 }⟩] }
theorem emptyAgain_inv : MachineInv emptyAgain := by
  constructor <;> first | exact ⟨rfl, rfl, rfl⟩ | decide | exact fun _ h => nomatch h
theorem wit_BytesAreDeliveredInOrder : MachineInv emptyAgain ∧ poppedBytes emptyAgain = [7] ∧
    ∃ t, steps 3 { emptyAgain with inputs :=
      [.byteArrived 1, .command .consumer { op := 3 }, .tick] } = .next t := ⟨emptyAgain_inv, rfl, _, rfl⟩
theorem wit_WithoutOverrunPopsReturnTheFirstPushes : MachineInv emptyAgain ∧
    1 ≤ emptyAgain.cfg.ovrW ∧
    (nextOf (steps 2 { emptyAgain with inputs :=
      [.byteArrived 1, .command .consumer { op := 3 }] })).map (·.overruns) = some 0 :=
  ⟨emptyAgain_inv, by decide, by decide⟩
theorem wit_TrueAvailMeansThePopDoesNotHold : MachineInv (fifo 3 0 0 [1, 2, 3]) ∧
    ConsumerMay .serial (fifo 3 0 0 [1, 2, 3]) ∧ avail (fifo 3 0 0 [1, 2, 3]) = true ∧
    Event.isEnvironmentStep (.byteArrived 4) ∧ Event.isEnvironmentStep .tick :=
  ⟨fifo_inv, fifo_may, by decide, .inl ⟨_, rfl⟩, .inr rfl⟩
theorem wit_STxCommutesWithAPush : SerialReady (fifo 3 0 0 [1, 2, 3]) ∧
    (fifo 3 0 0 [1, 2, 3]).consumer = .ready ∧ ({ op := 0x4 } : Ports).op = 0x4 := ⟨fifo_ready, rfl, rfl⟩
theorem wit_BothOrdersOfPushAndPopAreRuns : SerialReady (fifo 3 0 0 [1, 2, 3]) ∧
    Memory.wf (fifo 3 0 0 [1, 2, 3]).buf ∧ full (fifo 3 0 0 [1, 2, 3]) = true ∧
    queue (fifo 3 0 0 [1, 2, 3]) = 1 :: 2 :: [3] ∧ 3 ≤ (fifo 3 0 0 [1, 2, 3]).cfg.c :=
  ⟨fifo_ready, by decide, by decide, by decide, by decide⟩
theorem wit_ArrivingByteIsPushedOrLost : (fifo 0 0 0 []).rxArmed = true ∧ State.reset.rxArmed = false :=
  ⟨rfl, rfl⟩
/-- The consumer held in S_POP does not stop reception either. -/
theorem wit_ReceptionCannotStall :
    MachineInv { fifo 2 2 0 [] with consumer := .heldPop, inputs := [.byteArrived 4] } := by
  constructor <;> first | exact ⟨⟨rfl, rfl, rfl⟩, rfl⟩ | decide | exact fun _ h => nomatch h
theorem wit_IResetReturnsTheEngineToIdle : ConsumerMay .i2c State.reset ∧ State.reset.phase = .idle ∧
    State.reset.scratch = none := ⟨by constructor <;> decide, rfl, rfl⟩
/-- Both answers of the allocator and of the bus. -/
theorem wit_ITxSendsTheWriteFrameOnce : ConsumerMay .i2c (engine [true] [false] []) ∧
    EngineIdle (engine [true] [false] []) ∧ (engine [true] [false] []).iInit = true ∧
    ConsumerMay .i2c (engine [false] [true] []) ∧ EngineIdle (engine [false] [true] []) :=
  ⟨engine_may _ _ _, engine_idle _ _ _, rfl, engine_may _ _ _, engine_idle _ _ _⟩
/-- W13: the last of the three attempts succeeds. -/
theorem wit_IRxReturnsPayloadAndBacklog :
    ∃ s : State, ConsumerMay .i2c s ∧ EngineIdle s ∧ s.iInit = true ∧ 2 < s.cfg.i2cReqAttempts ∧
      ([0x41, 0x42, 0x43] : List Byte).length = (3 : Byte).toNat ∧
      s.answers.write = List.replicate 2 false ++ true :: [] ∧ s.answers.alloc = true :: [] ∧
      s.answers.read = some (0 :: 3 :: [0x41, 0x42, 0x43]) :: [] :=
  ⟨engine [true] [false, false, true] [some [0, 3, 0x41, 0x42, 0x43]],
    engine_may _ _ _, engine_idle _ _ _, rfl, by decide, rfl, rfl, rfl, rfl⟩
/-- W12: the check applies at length 0 too. -/
theorem wit_IRxRejectsAnotherEchoedLength :
    ∃ s : State, ConsumerMay .i2c s ∧ EngineIdle s ∧ s.iInit = true ∧ 0 < s.cfg.i2cReqAttempts ∧
      ([] : List Byte).length = (0 : Byte).toNat ∧ (1 : Byte) ≠ 0 ∧
      s.answers.write = List.replicate 0 false ++ true :: [] ∧ s.answers.alloc = true :: [] ∧
      s.answers.read = some (5 :: 1 :: []) :: [] :=
  ⟨engine [true] [true] [some [5, 1]],
    engine_may _ _ _, engine_idle _ _ _, rfl, by decide, rfl, by decide, rfl, rfl, rfl⟩
/-- W15, W16, W18: one clause each. -/
theorem wit_IRxReportsTheFirstFailure :
    (engine [] [false, false, false] []).answers.write = List.replicate 3 false ++ [] ∧
    (engine [false] [true] []).answers.write = List.replicate 0 false ++ true :: [] ∧
    (engine [true] [false, false, true] [none]).answers.write = List.replicate 2 false ++ true :: [] ∧
    (engine [true] [false, false, true] [none]).answers.read = none :: [] ∧
    ConsumerMay .i2c (engine [] [false, false, false] []) ∧ EngineIdle (engine [false] [true] []) :=
  ⟨rfl, rfl, rfl, rfl, engine_may _ _ _, engine_idle _ _ _⟩
/-- The script may be empty: then the answers are free. -/
theorem wit_IRxAlwaysCompletes : ConsumerMay .i2c (engine [] [] []) ∧ EngineIdle (engine [] [] []) ∧
    (engine [] [] []).iInit = true := ⟨engine_may _ _ _, engine_idle _ _ _, rfl⟩
theorem wit_IRxWritesOnlyTheRequestedBytes : Memory.wf (engine [] [] []).rxbuf ∧
    ∃ t, exec (.iRx 0x17 3) (engine [] [] []) = .next t := ⟨by decide, _, rfl⟩
/-- With free answers, and with one request write that fails before the read. -/
theorem wit_IRxTransactionCounts : 1 ≤ (engine [] [] []).cfg.i2cReqAttempts ∧
    (∃ t, exec (.iRx 0x17 0) (engine [] [] []) = .next t) ∧
    (nextOf (exec (.iRx 0x17 0) (engine [true] [false, true] [some [0, 0]]))).map
      (fun t => t.trace.countP EnvCall.isBusRead) = some 1 := ⟨by decide, ⟨_, rfl⟩, by decide⟩
theorem wit_StepwiseAndAtomicReadingsAgree : 1 ≤ State.reset.cfg.i2cReqAttempts ∧
    ({ op := 0x9 } : Ports).op = 0x9 ∧ ({ op := 0xA } : Ports).op = 0xA := by decide
theorem wit_FrameWriteEndsTheTransmit : sending.consumer = .inI2c (.tx false 0x17 2 [0x7B, 0x7D]) ∧
    sending.phase = .txWrite ∧ sending.scratchBytes = 2 :: [0x7B, 0x7D] := by decide
/-- The three answers: ok, a failure that stays, the failure that uses up the attempts. -/
theorem wit_FrameReadRequestIsOneAttempt :
    (receiving .rxRequest 2 [true]).consumer = .inI2c (.rx 0x17 3) ∧
    (receiving .rxRequest 2 [true]).phase = .rxRequest ∧
    (receiving .rxRequest 1 [false]).attempt + 1 < (receiving .rxRequest 1 [false]).cfg.i2cReqAttempts ∧
    (receiving .rxRequest 2 [false]).cfg.i2cReqAttempts ≤ (receiving .rxRequest 2 [false]).attempt + 1 := by
  decide
/-- The frame arrives; the response is in the scratch region, with the length asked for and another. -/
theorem wit_FrameReadResponseIsAcceptedIffEchoed : reading.consumer = .inI2c (.rx 0x17 3) ∧
    reading.phase = .rxRead ∧ (∃ r, reading.scratch = some r ∧ r.size = (3 : Byte).toNat + 2 ∧
      Memory.wf r.cells) ∧ ([0x41, 0x42, 0x43] : List Byte).length = (3 : Byte).toNat ∧
    (validating 3).inputs = .arrow :: [] ∧ (validating 3).phase = .rxValidate ∧
    (validating 3).consumer = .inI2c (.rx 0x17 3) ∧
    (∃ r, (validating 3).scratch = some r ∧ r.bytes = 2 :: 3 :: [0x41, 0x42, 0x43]) ∧
    ∃ r, (validating 4).scratch = some r ∧ r.bytes = 2 :: 4 :: [0x41, 0x42, 0x43] :=
  ⟨rfl, rfl, ⟨_, rfl, rfl, by decide⟩, rfl, rfl, rfl, rfl, ⟨_, rfl, by decide⟩, _, rfl, by decide⟩
theorem wit_FramesOutsideAnOperationAreRefused : (engine [] [] []).phase = .idle := rfl
theorem wit_TNowReturnsTheTick : State.reset.presenter = .consumer ∧ State.reset.consumer = .ready := by
  decide
/-- Held at one tick below the duration, enabled at it. -/
theorem wit_TSleepBlocksForAtLeastItsDuration :
    State.reset.presenter = .consumer ∧ State.reset.consumer = .ready ∧
    elapsed {} 0xFFFFFFFE 1 < 4 ∧ 4 ≤ elapsed {} 0xFFFFFFFE 2 := by decide
theorem wit_TickAddsOneAndWraps : ({ State.reset with inputs := [.tick] } : State).inputs = .tick :: [] := rfl
theorem wit_ElapsedTimeIsExactAcrossTheWrap :
    (0xFFFFFFF0 : Nat) < 2 ^ State.reset.cfg.tickW ∧ 0x20 < 2 ^ State.reset.cfg.tickW := by decide
theorem wit_OnlyTheTickerWritesTheTick : ∃ t, step { State.reset with inputs := [.tick] } = .next t ∧
    t.tick ≠ State.reset.tick := ⟨_, rfl, by decide⟩
theorem wit_WritersOfTheSerialState : (∃ t, exec .sPop (fifo 3 0 0 [1, 2, 3]) = .next t) ∧
    full (fifoIn 2 0 0 [1, 2]) = false ∧ ∃ t, exec (.sPush 3) (fifoIn 2 0 0 [1, 2]) = .next t :=
  ⟨⟨_, rfl⟩, by decide, ⟨_, rfl⟩⟩
theorem wit_BlocksShareNoState : (∃ t, exec (.iRx 0x17 0) (engine [] [] []) = .next t) ∧
    (∃ t, exec (.frameWrite 2 [0x7B, 0x7D]) sending = .next t) ∧
    ∃ t, exec .sPop (fifo 3 0 0 [1, 2, 3]) = .next t := ⟨⟨_, rfl⟩, ⟨_, rfl⟩, ⟨_, rfl⟩⟩
theorem wit_ConfigurationAndInitBitsPersist : (∃ t, step (fifo 3 0 0 [1, 2, 3]) = .next t) ∧
    (fifo 3 0 0 [1, 2, 3]).sInit = true ∧ (engine [] [] []).iInit = true := ⟨⟨_, rfl⟩, rfl, rfl⟩
theorem wit_PureReadsRepeat : (∃ t, exec .sAvail (fifo 3 0 0 [1, 2, 3]) = .next t) ∧
    (∃ t, exec .sOvr (fifo 3 0 0 [1, 2, 3]) = .next t) ∧ ∃ t, exec .tNow State.reset = .next t :=
  ⟨⟨_, rfl⟩, ⟨_, rfl⟩, ⟨_, rfl⟩⟩

end Sys2Proof.Machine
end

section
/-! PROOFS. What crosses from one block to another, and from `exec` to `step` (spec/00_scope.md R7, R8,
spec/10_state.md R30, R33, R34). -/

namespace Sys2Proof.Machine

/-! ## A step runs the decoded instruction -/

/-- Settles O6: both events are presentations that `handle` decodes and runs at the state from which the
event is taken. -/
theorem stepRunsTheDecodedInstruction : Obligations.StepRunsTheDecodedInstruction := by
  unfold Obligations.StepRunsTheDecodedInstruction
  constructor
  · intro s who p rest i hin hdec
    have hi : decodeCommand s.cfg p = i := Except.ok.inj hdec
    rw [step_event hin, handle_command, hi]
  · intro s bytes rest i hin hdec
    rw [step_event hin, handle_busResponse]
    exact runDecoded_ok hdec

/-! ## The frames of the two transports -/

/-- Two states agree on everything outside the I2C transport, `i_init` and `RXBUF` included in it: the
serial FIFO block, the timing source, the configuration, what drives the machine (R7, R33, R34). -/
structure SameOutsideI2c (s t : State) : Prop where
  buf : t.buf = s.buf
  fill : t.fill = s.fill
  drain : t.drain = s.drain
  overruns : t.overruns = s.overruns
  rxArmed : t.rxArmed = s.rxArmed
  sInit : t.sInit = s.sInit
  tick : t.tick = s.tick
  cfg : t.cfg = s.cfg
  inputs : t.inputs = s.inputs
  presenter : t.presenter = s.presenter

/-- Two states agree on everything outside the serial FIFO block: the I2C transport, the timing source,
the configuration, what drives the machine (R7, R30, R33, R34). -/
structure SameOutsideSerial (s t : State) : Prop where
  iInit : t.iInit = s.iInit
  phase : t.phase = s.phase
  attempt : t.attempt = s.attempt
  scratch : t.scratch = s.scratch
  rxbuf : t.rxbuf = s.rxbuf
  tick : t.tick = s.tick
  cfg : t.cfg = s.cfg
  inputs : t.inputs = s.inputs
  presenter : t.presenter = s.presenter

theorem SameOutsideSerial.refl (s : State) : SameOutsideSerial s s :=
  ⟨rfl, rfl, rfl, rfl, rfl, rfl, rfl, rfl, rfl⟩

/-- What the engine's sequencer leaves alone includes all that lies outside the transport. -/
theorem SameOutsideEngine.sameOutsideI2c {s t : State} (h : SameOutsideEngine s t) :
    SameOutsideI2c s t :=
  ⟨h.buf, h.fill, h.drain, h.overruns, h.rxArmed, h.sInit, h.tick, h.cfg, h.inputs, h.presenter⟩

theorem i2cReset_sameOutsideI2c (s : State) : SameOutsideI2c s (i2cReset s) := by
  constructor <;> simp

theorem ret_sameOutsideSerial (s : State) (r : Role) (res : Result) :
    SameOutsideSerial s (s.ret r res) := by constructor <;> simp

theorem setConsumer_sameOutsideSerial (s : State) (c : Consumer) :
    SameOutsideSerial s { s with consumer := c } := by constructor <;> rfl

theorem serialReset_sameOutsideSerial (s : State) : SameOutsideSerial s (serialReset s) := by
  constructor <;> simp

theorem pushByte_sameOutsideSerial (b : Byte) (s : State) : SameOutsideSerial s (pushByte b s) := by
  constructor <;> simp

theorem popByte_sameOutsideSerial (s : State) : SameOutsideSerial s (popByte s) := by
  constructor <;> simp

theorem serialTransmit_sameOutsideSerial (flush : Bool) (lenN : Nat) (txbuf : List Byte) (s : State) :
    SameOutsideSerial s (serialTransmit flush lenN txbuf s) := by constructor <;> simp

/-- I_RESET, I_TX, I_RX and the frames on the bus leave everything outside the I2C transport alone. -/
theorem exec_sameOutsideI2c {i : Instr} {s t : State} (hb : blockOf i = some .i2c)
    (h : exec i s = .next t) : SameOutsideI2c s t := by
  cases i with
  | iReset =>
    rw [exec_iReset] at h
    cases (guarded_next h).2
    exact i2cReset_sameOutsideI2c s
  | iTx flush addr len8 txbuf =>
    rw [exec_iTx] at h
    cases (guarded_next h).2
    exact (i2cTransmit_same flush addr len8 txbuf s).sameOutsideI2c
  | iRx addr len8 =>
    rw [exec_iRx] at h
    cases (guarded_next h).2
    exact (i2cReceive_same addr len8 s).sameOutsideI2c
  | frameWrite length payload => exact (exec_frame_same (.inl ⟨_, _, rfl⟩) h).sameOutsideI2c
  | frameReadRequest length => exact (exec_frame_same (.inr (.inl ⟨_, rfl⟩)) h).sameOutsideI2c
  | frameReadResponse available echoed payload =>
    exact (exec_frame_same (.inr (.inr ⟨_, _, _, rfl⟩)) h).sameOutsideI2c
  | _ => cases hb

/-- Every operation that is not of the I2C transport leaves everything outside the serial FIFO block
alone; a reserved op code has no next state. -/
theorem exec_sameOutsideSerial {i : Instr} {s t : State} (hb : blockOf i ≠ some .i2c)
    (h : exec i s = .next t) : SameOutsideSerial s t := by
  cases i with
  | sReset =>
    rw [exec_sReset] at h
    cases (guarded_next h).2
    exact serialReset_sameOutsideSerial s
  | sPush data =>
    obtain ⟨-, ⟨-, rfl⟩ | ⟨-, -, rfl⟩⟩ := exec_sPush_next h
    · exact SameOutsideSerial.refl _
    · exact pushByte_sameOutsideSerial data s
  | sPop =>
    obtain ⟨-, ⟨-, rfl⟩ | ⟨-, -, rfl⟩⟩ := exec_sPop_next h
    · exact setConsumer_sameOutsideSerial s _
    · exact popByte_sameOutsideSerial s
  | sTx flush lenN txbuf =>
    rw [exec_sTx] at h
    cases (guarded_next h).2
    exact serialTransmit_sameOutsideSerial flush lenN txbuf s
  | sAvail =>
    rw [exec_sAvail] at h
    cases (guarded_next h).2
    exact ret_sameOutsideSerial s _ _
  | sOvr =>
    rw [exec_sOvr] at h
    cases (guarded_next h).2
    exact ret_sameOutsideSerial s _ _
  | tNow =>
    rw [exec_tNow] at h
    cases (guarded_next h).2
    exact ret_sameOutsideSerial s _ _
  | tSleep dur =>
    rw [exec_tSleep] at h
    cases (guarded_next h).2
    exact setConsumer_sameOutsideSerial s _
  | reserved6 | reserved7 | reservedB | reservedE | reservedF => simp [exec_reserved] at h
  | iReset | iTx | iRx | frameWrite | frameReadRequest | frameReadResponse => exact absurd rfl hb

/-- Settles O57, by the frame of the transport the instruction belongs to; what no operation writes is
in both frames. -/
theorem blocksShareNoState : Obligations.BlocksShareNoState := by
  unfold Obligations.BlocksShareNoState
  intro i s t h
  by_cases hb : blockOf i = some .i2c
  · have k := exec_sameOutsideI2c hb h
    exact ⟨fun _ => ⟨k.buf, k.fill, k.drain, k.overruns, k.rxArmed, k.sInit⟩, fun hn => absurd hb hn,
      k.tick, k.cfg, k.inputs, k.presenter⟩
  · have k := exec_sameOutsideSerial hb h
    exact ⟨fun hi => absurd hi hb, fun _ => ⟨k.iInit, k.phase, k.attempt, k.scratch, k.rxbuf⟩,
      k.tick, k.cfg, k.inputs, k.presenter⟩

end Sys2Proof.Machine
end

section
/-! PROOFS. Every step of every agent keeps the invariant of the machine (spec/10_state.md R21 to R33,
spec/20_memory.md R50, spec/41_i2c_framing.md R133 to R135). -/

namespace Sys2Proof.Machine

/-! ## The recorded calls of environment primitives -/

/-- Every recorded call is as its contract says (R107, R133, R134). -/
def TraceOk (s : State) : Prop := ∀ c ∈ s.trace, c.Ok

/-- An operation that only adds records within their contracts keeps the trace so. -/
theorem TraceOk.append {s t : State} {cs : List EnvCall} (h : TraceOk s)
    (e : t.trace = s.trace ++ cs) (hc : ∀ c ∈ cs, c.Ok) : TraceOk t := by
  intro c hm
  rw [e, List.mem_append] at hm
  exact hm.elim (h c) (hc c)

@[simp] theorem EnvCall.ok_lineDeinit : EnvCall.lineDeinit.Ok := trivial
@[simp] theorem EnvCall.ok_lineInit : EnvCall.lineInit.Ok := trivial
@[simp] theorem EnvCall.ok_lineArmRx : EnvCall.lineArmRx.Ok := trivial
@[simp] theorem EnvCall.ok_busDeinit : EnvCall.busDeinit.Ok := trivial
@[simp] theorem EnvCall.ok_busInit : EnvCall.busInit.Ok := trivial
@[simp] theorem EnvCall.ok_free : EnvCall.free.Ok := trivial
@[simp] theorem EnvCall.ok_busWrite (addr : Nat) (bytes : List Byte) (ms : Nat) (ok : Bool) :
    (EnvCall.busWrite addr bytes ms ok).Ok := trivial

/-- A region of a write frame has 1 to 256 bytes (R84). -/
@[simp] theorem EnvCall.ok_alloc_writeFrameSize (len8 : Byte) (ok : Bool) :
    (EnvCall.alloc (writeFrameSize len8) ok).Ok := by
  have := len8.isLt
  exact ⟨by unfold writeFrameSize; omega, by unfold writeFrameSize; omega⟩

/-- A region of a response has 2 to 257 bytes (R84). -/
@[simp] theorem EnvCall.ok_alloc_responseSize (len8 : Byte) (ok : Bool) :
    (EnvCall.alloc (responseSize len8) ok).Ok := by
  have := len8.isLt
  exact ⟨by unfold responseSize; omega, by unfold responseSize; omega⟩

/-- The drawn answer of a `BusRead` is within its contract (R133). -/
@[simp] theorem EnvCall.ok_busRead (addr n ms : Nat) (s : State) :
    (EnvCall.busRead addr n ms (readAnswer n s)).Ok := by
  cases h : readAnswer n s with
  | none => trivial
  | some bytes => exact readAnswer_length h

/-- The drawn answer of a `LineTx` is within its contract (R107). -/
@[simp] theorem EnvCall.ok_lineTx (bytes : List Byte) (flush : Bool) (ms n : Nat) (s : State)
    (hn : n = bytes.length) : (EnvCall.lineTx bytes flush ms (lineAnswer n s)).Ok := by
  subst hn
  unfold lineAnswer
  split
  · trivial
  · exact Nat.min_le_right _ _
  · split
    · trivial
    · exact Nat.min_le_right _ _

/-! ## The consumer and the sequencer -/

/-- Outside the multi-step reading the engine is at rest. -/
theorem ConsumerOk.idle {s : State} (h : ConsumerOk s) (hc : ∀ op, s.consumer ≠ .inI2c op) :
    EngineIdle s := by
  unfold ConsumerOk at h
  split at h
  · exact h
  · exact h.1
  · exact h.1
  · exact absurd ‹_› (hc _)

theorem ConsumerOk.of_ready {s : State} (hc : s.consumer = .ready) (h : EngineIdle s) :
    ConsumerOk s := by
  unfold ConsumerOk; rw [hc]; exact h

theorem ConsumerOk.of_heldPop {s : State} (hc : s.consumer = .heldPop) (h : EngineIdle s)
    (hi : s.sInit = true) : ConsumerOk s := by
  unfold ConsumerOk; rw [hc]; exact ⟨h, hi⟩

theorem ConsumerOk.of_sleeping {s : State} {t0 dur : Nat} (hc : s.consumer = .sleeping t0 dur)
    (h : EngineIdle s) (ht : t0 < 2 ^ s.cfg.tickW) : ConsumerOk s := by
  unfold ConsumerOk; rw [hc]; exact ⟨h, ht⟩

theorem ConsumerOk.of_inI2c {s : State} {op : I2cOp} (hc : s.consumer = .inI2c op)
    (hi : s.iInit = true) (h : SequencerOk s op) : ConsumerOk s := by
  unfold ConsumerOk; rw [hc]; exact ⟨hi, h⟩

/-- Inside an I2C operation the block is initialised and the sequencer is coherent (R135). -/
theorem ConsumerOk.sequencer {s : State} {op : I2cOp} (h : ConsumerOk s)
    (hc : s.consumer = .inI2c op) : s.iInit = true ∧ SequencerOk s op := by
  unfold ConsumerOk at h; rwa [hc] at h

/-- Two states agree on the sequencer and on where the consumer is; `s_init` is not cleared. -/
structure SameSequencer (s t : State) : Prop where
  cfg : t.cfg = s.cfg
  sInit : s.sInit = true → t.sInit = true
  iInit : t.iInit = s.iInit
  phase : t.phase = s.phase
  attempt : t.attempt = s.attempt
  scratch : t.scratch = s.scratch
  consumer : t.consumer = s.consumer

theorem EngineIdle.congr {s t : State} (h : EngineIdle s) (hp : t.phase = s.phase)
    (ha : t.attempt = s.attempt) (hs : t.scratch = s.scratch) : EngineIdle t :=
  ⟨hp.trans h.phase, ha.trans h.attempt, hs.trans h.scratch⟩

theorem SequencerOk.congr {s t : State} (k : SameSequencer s t) {op : I2cOp} (h : SequencerOk s op) :
    SequencerOk t op := by
  cases op <;>
    simpa only [SequencerOk, ScratchOf, State.scratchBytes, k.phase, k.attempt, k.scratch, k.cfg] using h

theorem ConsumerOk.congr {s t : State} (h : ConsumerOk s) (k : SameSequencer s t) : ConsumerOk t := by
  have hi := fun hc => (h.idle hc).congr k.phase k.attempt k.scratch
  cases hc : s.consumer with
  | ready => exact .of_ready (k.consumer.trans hc) (hi (by simp [hc]))
  | heldPop =>
    have hs : EngineIdle s ∧ s.sInit = true := by simpa only [ConsumerOk, hc] using h
    exact .of_heldPop (k.consumer.trans hc) (hi (by simp [hc])) (k.sInit hs.2)
  | sleeping t0 dur =>
    have hs : EngineIdle s ∧ t0 < 2 ^ s.cfg.tickW := by simpa only [ConsumerOk, hc] using h
    exact .of_sleeping (k.consumer.trans hc) (hi (by simp [hc])) (by rw [k.cfg]; exact hs.2)
  | inI2c op =>
    obtain ⟨hi, hs⟩ := h.sequencer hc
    exact .of_inI2c (k.consumer.trans hc) (k.iInit.trans hi) (hs.congr k)

/-! ## The operations of the serial FIFO block and the timing source -/

/-- An index below `C` fits the width of `fill` and `drain` (R6). -/
theorem lt_two_pow_idxW {k : Config} {i : Nat} (h : i < k.c) : i < 2 ^ k.idxW := by
  have : k.c - 1 < 2 ^ k.idxW := Nat.lt_log2_self
  omega

theorem MachineInv.cells_pos {s : State} (h : MachineInv s) : 0 < s.cfg.c :=
  Nat.lt_of_lt_of_le Nat.two_pos h.cfgOk.1

/-- The events still to come and the presenter are no part of the invariant. -/
theorem MachineInv.withDriver {s : State} (h : MachineInv s) (es : List Event) (who : Presenter) :
    MachineInv { s with inputs := es, presenter := who } :=
  { h with consumerOk := h.consumerOk.congr ⟨rfl, id, rfl, rfl, rfl, rfl, rfl⟩ }

/-- Returning a result keeps the invariant. -/
theorem MachineInv.ret {s : State} (h : MachineInv s) (r : Role) (res : Result) :
    MachineInv (s.ret r res) :=
  { h with consumerOk := h.consumerOk.congr ⟨rfl, id, rfl, rfl, rfl, rfl, rfl⟩ }

/-- The consumer moves to where the sequencer lets it be. -/
theorem MachineInv.setConsumer {s : State} (h : MachineInv s) {c : Consumer}
    (hc : ConsumerOk { s with consumer := c }) : MachineInv { s with consumer := c } :=
  { h with consumerOk := hc }

theorem MachineInv.tickStep {s : State} (h : MachineInv s) : MachineInv (tickStep s) :=
  { h with
    tickWidth := tickNext_lt s.cfg s.tick
    consumerOk := h.consumerOk.congr ⟨rfl, id, rfl, rfl, rfl, rfl, rfl⟩ }

theorem MachineInv.serialTransmit {s : State} (h : MachineInv s) (flush : Bool) (lenN : Nat)
    (txbuf : List Byte) : MachineInv (serialTransmit flush lenN txbuf s) :=
  { h with
    consumerOk := h.consumerOk.congr ⟨rfl, id, rfl, rfl, rfl, rfl, rfl⟩
    traceOk := TraceOk.append (s := s) h.traceOk rfl (by simp) }

/-- S_RESET in a build that has the block makes every index 0 and the line armed (R100, R27). -/
theorem MachineInv.serialReset {s : State} (h : MachineInv s) (hb : s.cfg.has .serial = true) :
    MachineInv (serialReset s) :=
  { h with
    fillWidth := Nat.two_pow_pos _
    drainWidth := Nat.two_pow_pos _
    overrunsWidth := Nat.two_pow_pos _
    fillRange := fun _ => h.cells_pos
    drainRange := fun _ => h.cells_pos
    armed := rfl
    serialBuilt := fun _ => hb
    consumerOk := h.consumerOk.congr ⟨rfl, fun _ => rfl, rfl, rfl, rfl, rfl, rfl⟩
    traceOk := TraceOk.append (cs := [.lineDeinit, .lineInit, .lineArmRx]) h.traceOk (by simp)
      (by simp) }

/-- The one store of S_PUSH (R101). -/
theorem pushByte_buf (s : State) (b : Byte) : (pushByte b s).buf = Memory.write s.buf s.fill b := by
  simp

/-- S_PUSH at a `fill` in range stores inside `BUF` and moves both indices inside it (R101, R106, R27). -/
theorem MachineInv.pushByte {s : State} (h : MachineInv s) (hi : s.sInit = true) (b : Byte) :
    MachineInv (pushByte b s) := by
  have hfill := idxNext_lt s.cfg s.fill h.cells_pos
  have hdrain : (if full s then idxNext s.cfg s.drain else s.drain) < s.cfg.c := by
    split
    · exact idxNext_lt _ _ h.cells_pos
    · exact h.drainRange hi
  have hover : (if full s then satInc s.cfg s.overruns else s.overruns) < 2 ^ s.cfg.ovrW := by
    split
    · exact satInc_lt _ _ h.overrunsWidth
    · exact h.overrunsWidth
  exact {
    cfgOk := by simpa using h.cfgOk
    fillWidth := by simpa using lt_two_pow_idxW hfill
    drainWidth := by simpa using lt_two_pow_idxW hdrain
    overrunsWidth := by simpa using hover
    tickWidth := by simpa using h.tickWidth
    fillRange := by simpa using fun _ => hfill
    drainRange := by simpa using fun _ => hdrain
    armed := by simp [hi]
    serialBuilt := by simpa using h.serialBuilt
    i2cBuilt := by simpa using h.i2cBuilt
    bufWf := by rw [pushByte_buf]; exact Memory.write_wf _ _ _ h.bufWf
    bufRange := fun c hm => by
      rw [pushByte_buf] at hm
      rcases Memory.mem_write hm with ⟨rfl, -⟩ | hm
      · simpa using h.fillRange hi
      · simpa using h.bufRange c hm
    rxbufWf := by simpa only [pushByte_fields] using h.rxbufWf
    consumerOk := h.consumerOk.congr (by constructor <;> simp)
    traceOk := TraceOk.append (cs := [.lineArmRx]) h.traceOk (by simp) (by simp) }

/-- S_POP's completion from a resting engine moves `drain` inside `BUF` and frees the consumer (R103). -/
theorem MachineInv.popByte {s : State} (h : MachineInv s) (hidle : EngineIdle s) :
    MachineInv (popByte s) :=
  have hdrain := idxNext_lt s.cfg s.drain h.cells_pos
  { h with
    drainWidth := lt_two_pow_idxW hdrain
    drainRange := fun _ => hdrain
    consumerOk := .of_ready rfl (hidle.congr rfl rfl rfl) }

/-! ## The operations of the I2C engine -/

/-- What the I2C engine has to keep by itself: its caller's buffer, its sequencer, its records. -/
structure EngineInv (s : State) : Prop where
  rxbufWf : Memory.wf s.rxbuf
  consumerOk : ConsumerOk s
  traceOk : TraceOk s

theorem MachineInv.engineInv {s : State} (h : MachineInv s) : EngineInv s :=
  ⟨h.rxbufWf, h.consumerOk, h.traceOk⟩

/-- An engine step that leaves everything outside the engine alone keeps the invariant if it keeps its
own part. -/
theorem MachineInv.of_engine {s t : State} (h : MachineInv s) (k : SameOutsideEngine s t)
    (e : EngineInv t) : MachineInv t := by
  cases s
  cases t
  obtain ⟨rfl, rfl, rfl, rfl, rfl, rfl, rfl, rfl, rfl, -, -⟩ := k
  exact { h with rxbufWf := e.rxbufWf, consumerOk := e.consumerOk, traceOk := e.traceOk }

/-- I_RESET in a build that has the engine, from a free consumer (R130). -/
theorem MachineInv.i2cReset {s : State} (h : MachineInv s) (hb : s.cfg.has .i2c = true)
    (hc : s.consumer = .ready) : MachineInv (i2cReset s) :=
  have hidle : EngineIdle s := h.consumerOk.idle (by simp [hc])
  { h with
    i2cBuilt := fun _ => hb
    consumerOk := .of_ready hc ⟨rfl, rfl, hidle.scratch⟩
    traceOk := TraceOk.append (cs := [.busDeinit, .busInit]) h.traceOk (by simp) (by simp) }

/-- I_TX ends with the engine at rest: nothing was counted and the region is gone (R131). -/
theorem endTx_engineInv {s : State} {res : Result} (ha : s.attempt = 0) (hs : s.scratch = none)
    (hw : Memory.wf s.rxbuf) (ht : TraceOk s) : EngineInv (s.endTx res) :=
  ⟨hw, .of_ready rfl ⟨rfl, ha, hs⟩, ht⟩

/-- I_RX ends with the engine at rest: the region is gone (R132). -/
theorem endRx_engineInv {s : State} {res : Result} (hs : s.scratch = none) (hw : Memory.wf s.rxbuf)
    (ht : TraceOk s) : EngineInv (s.endRx res) :=
  ⟨hw, .of_ready rfl ⟨rfl, rfl, hs⟩, ht⟩

/-- No attempt is counted inside an I_TX (R32). -/
theorem EngineInv.attempt_of_tx {s : State} {flush : Bool} {addr : Nat} {len8 : Byte}
    {txbuf : List Byte} (h : EngineInv s) (hc : s.consumer = .inI2c (.tx flush addr len8 txbuf)) :
    s.attempt = 0 := by
  obtain ⟨-, ha, -⟩ := h.consumerOk.sequencer hc
  exact ha

theorem txBegin_engineInv {s : State} (h : EngineInv s) (hidle : EngineIdle s)
    (hi : s.iInit = true) (flush : Bool) (addr : Nat) (len8 : Byte) (txbuf : List Byte) :
    EngineInv (txBegin flush addr len8 txbuf s) :=
  ⟨h.rxbufWf, .of_inI2c rfl hi ⟨hidle.attempt, .inl ⟨rfl, hidle.scratch⟩⟩, h.traceOk⟩

theorem rxBegin_engineInv {s : State} (h : EngineInv s) (hidle : EngineIdle s)
    (hi : s.iInit = true) (hn : 1 ≤ s.cfg.i2cReqAttempts) (addr : Nat) (len8 : Byte) :
    EngineInv (rxBegin addr len8 s) :=
  ⟨h.rxbufWf, .of_inI2c rfl hi (.inl ⟨rfl, hn, hidle.scratch⟩), h.traceOk⟩

theorem alloc_writeFrameSize_traceOk {s : State} (h : TraceOk s) (len8 : Byte) :
    TraceOk (alloc (writeFrameSize len8) s).2 :=
  h.append rfl (by simp)

theorem alloc_responseSize_traceOk {s : State} (h : TraceOk s) (len8 : Byte) :
    TraceOk (alloc (responseSize len8) s).2 :=
  h.append rfl (by simp)

theorem freeScratch_traceOk {s : State} (h : TraceOk s) : TraceOk s.freeScratch :=
  h.append rfl (by simp)

/-- A store into the region keeps its size and its canonical form. -/
theorem ScratchOf.store {s t : State} {n : Nat} {bytes : List Byte} (h : ScratchOf s n)
    (e : t.scratch = (s.scratchStore bytes).scratch) : ScratchOf t n := by
  obtain ⟨r, hr, hsize, hw⟩ := h
  exact ⟨{ r with cells := Memory.writeBytes r.cells 0 bytes }, by simp [e, hr], hsize,
    Memory.writeBytes_wf _ _ _ hw⟩

/-- In a fresh region of its size the write frame is built, and I_TX is in `TX_WRITE` (R131). -/
theorem txBuild_engineInv {s : State} {flush : Bool} {addr : Nat} {len8 : Byte} {txbuf : List Byte}
    (hw : Memory.wf s.rxbuf) (ht : TraceOk s) (hi : s.iInit = true) (ha : s.attempt = 0)
    (hc : s.consumer = .inI2c (.tx flush addr len8 txbuf))
    (hs : s.scratch = some ⟨writeFrameSize len8, []⟩) : EngineInv (txBuild len8 txbuf s) where
  rxbufWf := hw
  traceOk := ht
  consumerOk :=
    have hframe := scratchBytes_store (bytes := writeFrame len8 (takeBytes len8.toNat s.freeIdx txbuf))
      hs (by simp [writeFrameSize, writeFrame]) Memory.wf_nil
    have hscratch : ScratchOf s (writeFrameSize len8) := ⟨_, hs, rfl, Memory.wf_nil⟩
    .of_inI2c hc hi ⟨ha, .inr ⟨rfl, hscratch.store rfl, _, takeBytes_length _ _ _, hframe⟩⟩

/-- The arrow out of `TX_ALLOC` builds the frame in a region of its size, or ends. -/
theorem txAllocArrow_engineInv {s : State} {flush : Bool} {addr : Nat} {len8 : Byte}
    {txbuf : List Byte} (h : EngineInv s) (hc : s.consumer = .inI2c (.tx flush addr len8 txbuf)) :
    EngineInv (txAllocArrow len8 txbuf s) := by
  obtain ⟨hi, ha, -⟩ := h.consumerOk.sequencer hc
  have ht := alloc_writeFrameSize_traceOk h.traceOk len8
  cases hok : allocAnswer s with
  | false =>
    simp only [txAllocArrow, alloc_answer, hok, Bool.false_eq_true, if_false]
    exact endTx_engineInv ha (by simp [hok]) h.rxbufWf ht
  | true =>
    simp only [txAllocArrow, alloc_answer, hok, if_true]
    exact txBuild_engineInv h.rxbufWf ht hi ha hc (by simp [hok])

/-- The arrows out of `TX_WRITE` end, whatever the bus answers. -/
theorem txWrite_engineInv {s : State} (h : EngineInv s) (ha : s.attempt = 0) (addr : Nat) :
    EngineInv (txWrite addr s) := by
  have ht : TraceOk (busWrite addr s.scratchBytes s).2 := h.traceOk.append rfl (by simp)
  exact endTx_engineInv ha rfl h.rxbufWf (freeScratch_traceOk ht)

/-- I_TX is its arrows one after the other: what the allocation's arrow ends is ended (R131, R135). -/
theorem i2cTransmit_engineInv {s : State} (h : EngineInv s) (hidle : EngineIdle s)
    (hi : s.iInit = true) (flush : Bool) (addr : Nat) (len8 : Byte) (txbuf : List Byte) :
    EngineInv (i2cTransmit flush addr len8 txbuf s) := by
  have hk := txAllocArrow_engineInv (txBegin_engineInv h hidle hi flush addr len8 txbuf) rfl
  unfold txAllocArrow at hk
  unfold i2cTransmit
  dsimp only at hk ⊢
  split at hk
  · rw [if_pos ‹_›]
    exact txWrite_engineInv hk hidle.attempt addr
  · rwa [if_neg ‹_›]

/-- Among the requests of an I_RX attempts are left and there is no region (R135). -/
theorem EngineInv.inRequests {s : State} {addr : Nat} {len8 : Byte} (h : EngineInv s)
    (hc : s.consumer = .inI2c (.rx addr len8)) (hp : s.phase = .rxRequest) :
    s.iInit = true ∧ s.attempt < s.cfg.i2cReqAttempts ∧ s.scratch = none := by
  obtain ⟨hi, ⟨-, k⟩ | k⟩ := h.consumerOk.sequencer hc
  · exact ⟨hi, k⟩
  · simp [hp] at k

/-- One request write counts one attempt; it goes on, stays while attempts are left, or ends (R135). -/
theorem rxRequestArrow_engineInv {s : State} {addr : Nat} {len8 : Byte} (h : EngineInv s)
    (hc : s.consumer = .inI2c (.rx addr len8)) (hp : s.phase = .rxRequest) :
    EngineInv (rxRequestArrow addr len8 s) := by
  obtain ⟨hi, hlt, hs⟩ := h.inRequests hc hp
  have ht : TraceOk (requestWrite addr len8 s).2 := h.traceOk.append rfl (by simp)
  unfold rxRequestArrow
  dsimp only
  split
  · exact ⟨h.rxbufWf, .of_inI2c hc hi (.inr ⟨Nat.succ_pos _, hlt, .inl ⟨rfl, hs⟩⟩), ht⟩
  · split
    · exact ⟨h.rxbufWf, .of_inI2c hc hi (.inl ⟨hp, ‹_›, hs⟩), ht⟩
    · exact endRx_engineInv hs h.rxbufWf ht

/-- Past the requests of an I_RX: the attempts made, and the region by phase (R135). -/
theorem EngineInv.afterRequests {s : State} {addr : Nat} {len8 : Byte} (h : EngineInv s)
    (hc : s.consumer = .inI2c (.rx addr len8)) (hp : s.phase ≠ .rxRequest) :
    s.iInit = true ∧ 1 ≤ s.attempt ∧ s.attempt ≤ s.cfg.i2cReqAttempts ∧
      (s.phase = .rxAlloc ∧ s.scratch = none ∨
        (s.phase = .rxRead ∨ s.phase = .rxValidate) ∧ ScratchOf s (responseSize len8)) := by
  obtain ⟨hi, ⟨hp', -⟩ | k⟩ := h.consumerOk.sequencer hc
  · exact absurd hp' hp
  · exact ⟨hi, k⟩

/-- The arrow out of `RX_ALLOC` allocates a region of the response's size, or ends (R135). -/
theorem rxAllocArrow_engineInv {s : State} {addr : Nat} {len8 : Byte} (h : EngineInv s)
    (hc : s.consumer = .inI2c (.rx addr len8)) (hp : s.phase = .rxAlloc) :
    EngineInv (rxAllocArrow len8 s) := by
  obtain ⟨hi, h1, h2, -⟩ := h.afterRequests hc (by simp [hp])
  have ht := alloc_responseSize_traceOk h.traceOk len8
  cases hok : allocAnswer s with
  | false =>
    simp only [rxAllocArrow, alloc_answer, hok, Bool.false_eq_true, if_false]
    exact endRx_engineInv (by simp [hok]) h.rxbufWf ht
  | true =>
    simp only [rxAllocArrow, alloc_answer, hok, if_true]
    exact ⟨h.rxbufWf, .of_inI2c hc hi (.inr ⟨h1, h2, .inr ⟨.inl rfl,
      ⟨responseSize len8, []⟩, by simp [hok], rfl, Memory.wf_nil⟩⟩), ht⟩

/-- The bytes of a read go into the region, and I_RX is in `RX_VALIDATE` (R132, R135). -/
theorem rxStore_engineInv {s : State} {addr : Nat} {len8 : Byte} (h : EngineInv s)
    (hc : s.consumer = .inI2c (.rx addr len8)) (hp : s.phase = .rxRead) (bytes : List Byte) :
    EngineInv (rxStore bytes s) := by
  obtain ⟨hi, h1, h2, ⟨hp', -⟩ | ⟨-, hs⟩⟩ := h.afterRequests hc (by simp [hp])
  · rw [hp] at hp'; cases hp'
  · exact ⟨h.rxbufWf, .of_inI2c hc hi (.inr ⟨h1, h2, .inr ⟨.inr rfl, hs.store rfl⟩⟩), h.traceOk⟩

/-- Freeing the region and returning ends an I_RX, whatever it returns (R132). -/
theorem freeScratch_endRx_engineInv {s : State} {res : Result} (hw : Memory.wf s.rxbuf)
    (ht : TraceOk s) : EngineInv (s.freeScratch.endRx res) :=
  endRx_engineInv rfl hw (freeScratch_traceOk ht)

/-- The validation ends an I_RX; an accepted payload leaves `RXBUF` canonical (R136). -/
theorem rxValidate_engineInv {s : State} {len8 : Byte} (hw : Memory.wf s.rxbuf) (ht : TraceOk s) :
    EngineInv (rxValidate len8 s) := by
  unfold rxValidate
  dsimp only
  split
  · exact freeScratch_endRx_engineInv (Memory.writeBytes_wf _ _ _ hw) ht
  · exact freeScratch_endRx_engineInv hw ht

/-- The read's record changes nothing of the engine's own state. -/
theorem busRead_engineInv {s : State} (h : EngineInv s) (addr n : Nat) :
    EngineInv (busRead addr n s).2 :=
  ⟨h.rxbufWf, h.consumerOk.congr ⟨rfl, id, rfl, rfl, rfl, rfl, rfl⟩, h.traceOk.append rfl (by simp)⟩

/-- The arrows out of `RX_READ` store the response, or end (R135). -/
theorem rxReadArrow_engineInv {s : State} {addr : Nat} {len8 : Byte} (h : EngineInv s)
    (hc : s.consumer = .inI2c (.rx addr len8)) (hp : s.phase = .rxRead) :
    EngineInv (rxReadArrow addr len8 s) := by
  have hr := busRead_engineInv h addr (responseSize len8)
  unfold rxReadArrow
  dsimp only
  split
  · exact freeScratch_endRx_engineInv hr.rxbufWf hr.traceOk
  · exact rxStore_engineInv hr hc hp _

/-- From the allocation on, an I_RX run as one step ends with the engine at rest (R132 steps 3 to 5). -/
theorem rxReadPhase_engineInv {s : State} {addr : Nat} {len8 : Byte} (hw : Memory.wf s.rxbuf)
    (ht : TraceOk s) : EngineInv (rxReadPhase addr len8 s) := by
  have hread : TraceOk (afterRead addr len8 s) :=
    ht.append (List.append_assoc _ _ _) (by simp)
  rcases rxReadPhase_cases addr len8 s with ⟨-, h⟩ |
    ⟨-, ⟨-, h⟩ | ⟨available, echoed, payload, -, -, ⟨-, h⟩ | ⟨-, h⟩⟩⟩ <;> rw [h]
  · exact endRx_engineInv rfl hw (ht.append rfl (by simp))
  · exact freeScratch_endRx_engineInv hw hread
  · exact freeScratch_endRx_engineInv (Memory.writeBytes_wf _ _ _ hw) hread
  · exact freeScratch_endRx_engineInv hw hread

/-- I_RX run as one step from a resting engine ends with the engine at rest (R132). -/
theorem i2cReceive_engineInv {s : State} (h : EngineInv s) (hidle : EngineIdle s) (addr : Nat)
    (len8 : Byte) : EngineInv (i2cReceive addr len8 s) := by
  obtain ⟨ws, h' | ⟨k, -, h'⟩⟩ := i2cReceive_cases addr len8 s <;> rw [h']
  · exact endRx_engineInv hidle.scratch h.rxbufWf
      (h.traceOk.append rfl (by simp +contextual [List.mem_replicate]))
  · refine rxReadPhase_engineInv h.rxbufWf (h.traceOk.append (List.append_assoc _ _ _) ?_)
    simp +contextual [List.mem_replicate, or_imp]

/-- A frame on the bus keeps the engine's part of the invariant. -/
theorem exec_frame_engineInv {i : Instr} {s t : State} (h : EngineInv s)
    (hi : (∃ length payload, i = .frameWrite length payload) ∨
      (∃ length, i = .frameReadRequest length) ∨
      ∃ available echoed payload, i = .frameReadResponse available echoed payload)
    (hx : exec i s = .next t) : EngineInv t := by
  rcases hi with ⟨length, payload, rfl⟩ | ⟨length, rfl⟩ | ⟨available, echoed, payload, rfl⟩
  · obtain ⟨_, addr, _, _, hc, -, -, rfl⟩ := exec_frameWrite_next.mp hx
    exact txWrite_engineInv h (h.attempt_of_tx hc) addr
  · obtain ⟨addr, hc, hp, rfl⟩ := exec_frameReadRequest_next.mp hx
    exact rxRequestArrow_engineInv h hc hp
  · obtain ⟨addr, len8, -, -, hlen, -, rfl⟩ := exec_frameReadResponse_next.mp hx
    refine rxValidate_engineInv h.rxbufWf (h.traceOk.append rfl ?_)
    simpa [EnvCall.Ok, responseSize] using hlen

/-- An arrow keeps the engine's part of the invariant. -/
theorem takeArrow_engineInv {s t : State} (h : EngineInv s) (hx : takeArrow s = .next t) :
    EngineInv t := by
  rcases takeArrow_cases hx with ⟨-, rfl⟩ | ⟨_, addr, len8, txbuf, hc, ⟨-, rfl⟩ | ⟨-, rfl, -⟩⟩ |
    ⟨addr, len8, hc, ⟨hp, rfl⟩ | ⟨hp, rfl⟩ | ⟨hp, -, rfl⟩ | ⟨-, -, rfl⟩⟩
  · exact h
  · exact txAllocArrow_engineInv h hc
  · exact txWrite_engineInv h (h.attempt_of_tx hc) addr
  · exact rxRequestArrow_engineInv h hc hp
  · exact rxAllocArrow_engineInv h hc hp
  · exact rxReadArrow_engineInv h hc hp
  · exact rxValidate_engineInv h.rxbufWf h.traceOk

/-! ## Every operation, every step -/

/-- An operation of the CONSUMER that is admitted finds the engine at rest (R10, R32). -/
theorem MachineInv.idle_of_admitted {s : State} (h : MachineInv s) {b : Block} {n : Bool}
    (ha : whyRefused b .consumer n s = none) : s.consumer = .ready ∧ EngineIdle s := by
  obtain ⟨-, -, -, -, hready, -⟩ := whyRefused_eq_none.mp ha
  exact ⟨hready rfl, h.consumerOk.idle (by simp [hready rfl])⟩

/-- An operation that is admitted is of a block in the build (R7). -/
theorem built_of_admitted {s : State} {b : Block} {r : Role} {n : Bool}
    (ha : whyRefused b r n s = none) : s.cfg.has b = true := by
  obtain ⟨hb, -⟩ := whyRefused_eq_none.mp ha
  exact hb

/-- An operation that needs its block's first reset is admitted after it only (R201). -/
theorem blockReset_of_admitted {s : State} {b : Block} {r : Role}
    (ha : whyRefused b r true s = none) : s.blockReset b = true := by
  obtain ⟨-, -, -, -, -, hreset⟩ := whyRefused_eq_none.mp ha
  exact hreset rfl

/-- S_RESET that answers a next state was admitted and ran. -/
theorem exec_sReset_next {s t : State} (h : exec .sReset s = .next t) :
    whyRefused .serial .consumer false s = none ∧ t = serialReset s := by
  rw [exec_sReset] at h
  obtain ⟨ha, h⟩ := guarded_next h
  cases h
  exact ⟨ha, rfl⟩

/-- A frame on the bus keeps the invariant. -/
theorem MachineInv.exec_frame {i : Instr} {s t : State} (h : MachineInv s)
    (hi : (∃ length payload, i = .frameWrite length payload) ∨
      (∃ length, i = .frameReadRequest length) ∨
      ∃ available echoed payload, i = .frameReadResponse available echoed payload)
    (hx : exec i s = .next t) : MachineInv t :=
  h.of_engine (exec_frame_same hi hx) (exec_frame_engineInv h.engineInv hi hx)

/-- Every operation and every frame keeps the invariant. -/
theorem exec_keepsInv {i : Instr} {s t : State} (h : MachineInv s) (hx : exec i s = .next t) :
    MachineInv t := by
  cases i with
  | sReset =>
    obtain ⟨ha, rfl⟩ := exec_sReset_next hx
    exact h.serialReset (built_of_admitted ha)
  | sPush data =>
    obtain ⟨-, ⟨-, rfl⟩ | ⟨harmed, -, rfl⟩⟩ := exec_sPush_next hx
    · exact h
    · exact h.pushByte (h.armed.symm.trans harmed) data
  | sPop =>
    obtain ⟨ha, hx⟩ := exec_sPop_next hx
    obtain ⟨-, hidle⟩ := h.idle_of_admitted ha
    rcases hx with ⟨-, rfl⟩ | ⟨-, -, rfl⟩
    · exact h.setConsumer (.of_heldPop rfl (hidle.congr rfl rfl rfl) (blockReset_of_admitted ha))
    · exact h.popByte hidle
  | sTx flush lenN txbuf =>
    rw [exec_sTx] at hx
    cases (guarded_next hx).2
    exact h.serialTransmit flush lenN txbuf
  | sAvail =>
    rw [exec_sAvail] at hx
    cases (guarded_next hx).2
    exact h.ret _ _
  | sOvr =>
    rw [exec_sOvr] at hx
    cases (guarded_next hx).2
    exact h.ret _ _
  | tNow =>
    rw [exec_tNow] at hx
    cases (guarded_next hx).2
    exact h.ret _ _
  | tSleep dur =>
    rw [exec_tSleep] at hx
    obtain ⟨ha, hx⟩ := guarded_next hx
    cases hx
    exact h.setConsumer (.of_sleeping rfl ((h.idle_of_admitted ha).2.congr rfl rfl rfl) h.tickWidth)
  | iReset =>
    rw [exec_iReset] at hx
    obtain ⟨ha, hx⟩ := guarded_next hx
    cases hx
    exact h.i2cReset (built_of_admitted ha) (h.idle_of_admitted ha).1
  | iTx flush addr len8 txbuf =>
    rw [exec_iTx] at hx
    obtain ⟨ha, hx⟩ := guarded_next hx
    cases hx
    exact h.of_engine (i2cTransmit_same flush addr len8 txbuf s) (i2cTransmit_engineInv h.engineInv
      (h.idle_of_admitted ha).2 (blockReset_of_admitted ha) flush addr len8 txbuf)
  | iRx addr len8 =>
    rw [exec_iRx] at hx
    obtain ⟨ha, hx⟩ := guarded_next hx
    cases hx
    exact h.of_engine (i2cReceive_same addr len8 s)
      (i2cReceive_engineInv h.engineInv (h.idle_of_admitted ha).2 addr len8)
  | reserved6 | reserved7 | reservedB | reservedE | reservedF => simp [exec_reserved] at hx
  | frameWrite length payload => exact h.exec_frame (.inl ⟨_, _, rfl⟩) hx
  | frameReadRequest length => exact h.exec_frame (.inr (.inl ⟨_, rfl⟩)) hx
  | frameReadResponse available echoed payload => exact h.exec_frame (.inr (.inr ⟨_, _, _, rfl⟩)) hx

/-- A presentation for the multi-step reading keeps the invariant. -/
theorem beginStepwise_keepsInv {i : Instr} {s t : State} (h : MachineInv s)
    (hx : beginStepwise i s = .next t) : MachineInv t := by
  rcases beginStepwise_cases hx with ⟨flush, addr, len8, txbuf, -, ha, rfl⟩ |
    ⟨addr, len8, -, ha, rfl⟩ | hx
  · exact h.of_engine (txBegin_same flush addr len8 txbuf s) (txBegin_engineInv h.engineInv
      (h.idle_of_admitted ha).2 (blockReset_of_admitted ha) flush addr len8 txbuf)
  · exact h.of_engine (by constructor <;> rfl) (rxBegin_engineInv h.engineInv
      (h.idle_of_admitted ha).2 (blockReset_of_admitted ha) h.cfgOk.2.2 addr len8)
  · exact exec_keepsInv h hx

/-- A resumed hold keeps the invariant. -/
theorem resumeConsumer_keepsInv {s t : State} (h : MachineInv s)
    (hx : resumeConsumer s = .next t) : MachineInv t := by
  rcases resumeConsumer_cases hx with rfl | ⟨hc, -, -, rfl⟩ | ⟨t0, dur, hc, -, rfl⟩
  · exact h
  · exact h.popByte (h.consumerOk.idle (by simp [hc]))
  · have hidle : EngineIdle s := h.consumerOk.idle (by simp [hc])
    exact (h.setConsumer (.of_ready rfl (hidle.congr rfl rfl rfl))).ret _ _

/-- Every event keeps the invariant. -/
theorem handle_keepsInv {e : Event} {s t : State} (h : MachineInv s) (hx : handle e s = .next t) :
    MachineInv t := by
  rcases handle_cases hx with ⟨who, p, -, hx⟩ | ⟨who, p, -, hx⟩ | ⟨-, hx⟩ | ⟨_, _, _, -, hx⟩ |
    ⟨b, -, ⟨-, rfl⟩ | ⟨-, hx⟩⟩ | ⟨-, hx⟩ | ⟨-, rfl⟩
  · exact exec_keepsInv (h.withDriver s.inputs who) hx
  · exact beginStepwise_keepsInv (h.withDriver s.inputs who) hx
  · exact h.of_engine (takeArrow_same hx) (takeArrow_engineInv h.engineInv hx)
  · exact exec_keepsInv h hx
  · exact h
  · exact exec_keepsInv (h.withDriver s.inputs .producer) hx
  · exact resumeConsumer_keepsInv h hx
  · exact h.tickStep

/-- Settles O4: taking the event from `inputs` is no part of the invariant, and every event keeps it. -/
theorem everyStepKeepsTheInvariant : Obligations.EveryStepKeepsTheInvariant := by
  unfold Obligations.EveryStepKeepsTheInvariant
  intro s t h hx
  cases hin : s.inputs with
  | nil =>
    rw [step_idle hin] at hx
    cases hx
    exact h
  | cons e rest =>
    rw [step_event hin] at hx
    exact handle_keepsInv (h.withDriver rest s.presenter) hx

end Sys2Proof.Machine
end

section
/-! PROOFS. Who writes what: the cells of `BUF`, the registers of the serial FIFO block, the tick, the
configuration and the bookkeeping bits (spec/10_state.md R20 to R34). -/

namespace Sys2Proof.Machine

/-! ## The store of S_PUSH -/

/-- The one store of S_PUSH: the byte at the old `fill`, every other cell as before (R20, R29). -/
theorem read_pushByte (s : State) (b : Byte) (a : Nat) (hw : Memory.wf s.buf) :
    Memory.read (pushByte b s).buf a = if a = s.fill then b else Memory.read s.buf a := by
  rw [pushByte_buf, Memory.read_write _ _ _ _ hw]

/-- An S_PUSH that answers a next state leaves every cell but the one at the old `fill` as it was. -/
theorem exec_sPush_read_of_ne {s t : State} {b : Byte} {a : Nat} (hw : Memory.wf s.buf)
    (h : exec (.sPush b) s = .next t) (ha : a ≠ s.fill) :
    Memory.read t.buf a = Memory.read s.buf a := by
  obtain ⟨-, ⟨-, rfl⟩ | ⟨-, -, rfl⟩⟩ := exec_sPush_next h
  · rfl
  · rw [read_pushByte s b a hw, if_neg ha]

/-- Settles O19, by the store of a pushed byte; a byte that is lost stores nothing. -/
theorem sPushWritesOnlyTheCellAtFill : Obligations.SPushWritesOnlyTheCellAtFill := by
  unfold Obligations.SPushWritesOnlyTheCellAtFill
  intro s t b hw h
  refine ⟨fun a ha => exec_sPush_read_of_ne hw h ha, ?_⟩
  obtain ⟨-, ⟨harmed, rfl⟩ | ⟨harmed, -, rfl⟩⟩ := exec_sPush_next h
  · simp [harmed]
  · refine ⟨fun _ => ?_, by simp [harmed]⟩
    rw [read_pushByte s b s.fill hw, if_pos rfl]

/-! ## The writers of the serial FIFO block's state -/

/-- Two states agree on the serial FIFO block but for the position of the oldest byte. -/
structure SameSerialButDrain (s t : State) : Prop where
  buf : t.buf = s.buf
  fill : t.fill = s.fill
  overruns : t.overruns = s.overruns
  rxArmed : t.rxArmed = s.rxArmed
  sInit : t.sInit = s.sInit

/-- An operation other than S_PUSH and S_RESET writes `drain` at most, and that only if it is S_POP
(R29). -/
theorem exec_sameSerialButDrain {i : Instr} {s t : State} (h : exec i s = .next t)
    (hpush : ∀ b, i ≠ .sPush b) (hreset : i ≠ .sReset) :
    SameSerialButDrain s t ∧ (i ≠ .sPop → t.drain = s.drain) := by
  by_cases hb : blockOf i = some .i2c
  · have k := exec_sameOutsideI2c hb h
    exact ⟨⟨k.buf, k.fill, k.overruns, k.rxArmed, k.sInit⟩, fun _ => k.drain⟩
  · cases i with
    | sReset => exact absurd rfl hreset
    | sPush b => exact absurd rfl (hpush b)
    | sPop =>
      obtain ⟨-, ⟨-, rfl⟩ | ⟨-, -, rfl⟩⟩ := exec_sPop_next h
      · exact ⟨⟨rfl, rfl, rfl, rfl, rfl⟩, fun _ => rfl⟩
      · exact ⟨⟨rfl, rfl, rfl, rfl, rfl⟩, fun hne => absurd rfl hne⟩
    | sTx | sAvail | sOvr | tNow | tSleep =>
      simp only [exec_sTx, exec_sAvail, exec_sOvr, exec_tNow, exec_tSleep] at h
      cases (guarded_next h).2
      exact ⟨⟨rfl, rfl, rfl, rfl, rfl⟩, fun _ => rfl⟩
    | reserved6 | reserved7 | reservedB | reservedE | reservedF => simp [exec_reserved] at h
    | iReset | iTx | iRx | frameWrite | frameReadRequest | frameReadResponse => exact absurd rfl hb

/-- S_PUSH leaves `s_init` alone, and on a buffer that is not full `drain` and `overruns` too (R101). -/
theorem exec_sPush_kept {s t : State} {b : Byte} (h : exec (.sPush b) s = .next t) :
    t.sInit = s.sInit ∧ (full s = false → t.drain = s.drain ∧ t.overruns = s.overruns) := by
  obtain ⟨-, ⟨-, rfl⟩ | ⟨-, -, rfl⟩⟩ := exec_sPush_next h
  · exact ⟨rfl, fun _ => ⟨rfl, rfl⟩⟩
  · exact ⟨by simp, fun hf => by simp [hf]⟩

/-- Settles O56: S_PUSH, S_RESET, and what every other operation leaves alone. -/
theorem writersOfTheSerialState : Obligations.WritersOfTheSerialState := by
  unfold Obligations.WritersOfTheSerialState
  intro i s t h
  by_cases hreset : i = .sReset
  · subst hreset
    obtain ⟨-, rfl⟩ := exec_sReset_next h
    simp
  · by_cases hpush : ∃ b, i = .sPush b
    · obtain ⟨b, rfl⟩ := hpush
      obtain ⟨hinit, hkept⟩ := exec_sPush_kept h
      simpa [hinit] using hkept
    · have hpush : ∀ b, i ≠ .sPush b := not_exists.mp hpush
      obtain ⟨k, hdrain⟩ := exec_sameSerialButDrain h hpush hreset
      exact ⟨fun _ => k.buf, fun _ _ => ⟨k.fill, k.overruns, k.rxArmed⟩, fun _ _ => hdrain,
        fun b hb => absurd hb (hpush b), fun _ => k.sInit⟩

/-! ## What no step writes, and what no step clears -/

/-- From `s` to `t` the configuration and the tick stay, and no bookkeeping bit is cleared (R25, R30, R33,
R34). -/
structure Persists (s t : State) : Prop where
  cfg : t.cfg = s.cfg
  tick : t.tick = s.tick
  sInit : s.sInit = true → t.sInit = true
  iInit : s.iInit = true → t.iInit = true

theorem Persists.refl (s : State) : Persists s s := ⟨rfl, rfl, id, id⟩

theorem SameOutsideEngine.persists {s t : State} (h : SameOutsideEngine s t) : Persists s t :=
  ⟨h.cfg, h.tick, h.sInit.trans, h.iInit.trans⟩

/-- No operation clears `s_init`: S_RESET sets it and no other writes it (R25). -/
theorem exec_sInit {i : Instr} {s t : State} (h : exec i s = .next t) (hs : s.sInit = true) :
    t.sInit = true := by
  by_cases hreset : i = .sReset
  · subst hreset
    obtain ⟨-, rfl⟩ := exec_sReset_next h
    simp
  · obtain ⟨-, -, -, -, k⟩ := writersOfTheSerialState i s t h
    exact (k hreset).trans hs

/-- No operation clears `i_init`: I_RESET sets it and no other writes it (R30). -/
theorem exec_iInit {i : Instr} {s t : State} (h : exec i s = .next t) (hi : s.iInit = true) :
    t.iInit = true := by
  cases i with
  | iReset =>
    rw [exec_iReset] at h
    cases (guarded_next h).2
    simp
  | iTx flush addr len8 txbuf =>
    rw [exec_iTx] at h
    cases (guarded_next h).2
    exact (i2cTransmit_same flush addr len8 txbuf s).iInit.trans hi
  | iRx addr len8 =>
    rw [exec_iRx] at h
    cases (guarded_next h).2
    exact (i2cReceive_same addr len8 s).iInit.trans hi
  | frameWrite length payload => exact (exec_frame_same (.inl ⟨_, _, rfl⟩) h).iInit.trans hi
  | frameReadRequest length => exact (exec_frame_same (.inr (.inl ⟨_, rfl⟩)) h).iInit.trans hi
  | frameReadResponse available echoed payload =>
    exact (exec_frame_same (.inr (.inr ⟨_, _, _, rfl⟩)) h).iInit.trans hi
  | sReset | sPush | sAvail | sPop | sTx | sOvr | tNow | tSleep | reserved6 | reserved7 | reservedB |
      reservedE | reservedF =>
    exact (exec_sameOutsideSerial (by simp [blockOf]) h).iInit.trans hi

theorem exec_persists {i : Instr} {s t : State} (h : exec i s = .next t) : Persists s t := by
  obtain ⟨-, -, htick, hcfg, -, -⟩ := blocksShareNoState i s t h
  exact ⟨hcfg, htick, exec_sInit h, exec_iInit h⟩

theorem beginStepwise_persists {i : Instr} {s t : State} (h : beginStepwise i s = .next t) :
    Persists s t := by
  rcases beginStepwise_cases h with ⟨_, _, _, _, -, -, rfl⟩ | ⟨_, _, -, -, rfl⟩ | h
  · exact ⟨rfl, rfl, id, id⟩
  · exact ⟨rfl, rfl, id, id⟩
  · exact exec_persists h

theorem resumeConsumer_persists {s t : State} (h : resumeConsumer s = .next t) : Persists s t := by
  rcases resumeConsumer_cases h with rfl | ⟨-, -, -, rfl⟩ | ⟨_, _, -, -, rfl⟩
  · exact Persists.refl _
  · exact ⟨rfl, rfl, id, id⟩
  · exact ⟨rfl, rfl, id, id⟩

/-- An event changes no configuration, no tick and clears no bit; or it is the TICKER's, which writes the
tick alone (R162). -/
theorem handle_persists {e : Event} {s t : State} (h : handle e s = .next t) :
    Persists s t ∨ e = .tick ∧ t = tickStep s := by
  rcases handle_cases h with ⟨who, p, -, h⟩ | ⟨who, p, -, h⟩ | ⟨-, h⟩ | ⟨_, _, _, -, h⟩ |
    ⟨b, -, ⟨-, rfl⟩ | ⟨-, h⟩⟩ | ⟨-, h⟩ | h
  · obtain ⟨hcfg, htick, hs, hi⟩ := exec_persists h
    exact .inl ⟨hcfg, htick, hs, hi⟩
  · obtain ⟨hcfg, htick, hs, hi⟩ := beginStepwise_persists h
    exact .inl ⟨hcfg, htick, hs, hi⟩
  · exact .inl (takeArrow_same h).persists
  · exact .inl (exec_persists h)
  · exact .inl (Persists.refl _)
  · obtain ⟨hcfg, htick, hs, hi⟩ := exec_persists h
    exact .inl ⟨hcfg, htick, hs, hi⟩
  · exact .inl (resumeConsumer_persists h)
  · exact .inr h

/-- The same for a step: only the TICKER's event is not of this kind. -/
theorem step_persists {s t : State} (h : step s = .next t) :
    Persists s t ∨ ∃ rest, s.inputs = .tick :: rest ∧ t = tickStep { s with inputs := rest } := by
  cases hin : s.inputs with
  | nil =>
    rw [step_idle hin] at h
    cases h
    exact .inl (Persists.refl _)
  | cons e rest =>
    rw [step_event hin] at h
    rcases handle_persists h with ⟨hcfg, htick, hs, hi⟩ | ⟨rfl, rfl⟩
    · exact .inl ⟨hcfg, htick, hs, hi⟩
    · exact .inr ⟨rest, rfl, rfl⟩

/-- Settles O55: a step that is not the TICKER's keeps the tick. -/
theorem onlyTheTickerWritesTheTick : Obligations.OnlyTheTickerWritesTheTick := by
  unfold Obligations.OnlyTheTickerWritesTheTick
  intro s t h hne
  rcases step_persists h with k | ⟨rest, hin, -⟩
  · exact absurd k.tick hne
  · exact ⟨.tick, rest, hin, rfl⟩

/-- Settles O58: the TICKER's step writes the tick alone, and every other step persists. -/
theorem configurationAndInitBitsPersist : Obligations.ConfigurationAndInitBitsPersist := by
  unfold Obligations.ConfigurationAndInitBitsPersist
  intro s t h
  rcases step_persists h with k | ⟨rest, -, rfl⟩
  · exact ⟨k.cfg, k.sInit, k.iInit⟩
  · exact ⟨rfl, id, id⟩

end Sys2Proof.Machine
end

section
/-! PROOFS. The buffer as a queue (spec/10_state.md R12, R26 to R28): where its indices go, which cell each
operation touches, and what becomes of the retained bytes. -/

namespace Sys2Proof.Machine

/-! ## The indices -/

theorem idxNext_ne_self {k : Config} {i : Nat} (h2 : 2 ≤ k.c) (hi : i < k.c) : idxNext k i ≠ i := by
  rw [idxNext_eq k i hi]
  split <;> omega

theorem idxNext_inj {k : Config} {i j : Nat} (hi : i < k.c) (hj : j < k.c)
    (h : idxNext k i = idxNext k j) : i = j := by
  rw [idxNext_eq k i hi, idxNext_eq k j hj] at h
  split at h <;> split at h <;> omega

/-- The cell at distance `i + 1` from an index is at distance `i` from the next one. -/
theorem idxNext_add_mod (k : Config) (d i : Nat) : (idxNext k d + i) % k.c = (d + (i + 1)) % k.c := by
  rw [idxNext, Nat.mod_add_mod]
  congr 1
  omega

/-- The cell after the retained bytes is the one at `fill` (R26). -/
theorem drain_add_occ {s : State} (hf : s.fill < s.cfg.c) (hd : s.drain < s.cfg.c) :
    (s.drain + occ s) % s.cfg.c = s.fill := by
  rw [mod_add_eq _ _ _ hd (occ_lt s (by omega)), occ_eq s hf hd]
  split <;> split <;> omega

/-- R27 item 4: the cell at `fill` is not live. -/
theorem not_live_fill {s : State} (hf : s.fill < s.cfg.c) (hd : s.drain < s.cfg.c) :
    ¬ Live s s.fill := by
  rintro ⟨i, hi, he⟩
  have hocc := occ_lt s (by omega)
  rw [mod_add_eq _ _ _ hd (by omega)] at he
  rw [occ_eq s hf hd] at hi
  split at he <;> split at hi <;> omega

/-- R64: where a byte is retained, the cell at `drain` is live. -/
theorem live_drain {s : State} (hf : s.fill < s.cfg.c) (hd : s.drain < s.cfg.c)
    (h : s.fill ≠ s.drain) : Live s s.drain := by
  have hocc : occ s ≠ 0 := (avail_iff_occ s hf hd).mp ((avail_iff s).mpr h)
  exact ⟨0, by omega, (Nat.mod_eq_of_lt hd).symm⟩

/-- Storing at the end adds one retained byte to a buffer with room. -/
theorem occ_of_fill_next {s t : State} (hf : s.fill < s.cfg.c) (hd : s.drain < s.cfg.c)
    (hroom : occ s < s.cfg.c - 1) (hcfg : t.cfg = s.cfg) (hfill : t.fill = idxNext s.cfg s.fill)
    (hdrain : t.drain = s.drain) : occ t = occ s + 1 := by
  have hft : t.fill < t.cfg.c := by rw [hfill, hcfg]; exact idxNext_lt _ _ (by omega)
  rw [occ_eq s hf hd] at hroom ⊢
  rw [occ_eq t hft (by rw [hdrain, hcfg]; exact hd), hfill, hdrain, hcfg, idxNext_eq _ _ hf]
  split at hroom <;> split <;> split <;> omega

/-- Dropping the oldest takes one retained byte from a buffer that has one. -/
theorem occ_of_drain_next {s t : State} (hf : s.fill < s.cfg.c) (hd : s.drain < s.cfg.c)
    (hne : s.fill ≠ s.drain) (hcfg : t.cfg = s.cfg) (hfill : t.fill = s.fill)
    (hdrain : t.drain = idxNext s.cfg s.drain) : occ s = occ t + 1 := by
  have hdt : t.drain < t.cfg.c := by rw [hdrain, hcfg]; exact idxNext_lt _ _ (by omega)
  rw [occ_eq s hf hd, occ_eq t (by rw [hfill, hcfg]; exact hf) hdt, hfill, hdrain, hcfg,
    idxNext_eq _ _ hd]
  split <;> split <;> split <;> omega

/-! ## The queue -/

@[simp] theorem queue_length (s : State) : (queue s).length = occ s := by simp [queue]

/-- The queue depends on the configuration, the cells and the two indices alone. -/
theorem queue_congr {s t : State} (hcfg : t.cfg = s.cfg) (hbuf : t.buf = s.buf)
    (hfill : t.fill = s.fill) (hdrain : t.drain = s.drain) : queue t = queue s := by
  simp only [queue, occ, hcfg, hbuf, hfill, hdrain]

theorem queue_eq_nil_iff {s : State} (hf : s.fill < s.cfg.c) (hd : s.drain < s.cfg.c) :
    queue s = [] ↔ s.fill = s.drain := by
  rw [← List.length_eq_zero_iff, queue_length, ← not_iff_not]
  exact (avail_iff_occ s hf hd).symm.trans (avail_iff s)

/-- Appending: a byte stored at `fill` in a buffer with room is the youngest, and no retained byte is
touched. -/
theorem queue_of_fill_next {s t : State} {b : Byte} (hf : s.fill < s.cfg.c) (hd : s.drain < s.cfg.c)
    (hw : Memory.wf s.buf) (hroom : occ s < s.cfg.c - 1) (hcfg : t.cfg = s.cfg)
    (hbuf : t.buf = Memory.write s.buf s.fill b) (hfill : t.fill = idxNext s.cfg s.fill)
    (hdrain : t.drain = s.drain) : queue t = queue s ++ [b] := by
  have hold : ∀ i ∈ List.range (occ s), Memory.read (Memory.write s.buf s.fill b)
      ((s.drain + i) % s.cfg.c) = Memory.read s.buf ((s.drain + i) % s.cfg.c) := by
    intro i hi
    rw [Memory.read_write _ _ _ _ hw, if_neg]
    intro he
    exact not_live_fill hf hd ⟨i, List.mem_range.mp hi, he.symm⟩
  have hnew : Memory.read (Memory.write s.buf s.fill b) ((s.drain + occ s) % s.cfg.c) = b := by
    rw [drain_add_occ hf hd, Memory.read_write _ _ _ _ hw, if_pos rfl]
  rw [queue, occ_of_fill_next hf hd hroom hcfg hfill hdrain, List.range_succ, List.map_append,
    hcfg, hbuf, hdrain, List.map_congr_left hold, List.map_singleton, hnew, queue]

/-- Dropping: the oldest byte is the one at `drain`, and the others are what is retained with `drain` one
further. -/
theorem queue_of_drain_next {s t : State} (hf : s.fill < s.cfg.c) (hd : s.drain < s.cfg.c)
    (hne : s.fill ≠ s.drain) (hcfg : t.cfg = s.cfg) (hbuf : t.buf = s.buf) (hfill : t.fill = s.fill)
    (hdrain : t.drain = idxNext s.cfg s.drain) :
    queue s = Memory.read s.buf s.drain :: queue t := by
  rw [queue, occ_of_drain_next hf hd hne hcfg hfill hdrain, List.range_succ_eq_map, List.map_cons,
    Nat.add_zero, Nat.mod_eq_of_lt hd, List.map_map, queue, hcfg, hbuf, hdrain]
  simp [Function.comp_def, idxNext_add_mod]

/-! ## The operations on the queue -/

/-- S_PUSH on a ready block pushes: the line is armed and `fill` is in range (R27). -/
theorem SerialReady.exec_sPush {s t : State} {b : Byte} (h : SerialReady s)
    (hx : exec (.sPush b) s = .next t) : t = pushByte b s := by
  obtain ⟨-, ⟨hun, -⟩ | ⟨-, -, rfl⟩⟩ := exec_sPush_next hx
  · rw [h.armed] at hun
    cases hun
  · rfl

/-- A push with room appends the byte and counts no overrun (R28). -/
theorem queue_pushByte_of_room {s : State} (h : SerialReady s) (hw : Memory.wf s.buf) (b : Byte)
    (hroom : occ s < s.cfg.c - 1) :
    queue (pushByte b s) = queue s ++ [b] ∧ (pushByte b s).overruns = s.overruns := by
  have hnf : full s = false := by
    rw [← Bool.not_eq_true, full_iff_occ s h.fillRange h.drainRange]
    omega
  exact ⟨queue_of_fill_next h.fillRange h.drainRange hw hroom (by simp) (by simp) (by simp)
    (by simp [hnf]), by simp [hnf]⟩

/-- A push on a full buffer drops the oldest byte, appends the new one and counts one overrun (R28). -/
theorem queue_pushByte_of_full {s : State} (h : SerialReady s) (hw : Memory.wf s.buf) (b : Byte)
    (hocc : occ s = s.cfg.c - 1) :
    queue (pushByte b s) = (queue s).tail ++ [b] ∧
      (pushByte b s).overruns = satInc s.cfg s.overruns := by
  have h2 := h.twoCells
  have hfull : full s = true := (full_iff_occ s h.fillRange h.drainRange).mpr hocc
  have hne : s.fill ≠ s.drain :=
    (avail_iff s).mp ((avail_iff_occ s h.fillRange h.drainRange).mpr (by omega))
  have hd : (evictOldest s).drain < (evictOldest s).cfg.c := by
    simpa using idxNext_lt s.cfg s.drain (by omega)
  have hdrop := queue_of_drain_next (t := evictOldest s) h.fillRange h.drainRange hne rfl rfl rfl rfl
  have hroom := occ_of_drain_next (t := evictOldest s) h.fillRange h.drainRange hne rfl rfl rfl
  have happend : queue (pushByte b s) = queue (evictOldest s) ++ [b] :=
    queue_of_fill_next h.fillRange hd hw (by simp only [evictOldest_fields]; omega) (by simp)
      (by simp) (by simp) (by simp [hfull])
  exact ⟨by rw [happend, hdrop, List.tail_cons], by simp [hfull]⟩

/-- A completed S_POP returns the first byte of the queue and drops it (R28). -/
theorem queue_popByte {s : State} (hf : s.fill < s.cfg.c) (hd : s.drain < s.cfg.c)
    (hne : s.fill ≠ s.drain) : queue s = Memory.read s.buf s.drain :: queue (popByte s) :=
  queue_of_drain_next hf hd hne (by simp) (by simp) (by simp) (by simp)

/-- S_RESET leaves both indices 0 (R100). -/
theorem occ_serialReset (s : State) : occ (serialReset s) = 0 := by simp [occ]

/-- A push on a ready block leaves a byte to pop: `fill` does not reach `drain` (R26). -/
theorem avail_pushByte {s : State} (h : SerialReady s) (b : Byte) : avail (pushByte b s) = true := by
  rw [avail_iff]
  cases hfull : full s with
  | true =>
    have hmeet : idxNext s.cfg s.fill = s.drain := (full_iff s).mp hfull
    simpa [hfull, hmeet] using (idxNext_ne_self h.twoCells h.drainRange).symm
  | false =>
    have hapart : idxNext s.cfg s.fill ≠ s.drain := fun e => by
      rw [(full_iff s).mpr e] at hfull
      cases hfull
    simpa [hfull] using hapart

/-- Once a byte has been popped the buffer is not full (R26). -/
theorem full_popByte {s : State} (h : SerialReady s) (hne : s.fill ≠ s.drain) :
    full (popByte s) = false := by
  rw [← Bool.not_eq_true, full_iff]
  intro e
  exact hne (idxNext_inj h.fillRange h.drainRange (by simpa using e))

/-- Settles O25: the conditions by the arithmetic of the indices, and what each operation makes of them. -/
theorem derivedConditionsFollowTheIndices : Obligations.DerivedConditionsFollowTheIndices := by
  unfold Obligations.DerivedConditionsFollowTheIndices
  refine ⟨fun s h => ?_, fun s t h2 hx => ?_, fun s t b h hx => ?_, fun s t h ha hx => ?_⟩
  · have hf := h.fillRange
    have hd := h.drainRange
    exact ⟨occ_lt s (by omega), avail_iff s, avail_iff_occ s hf hd, full_iff s, full_iff_occ s hf hd⟩
  · obtain ⟨-, rfl⟩ := exec_sReset_next hx
    have hone : idxNext s.cfg 0 ≠ 0 := idxNext_ne_self h2 (by omega)
    exact ⟨occ_serialReset s, by simp [avail], by simpa [full] using hone⟩
  · rw [h.exec_sPush hx]
    exact avail_pushByte h b
  · obtain ⟨-, ⟨he, -⟩ | ⟨hne, -, rfl⟩⟩ := exec_sPop_next hx
    · exact absurd he ((avail_iff s).mp ha)
    · exact full_popByte h hne

/-- Settles O26, operation by operation; the two clauses of S_PUSH are the buffer with room and the full
buffer. -/
theorem operationsActOnTheQueue : Obligations.OperationsActOnTheQueue := by
  unfold Obligations.OperationsActOnTheQueue
  refine ⟨fun s t _ hx => ?_, fun s t b h hw hx => ?_, fun s t h hx => ?_, fun s t h hq hx => ?_,
    fun s t b q h hq hx => ?_⟩
  · obtain ⟨-, rfl⟩ := exec_sReset_next hx
    rw [← List.length_eq_zero_iff, queue_length, occ_serialReset]
  · rw [h.exec_sPush hx, queue_length]
    exact ⟨queue_pushByte_of_room h hw b, queue_pushByte_of_full h hw b⟩
  · rw [exec_sAvail] at hx
    cases (guarded_next hx).2
    have hflag : avail s = decide ((queue s).length ≠ 0) := by
      rw [Bool.eq_iff_iff, decide_eq_true_iff, queue_length]
      exact avail_iff_occ s h.fillRange h.drainRange
    exact ⟨queue_congr rfl rfl rfl rfl, by rw [← hflag]; rfl⟩
  · obtain ⟨-, ⟨-, rfl⟩ | ⟨hne, -, -⟩⟩ := exec_sPop_next hx
    · rfl
    · exact absurd ((queue_eq_nil_iff h.fillRange h.drainRange).mp hq) hne
  · obtain ⟨-, ⟨he, -⟩ | ⟨hne, -, rfl⟩⟩ := exec_sPop_next hx
    · rw [(queue_eq_nil_iff h.fillRange h.drainRange).mpr he] at hq
      cases hq
    · rw [queue_popByte h.fillRange h.drainRange hne] at hq
      obtain ⟨rfl, rfl⟩ := List.cons.inj hq
      exact ⟨rfl, by simp⟩

/-! ## The cells each side touches -/

/-- S_POP depends on the cell at `drain` alone: in another memory that agrees there it does the same, and
leaves that memory as it is (R64). -/
theorem exec_sPop_of_read_drain {s t : State} {m : Memory}
    (hm : Memory.read m s.drain = Memory.read s.buf s.drain) (hx : exec .sPop s = .next t) :
    exec .sPop { s with buf := m } = .next { t with buf := m } := by
  obtain ⟨ha, ⟨he, rfl⟩ | ⟨hne, hd, rfl⟩⟩ := exec_sPop_next hx <;>
    rw [exec_sPop, guarded_of_none (s := { s with buf := m }) ha]
  · exact popOrHold_holds (s := { s with buf := m }) he
  · rw [popOrHold_pops (s := { s with buf := m }) hne hd]
    simp [popByte, State.ret, hm]

/-- Settles O27: the cell S_PUSH writes is not live, the cell S_POP reads is. -/
theorem producerAndConsumerNeverTouchTheSameCell :
    Obligations.ProducerAndConsumerNeverTouchTheSameCell := by
  unfold Obligations.ProducerAndConsumerNeverTouchTheSameCell
  intro s h
  have hfill := not_live_fill h.fillRange h.drainRange
  refine ⟨hfill, live_drain h.fillRange h.drainRange, fun b t hw hx => ?_,
    fun m t hm hx => exec_sPop_of_read_drain hm hx⟩
  refine ⟨fun a ha => exec_sPush_read_of_ne hw hx ha, fun a hlive => ?_⟩
  refine exec_sPush_read_of_ne hw hx ?_
  rintro rfl
  exact hfill hlive

end Sys2Proof.Machine
end

section
/-! PROOFS. Runs of several events, and the bytes S_POP has returned: what drives the machine is consumed
event by event, and only a completed S_POP returns a byte (spec/00_scope.md R8, R11, spec/10_state.md R29). -/

namespace Sys2Proof.Machine

/-! ## What drives the machine -/

theorem exec_inputs {i : Instr} {s t : State} (h : exec i s = .next t) : t.inputs = s.inputs := by
  obtain ⟨-, -, -, -, hin, -⟩ := blocksShareNoState i s t h
  exact hin

theorem beginStepwise_inputs {i : Instr} {s t : State} (h : beginStepwise i s = .next t) :
    t.inputs = s.inputs := by
  rcases beginStepwise_cases h with ⟨_, _, _, _, -, -, rfl⟩ | ⟨_, _, -, -, rfl⟩ | h
  · rfl
  · rfl
  · exact exec_inputs h

theorem resumeConsumer_inputs {s t : State} (h : resumeConsumer s = .next t) :
    t.inputs = s.inputs := by
  rcases resumeConsumer_cases h with rfl | ⟨-, -, -, rfl⟩ | ⟨_, _, -, -, rfl⟩ <;> rfl

/-- No event puts an event into the inputs, or takes another one out (R8, R11). -/
theorem handle_inputs {e : Event} {s t : State} (h : handle e s = .next t) : t.inputs = s.inputs := by
  rcases handle_cases h with ⟨who, p, -, h⟩ | ⟨who, p, -, h⟩ | ⟨-, h⟩ | ⟨_, _, _, -, h⟩ |
    ⟨b, -, ⟨-, rfl⟩ | ⟨-, h⟩⟩ | ⟨-, h⟩ | ⟨-, rfl⟩
  · exact (exec_inputs h).trans rfl
  · exact (beginStepwise_inputs h).trans rfl
  · exact (takeArrow_same h).inputs
  · exact exec_inputs h
  · rfl
  · exact (exec_inputs h).trans rfl
  · exact resumeConsumer_inputs h
  · rfl

/-! ## The bytes S_POP has returned -/

theorem poppedBytes_pushByte (b : Byte) (s : State) : poppedBytes (pushByte b s) = poppedBytes s := by
  simp [poppedBytes]

theorem poppedBytes_popByte (s : State) :
    poppedBytes (popByte s) = poppedBytes s ++ [Memory.read s.buf s.drain] := by
  simp [poppedBytes]

theorem poppedBytes_txWrite (addr : Nat) (s : State) :
    poppedBytes (txWrite addr s) = poppedBytes s := by
  simp [poppedBytes, txWrite]

theorem poppedBytes_txAllocArrow (len8 : Byte) (txbuf : List Byte) (s : State) :
    poppedBytes (txAllocArrow len8 txbuf s) = poppedBytes s := by
  unfold txAllocArrow
  dsimp only
  split <;> simp [poppedBytes, txBuild]

theorem poppedBytes_i2cTransmit (flush : Bool) (addr : Nat) (len8 : Byte) (txbuf : List Byte)
    (s : State) : poppedBytes (i2cTransmit flush addr len8 txbuf s) = poppedBytes s := by
  unfold i2cTransmit
  dsimp only
  split <;> simp [poppedBytes, txWrite, txBuild, txBegin]

theorem poppedBytes_rxRequestArrow (addr : Nat) (len8 : Byte) (s : State) :
    poppedBytes (rxRequestArrow addr len8 s) = poppedBytes s := by
  unfold rxRequestArrow
  dsimp only
  split
  · simp [poppedBytes, requestWrite]
  · split <;> simp [poppedBytes, requestWrite]

theorem poppedBytes_rxAllocArrow (len8 : Byte) (s : State) :
    poppedBytes (rxAllocArrow len8 s) = poppedBytes s := by
  unfold rxAllocArrow
  dsimp only
  split <;> simp [poppedBytes]

theorem poppedBytes_rxValidate (len8 : Byte) (s : State) :
    poppedBytes (rxValidate len8 s) = poppedBytes s := by
  unfold rxValidate
  dsimp only
  split <;> simp [poppedBytes]

theorem poppedBytes_rxReadArrow (addr : Nat) (len8 : Byte) (s : State) :
    poppedBytes (rxReadArrow addr len8 s) = poppedBytes s := by
  unfold rxReadArrow
  dsimp only
  split <;> simp [poppedBytes, rxStore]

theorem poppedBytes_rxReadPhase (addr : Nat) (len8 : Byte) (s : State) :
    poppedBytes (rxReadPhase addr len8 s) = poppedBytes s := by
  rcases rxReadPhase_cases addr len8 s with ⟨-, h⟩ |
    ⟨-, ⟨-, h⟩ | ⟨available, echoed, payload, -, -, ⟨-, h⟩ | ⟨-, h⟩⟩⟩ <;>
  simp [h, poppedBytes, afterRead, rxStore]

theorem poppedBytes_i2cReceive (addr : Nat) (len8 : Byte) (s : State) :
    poppedBytes (i2cReceive addr len8 s) = poppedBytes s := by
  obtain ⟨ws, h | ⟨k, -, h⟩⟩ := i2cReceive_cases addr len8 s <;> rw [h]
  · simp [poppedBytes, afterFailures, rxBegin]
  · exact poppedBytes_rxReadPhase _ _ _

/-- An arrow returns no byte to S_POP. -/
theorem poppedBytes_takeArrow {s t : State} (h : takeArrow s = .next t) :
    poppedBytes t = poppedBytes s := by
  rcases takeArrow_cases h with ⟨-, rfl⟩ | ⟨_, addr, len8, txbuf, -, ⟨-, rfl⟩ | ⟨-, rfl, -⟩⟩ |
    ⟨addr, len8, -, ⟨-, rfl⟩ | ⟨-, rfl⟩ | ⟨-, -, rfl⟩ | ⟨-, -, rfl⟩⟩
  · rfl
  · exact poppedBytes_txAllocArrow len8 txbuf s
  · exact poppedBytes_txWrite addr s
  · exact poppedBytes_rxRequestArrow addr len8 s
  · exact poppedBytes_rxAllocArrow len8 s
  · exact poppedBytes_rxReadArrow addr len8 s
  · exact poppedBytes_rxValidate len8 s

/-- Every operation but S_POP, and every frame, returns no byte (R77). -/
theorem poppedBytes_exec {i : Instr} {s t : State} (h : exec i s = .next t) (hpop : i ≠ .sPop) :
    poppedBytes t = poppedBytes s := by
  cases i with
  | sPop => exact absurd rfl hpop
  | sPush b =>
    obtain ⟨-, ⟨-, rfl⟩ | ⟨-, -, rfl⟩⟩ := exec_sPush_next h
    · rfl
    · exact poppedBytes_pushByte b s
  | sReset | sAvail | sOvr | tNow | tSleep | sTx | iReset =>
    simp only [exec_sReset, exec_sAvail, exec_sOvr, exec_tNow, exec_tSleep, exec_sTx, exec_iReset] at h
    cases (guarded_next h).2
    simp [poppedBytes]
  | iTx flush addr len8 txbuf =>
    rw [exec_iTx] at h
    cases (guarded_next h).2
    exact poppedBytes_i2cTransmit flush addr len8 txbuf s
  | iRx addr len8 =>
    rw [exec_iRx] at h
    cases (guarded_next h).2
    exact poppedBytes_i2cReceive addr len8 s
  | frameWrite length payload =>
    obtain ⟨_, addr, _, _, -, -, -, rfl⟩ := exec_frameWrite_next.mp h
    exact poppedBytes_txWrite addr s
  | frameReadRequest length =>
    obtain ⟨addr, -, -, rfl⟩ := exec_frameReadRequest_next.mp h
    exact poppedBytes_rxRequestArrow addr length s
  | frameReadResponse available echoed payload =>
    obtain ⟨addr, len8, -, -, -, -, rfl⟩ := exec_frameReadResponse_next.mp h
    exact poppedBytes_rxValidate len8 _
  | reserved6 | reserved7 | reservedB | reservedE | reservedF => simp [exec_reserved] at h

end Sys2Proof.Machine
end

section
/-! PROOFS. The FIFO across whole runs: in order, counted, and without a hold after a true S_AVAIL
(spec/20_memory.md R62, R67). -/

namespace Sys2Proof.Machine

/-- After its first reset the serial FIFO block of a state of the invariant is ready (R27). -/
theorem MachineInv.serialReady {s : State} (h : MachineInv s) (hi : s.sInit = true) : SerialReady s :=
  ⟨h.cfgOk.1, h.serialBuilt hi, hi, h.armed.trans hi, h.fillRange hi, h.drainRange hi⟩

/-! ## What happens to the pushed bytes -/

/-- From `s` to `t`, in which `pushed` was pushed: the bytes returned and the bytes then retained are, in
order, among the bytes retained at first and the bytes pushed, and those that are missing were counted
until saturation (R67). -/
def Delivers (pushed : List Byte) (s t : State) : Prop :=
  ∃ out, poppedBytes t = poppedBytes s ++ out ∧ (out ++ queue t).Sublist (queue s ++ pushed) ∧
    t.overruns = min (s.overruns + ((queue s ++ pushed).length - (out ++ queue t).length))
      (2 ^ s.cfg.ovrW - 1)

/-- Deliveries one after the other add up: what the first retains is what the second starts from. -/
theorem Delivers.trans {l m : List Byte} {s t u : State} (hst : Delivers l s t) (htu : Delivers m t u)
    (hcfg : t.cfg = s.cfg) : Delivers (l ++ m) s u := by
  obtain ⟨out, hp, hsub, hcount⟩ := hst
  obtain ⟨out', hp', hsub', hcount'⟩ := htu
  have hsub'' : (out ++ (out' ++ queue u)).Sublist (out ++ (queue t ++ m)) :=
    hsub'.append_left out
  have hsubm := hsub.append_right m
  refine ⟨out ++ out', by rw [hp', hp, List.append_assoc], ?_, ?_⟩
  · simpa using hsub''.trans (by simpa using hsubm)
  · have hlen := hsub.length_le
    have hlen' := hsub'.length_le
    rw [hcount', hcount, hcfg]
    simp only [List.length_append] at hlen hlen' ⊢
    omega

/-- A step that touches neither the queue nor the bytes returned delivers nothing. -/
theorem delivers_of_same {s t : State} (hw : s.overruns < 2 ^ s.cfg.ovrW) (hq : queue t = queue s)
    (ho : t.overruns = s.overruns) (hp : poppedBytes t = poppedBytes s) : Delivers [] s t :=
  ⟨[], by simpa using hp, by simp [hq], by simp [ho, hq, Nat.le_sub_one_of_lt hw]⟩

/-- A completed S_POP returns the oldest byte and retains the others (R103). -/
theorem delivers_popByte {s : State} (hw : s.overruns < 2 ^ s.cfg.ovrW) (h : SerialReady s)
    (hne : s.fill ≠ s.drain) : Delivers [] s (popByte s) := by
  have hq := queue_popByte h.fillRange h.drainRange hne
  exact ⟨_, poppedBytes_popByte s, by simp [hq], by simp [hq, Nat.le_sub_one_of_lt hw]⟩

/-- S_PUSH retains the byte, and counts the oldest one where it drops it (R101). -/
theorem delivers_pushByte {s : State} (hw : s.overruns < 2 ^ s.cfg.ovrW) (h : SerialReady s)
    (hbuf : Memory.wf s.buf) (b : Byte) : Delivers [b] s (pushByte b s) := by
  have hocc := occ_lt s (Nat.lt_of_lt_of_le Nat.two_pos h.twoCells)
  refine ⟨[], by simp [poppedBytes_pushByte], ?_⟩
  by_cases hroom : occ s < s.cfg.c - 1
  · obtain ⟨hq, ho⟩ := queue_pushByte_of_room h hbuf b hroom
    rw [hq, ho]
    exact ⟨List.Sublist.refl _, by simp [Nat.le_sub_one_of_lt hw]⟩
  · have h2 := h.twoCells
    obtain ⟨hq, ho⟩ := queue_pushByte_of_full h hbuf b (by omega)
    have hmin := satInc_min s.cfg s.overruns
    rw [Nat.min_eq_left (by omega)] at hmin
    rw [hq, ho, hmin]
    refine ⟨(List.tail_sublist _).append_right _, ?_⟩
    simp only [List.nil_append, List.length_append, List.length_tail, queue_length,
      List.length_singleton]
    congr 1
    omega

/-! ## The bytes pushed by an event -/

/-- The byte an instruction pushes. -/
def pushOf : Instr → Option Byte
  | .sPush b => some b
  | _ => none

/-- Only op code 0x0 is S_RESET (R78). -/
theorem decodeCommand_ne_sReset {k : Config} {p : Ports} (h : p.op ≠ 0x0) :
    decodeCommand k p ≠ .sReset := by
  intro hd
  unfold decodeCommand at hd
  split at hd
  · next h0 => exact h (BitVec.eq_of_toNat_eq h0)
  all_goals cases hd

/-- Only op code 0x1 pushes, and it pushes the port `data` (R78). -/
theorem pushOf_decodeCommand (k : Config) (p : Ports) :
    pushOf (decodeCommand k p) = if p.op = 0x1 then some p.data else none := by
  split
  · next h => simp [decodeCommand, h, pushOf]
  · next h =>
    unfold decodeCommand
    split
    case h_2 h1 => exact absurd (BitVec.eq_of_toNat_eq h1) h
    all_goals rfl

theorem pushedBytes_append (l m : List Event) : pushedBytes (l ++ m) = pushedBytes l ++ pushedBytes m :=
  List.filterMap_append

theorem pushedBytes_singleton (e : Event) : pushedBytes [e] = e.pushedByte.toList := by
  cases h : e.pushedByte <;> simp [pushedBytes, h]

/-- Every operation but S_RESET, and every frame, delivers what it pushes. -/
theorem exec_delivers {i : Instr} {s t : State} (h : MachineInv s) (hi : s.sInit = true)
    (hreset : i ≠ .sReset) (hx : exec i s = .next t) : Delivers (pushOf i).toList s t := by
  have hready := h.serialReady hi
  cases i with
  | sReset => exact absurd rfl hreset
  | sPush b =>
    rw [hready.exec_sPush hx]
    exact delivers_pushByte h.overrunsWidth hready h.bufWf b
  | sPop =>
    obtain ⟨-, ⟨-, rfl⟩ | ⟨hne, -, rfl⟩⟩ := exec_sPop_next hx
    · exact delivers_of_same h.overrunsWidth rfl rfl rfl
    · exact delivers_popByte h.overrunsWidth hready hne
  | _ =>
    obtain ⟨k, hdrain⟩ := exec_sameSerialButDrain hx (by simp) hreset
    exact delivers_of_same h.overrunsWidth
      (queue_congr (exec_persists hx).cfg k.buf k.fill (hdrain (by simp))) k.overruns
      (poppedBytes_exec hx (by simp))

theorem beginStepwise_delivers {i : Instr} {s t : State} (h : MachineInv s) (hi : s.sInit = true)
    (hreset : i ≠ .sReset) (hx : beginStepwise i s = .next t) : Delivers (pushOf i).toList s t := by
  rcases beginStepwise_cases hx with ⟨_, _, _, _, rfl, -, rfl⟩ | ⟨_, _, rfl, -, rfl⟩ | hx
  · exact delivers_of_same h.overrunsWidth rfl rfl rfl
  · exact delivers_of_same h.overrunsWidth rfl rfl rfl
  · exact exec_delivers h hi hreset hx

theorem resumeConsumer_delivers {s t : State} (h : MachineInv s) (hi : s.sInit = true)
    (hx : resumeConsumer s = .next t) : Delivers [] s t := by
  rcases resumeConsumer_cases hx with rfl | ⟨-, hne, -, rfl⟩ | ⟨_, _, -, -, rfl⟩
  · exact delivers_of_same h.overrunsWidth rfl rfl rfl
  · exact delivers_popByte h.overrunsWidth (h.serialReady hi) hne
  · exact delivers_of_same h.overrunsWidth rfl rfl (by simp [poppedBytes])

/-- Every event that presents no S_RESET delivers what it pushes (R67). -/
theorem handle_delivers {e : Event} {s t : State} (h : MachineInv s) (hi : s.sInit = true)
    (hreset : e.presentsReset = false) (hx : handle e s = .next t) :
    Delivers e.pushedByte.toList s t := by
  have hsame := fun hq ho hp => delivers_of_same (t := t) h.overrunsWidth hq ho hp
  rcases handle_cases hx with ⟨who, p, rfl, hrun⟩ | ⟨who, p, rfl, hrun⟩ | ⟨rfl, hrun⟩ |
    ⟨_, _, _, rfl, hrun⟩ | ⟨b, rfl, ⟨hun, -⟩ | ⟨-, hrun⟩⟩ | ⟨rfl, hrun⟩ | ⟨rfl, rfl⟩
  · have hne := decodeCommand_ne_sReset (k := s.cfg) (ne_of_beq_false hreset)
    have k := exec_delivers (h.withDriver s.inputs who) hi hne hrun
    rwa [pushOf_decodeCommand] at k
  · have hne := decodeCommand_ne_sReset (k := s.cfg) (ne_of_beq_false hreset)
    have k := beginStepwise_delivers (h.withDriver s.inputs who) hi hne hrun
    rwa [pushOf_decodeCommand] at k
  · have k := takeArrow_same hrun
    exact hsame (queue_congr k.cfg k.buf k.fill k.drain) k.overruns (poppedBytes_takeArrow hrun)
  · exact exec_delivers h hi (by simp) hrun
  · rw [h.armed, hi] at hun
    cases hun
  · exact (exec_delivers (h.withDriver s.inputs .producer) hi (by simp) hrun :)
  · exact resumeConsumer_delivers h hi hrun
  · exact hsame rfl rfl rfl

/-! ## An interval between two S_RESETs -/

/-- No event changes the configuration or clears `s_init` (R25, R34). -/
theorem handle_cfg_sInit {e : Event} {s t : State} (h : handle e s = .next t) :
    t.cfg = s.cfg ∧ (s.sInit = true → t.sInit = true) := by
  rcases handle_persists h with k | ⟨-, rfl⟩
  · exact ⟨k.cfg, k.sInit⟩
  · exact ⟨rfl, id⟩

/-- What holds of an interval that began at `s`, after the events `done`. -/
structure Interval (s : State) (done : List Event) (t : State) : Prop where
  inv : MachineInv t
  cfg : t.cfg = s.cfg
  sInit : t.sInit = true
  delivers : Delivers (pushedBytes done) s t

theorem Interval.start {s : State} (h : MachineInv s) (hi : s.sInit = true) : Interval s [] s :=
  ⟨h, rfl, hi, delivers_of_same h.overrunsWidth rfl rfl rfl⟩

theorem Interval.withInputs {s t : State} {done : List Event} (h : Interval s done t)
    (es : List Event) : Interval s done { t with inputs := es } :=
  ⟨h.inv.withDriver es t.presenter, h.cfg, h.sInit, h.delivers⟩

/-- An event that presents no S_RESET goes on with the interval. -/
theorem Interval.event {s t u : State} {done : List Event} {e : Event} (h : Interval s done t)
    (hreset : e.presentsReset = false) (hx : handle e t = .next u) : Interval s (done ++ [e]) u := by
  obtain ⟨hcfg, hi⟩ := handle_cfg_sInit hx
  refine ⟨handle_keepsInv h.inv hx, hcfg.trans h.cfg, hi h.sInit, ?_⟩
  rw [pushedBytes_append, pushedBytes_singleton]
  exact h.delivers.trans (handle_delivers h.inv h.sInit hreset hx) h.cfg

/-- Any run of events that present no S_RESET goes on with the interval. -/
theorem Interval.events {s : State} : ∀ (events done : List Event) (t u : State),
    (∀ e ∈ events, e.presentsReset = false) → t.inputs = events → Interval s done t →
    steps events.length t = .next u → Interval s (done ++ events) u
  | [], done, t, u, _, _, h, hx => by
    cases hx
    simpa using h
  | e :: rest, done, t, u, hall, hin, h, hx => by
    obtain ⟨he, hrest⟩ := List.forall_mem_cons.mp hall
    obtain ⟨v, hv, hu⟩ := steps_succ_next hx
    rw [step_event hin] at hv
    have hnext := (h.withInputs rest).event he hv
    simpa using Interval.events rest (done ++ [e]) v u hrest (handle_inputs hv) hnext hu

/-- Settles O30, by the interval from `s`, at whose start nothing is retained and nothing counted. -/
theorem bytesAreDeliveredInOrder : Obligations.BytesAreDeliveredInOrder := by
  unfold Obligations.BytesAreDeliveredInOrder
  intro s events t h hi hempty hcount hreset hx
  have hstart := (Interval.start h hi).withInputs events
  have hend := Interval.events events [] _ t hreset rfl hstart hx
  have hq : queue s = [] := (queue_eq_nil_iff (h.fillRange hi) (h.drainRange hi)).mpr hempty
  simpa [Delivers, hq, hcount] using hend.delivers

/-! ## A true S_AVAIL -/

/-- The CONSUMER may present S_POP and a byte is there for it. -/
structure MayPop (s : State) : Prop where
  inv : MachineInv s
  sInit : s.sInit = true
  ready : s.consumer = .ready
  retained : avail s = true

/-- S_POP presented then completes with the byte at `drain` (R103). -/
theorem MayPop.completes {s : State} (h : MayPop s) :
    exec .sPop { s with presenter := .consumer } = .next (popByte { s with presenter := .consumer }) := by
  have hadmitted : whyRefused .serial .consumer true { s with presenter := .consumer } = none :=
    whyRefused_eq_none.mpr ⟨h.inv.serialBuilt h.sInit, rfl, rfl, nofun, fun _ => h.ready,
      fun _ => h.sInit⟩
  rw [exec_sPop, guarded_of_none hadmitted]
  exact popOrHold_pops ((avail_iff s).mp h.retained) (h.inv.drainRange h.sInit)

/-- An arriving byte at a ready block is pushed, whoever the consumer is (R111). -/
theorem handle_byteArrived_ready {s : State} (h : SerialReady s) (b : Byte) :
    handle (.byteArrived b) s = .next (pushByte b { s with presenter := .producer }) := by
  have hadmitted : whyRefused .serial .producer true { s with presenter := .producer } = none :=
    whyRefused_eq_none.mpr ⟨h.built, rfl, rfl, nofun, nofun, fun _ => h.initialised⟩
  rw [handle_byteArrived, lineDelivers_armed h.armed, exec_sPush, guarded_of_none hadmitted]
  simp [h.armed, h.fillRange]

/-- A byte or a tick is always taken, and a byte stays there to be popped (R62). -/
theorem MayPop.after_event {s : State} {e : Event} (h : MayPop s) (he : e.isEnvironmentStep) :
    ∃ t, handle e s = .next t ∧ MayPop t := by
  have hready := h.inv.serialReady h.sInit
  rcases he with ⟨b, rfl⟩ | rfl
  · have hx := handle_byteArrived_ready hready b
    have havail : avail (pushByte b { s with presenter := .producer }) = true :=
      avail_pushByte (s := { s with presenter := .producer }) { hready with } b
    exact ⟨_, hx, handle_keepsInv h.inv hx, by simpa using h.sInit, by simpa using h.ready, havail⟩
  · exact ⟨_, rfl, h.inv.tickStep, h.sInit, h.ready, h.retained⟩

/-- Any number of bytes and ticks is taken, and a byte is there to be popped after them (R62). -/
theorem MayPop.after_events : ∀ (events : List Event) (s : State), (∀ e ∈ events, e.isEnvironmentStep) →
    s.inputs = events → MayPop s → ∃ t, steps events.length s = .next t ∧ MayPop t
  | [], s, _, _, h => ⟨s, rfl, h⟩
  | e :: rest, s, hall, hin, h => by
    obtain ⟨he, hrest⟩ := List.forall_mem_cons.mp hall
    have htaken : MayPop { s with inputs := rest } :=
      ⟨h.inv.withDriver rest s.presenter, h.sInit, h.ready, h.retained⟩
    obtain ⟨u, hu, hpop⟩ := htaken.after_event he
    obtain ⟨t, ht, hend⟩ := MayPop.after_events rest u hrest (handle_inputs hu) hpop
    exact ⟨t, (steps_succ ((step_event hin).trans hu)).trans ht, hend⟩

/-- Settles O32: the byte that S_AVAIL saw, or one that replaced it, is still there after the run. -/
theorem trueAvailMeansThePopDoesNotHold : Obligations.TrueAvailMeansThePopDoesNotHold := by
  unfold Obligations.TrueAvailMeansThePopDoesNotHold
  intro s events h hi hmay havail henv
  obtain ⟨t, ht, hpop⟩ := MayPop.after_events events { s with inputs := events } henv rfl
    ⟨h.withDriver events s.presenter, hi, hmay.ready, havail⟩
  exact ⟨t, _, _, ht, hpop.completes, rfl, rfl⟩

end Sys2Proof.Machine
end

section
/-! PROOFS. What the operations do to the spaces and to the results: no access to `BUF` is out of range,
I_RX stores the bytes it was asked for, a pure read adds its result (spec/20_memory.md R51, R53, R60). -/

namespace Sys2Proof.Machine

/-! ## No fault -/

/-- A guarded operation faults only if it was admitted and ran. -/
theorem guarded_fault {b : Block} {r : Role} {n : Bool} {s : State} {run : State → Answer} {f : Fault}
    (h : guarded b r n s run = .fault f) : whyRefused b r n s = none ∧ run s = .fault f := by
  unfold guarded at h
  cases ha : whyRefused b r n s with
  | none => rw [ha] at h; exact ⟨rfl, h⟩
  | some why => rw [ha] at h; cases h

/-- S_POP, presented or held, faults only at a `drain` that is no address of `BUF`. -/
theorem popOrHold_ne_fault {s : State} (hd : s.drain < s.cfg.c) (f : Fault) :
    popOrHold s ≠ .fault f := by
  by_cases he : s.fill = s.drain
  · simp [popOrHold_holds he]
  · simp [popOrHold_pops he hd]

/-- The frames on the bus have no access to `BUF`. -/
theorem exec_frame_ne_fault {i : Instr} {s : State} {f : Fault}
    (hi : (∃ length payload, i = .frameWrite length payload) ∨
      (∃ length, i = .frameReadRequest length) ∨
      ∃ available echoed payload, i = .frameReadResponse available echoed payload) :
    exec i s ≠ .fault f := by
  rcases hi with ⟨length, payload, rfl⟩ | ⟨length, rfl⟩ | ⟨available, echoed, payload, rfl⟩ <;>
    simp only [exec, execFrameWrite, execFrameReadRequest, execFrameReadResponse] <;>
    repeat' split
  all_goals exact nofun

/-- Under the invariant S_PUSH and S_POP find their index in range (R27), and no other operation has an
access that can fault. -/
theorem exec_ne_fault {i : Instr} {s : State} (h : MachineInv s) (f : Fault) :
    exec i s ≠ .fault f := by
  intro hx
  cases i with
  | sPush b =>
    rw [exec_sPush] at hx
    obtain ⟨ha, hx⟩ := guarded_fault hx
    have hfill : s.fill < s.cfg.c := h.fillRange (blockReset_of_admitted ha)
    simp only [hfill, if_true] at hx
    split at hx <;> cases hx
  | sPop =>
    rw [exec_sPop] at hx
    obtain ⟨ha, hx⟩ := guarded_fault hx
    exact popOrHold_ne_fault (h.drainRange (blockReset_of_admitted ha)) f hx
  | sReset | sAvail | sOvr | tNow | tSleep | sTx | iReset | iTx | iRx =>
    simp only [exec_sReset, exec_sAvail, exec_sOvr, exec_tNow, exec_tSleep, exec_sTx, exec_iReset,
      exec_iTx, exec_iRx] at hx
    cases (guarded_fault hx).2
  | frameWrite length payload => exact exec_frame_ne_fault (.inl ⟨_, _, rfl⟩) hx
  | frameReadRequest length => exact exec_frame_ne_fault (.inr (.inl ⟨_, rfl⟩)) hx
  | frameReadResponse available echoed payload =>
    exact exec_frame_ne_fault (.inr (.inr ⟨_, _, _, rfl⟩)) hx
  | reserved6 | reserved7 | reservedB | reservedE | reservedF => simp [exec_reserved] at hx

theorem runDecoded_ne_fault {p : Presentation} {s : State} (h : MachineInv s) (f : Fault) :
    runDecoded p s ≠ .fault f := by
  unfold runDecoded
  split
  · exact exec_ne_fault h f
  · exact nofun

theorem beginStepwise_ne_fault {i : Instr} {s : State} (h : MachineInv s) (f : Fault) :
    beginStepwise i s ≠ .fault f := by
  intro hx
  unfold beginStepwise at hx
  split at hx
  · cases (guarded_fault hx).2
  · cases (guarded_fault hx).2
  · exact exec_ne_fault h f hx

theorem takeArrow_ne_fault {s : State} (h : MachineInv s) (f : Fault) : takeArrow s ≠ .fault f := by
  unfold takeArrow
  split
  case h_3 | h_4 => exact runDecoded_ne_fault h f
  all_goals exact nofun

/-- A held S_POP was presented after the block's first reset, so its `drain` is in range (R27). -/
theorem resumeConsumer_ne_fault {s : State} (h : MachineInv s) (f : Fault) :
    resumeConsumer s ≠ .fault f := by
  unfold resumeConsumer
  split
  · exact nofun
  · next hc =>
    have hk : EngineIdle s ∧ s.sInit = true := by simpa only [ConsumerOk, hc] using h.consumerOk
    exact popOrHold_ne_fault (h.drainRange hk.2) f
  · exact nofun
  · exact nofun

theorem handle_ne_fault {e : Event} {s : State} (h : MachineInv s) (f : Fault) :
    handle e s ≠ .fault f := by
  cases e with
  | command who p => exact exec_ne_fault (h.withDriver s.inputs who) f
  | commandStepwise who p => exact beginStepwise_ne_fault (h.withDriver s.inputs who) f
  | arrow => exact takeArrow_ne_fault h f
  | busResponse bytes => exact runDecoded_ne_fault h f
  | byteArrived b =>
    rw [handle_byteArrived, lineDelivers]
    split
    · exact exec_ne_fault (h.withDriver s.inputs .producer) f
    · exact nofun
  | resume => exact resumeConsumer_ne_fault h f
  | tick => exact nofun

/-- Settles O5: a step is idle or handles one event, and no event faults under the invariant. -/
theorem noStepFaultsUnderTheInvariant : Obligations.NoStepFaultsUnderTheInvariant := by
  unfold Obligations.NoStepFaultsUnderTheInvariant
  intro s h f
  cases hin : s.inputs with
  | nil => simp [step_idle hin]
  | cons e rest =>
    rw [step_event hin]
    exact handle_ne_fault (h.withDriver rest s.presenter) f

/-! ## The bytes I_RX stores -/

/-- The read phase stores a payload of the length asked for, or nothing (R132 steps 3 to 5). -/
theorem rxReadPhase_rxbuf (addr : Nat) (len8 : Byte) (s : State) :
    (rxReadPhase addr len8 s).rxbuf = s.rxbuf ∨ ∃ payload, payload.length = len8.toNat ∧
      (rxReadPhase addr len8 s).rxbuf = Memory.writeBytes s.rxbuf 0 payload := by
  rcases rxReadPhase_cases addr len8 s with ⟨-, h⟩ |
    ⟨-, ⟨-, h⟩ | ⟨available, echoed, payload, hlen, -, ⟨-, h⟩ | ⟨-, h⟩⟩⟩ <;> rw [h]
  · exact .inl rfl
  · exact .inl rfl
  · exact .inr ⟨payload, hlen, rfl⟩
  · exact .inl rfl

/-- I_RX stores a payload of the length asked for, or nothing: its requests store nothing (R132). -/
theorem i2cReceive_rxbuf (addr : Nat) (len8 : Byte) (s : State) :
    (i2cReceive addr len8 s).rxbuf = s.rxbuf ∨ ∃ payload, payload.length = len8.toNat ∧
      (i2cReceive addr len8 s).rxbuf = Memory.writeBytes s.rxbuf 0 payload := by
  obtain ⟨ws, h | ⟨k, -, h⟩⟩ := i2cReceive_cases addr len8 s <;> rw [h]
  · exact .inl rfl
  · exact rxReadPhase_rxbuf addr len8 _

/-- Settles O43: a payload stored from cell 0 on ends below cell `len8`. -/
theorem iRxWritesOnlyTheRequestedBytes : Obligations.IRxWritesOnlyTheRequestedBytes := by
  unfold Obligations.IRxWritesOnlyTheRequestedBytes
  intro s t addr len8 hw h
  rw [exec_iRx] at h
  cases (guarded_next h).2
  refine ⟨fun a ha => ?_, (i2cReceive_same addr len8 s).buf⟩
  rcases i2cReceive_rxbuf addr len8 s with hk | ⟨payload, hlen, hk⟩ <;> rw [hk]
  rw [Memory.read_writeBytes _ _ _ _ hw, if_neg (by omega)]

/-! ## Pure reads -/

/-- An operation that does nothing but return a value, which the results so far do not change: it adds
that result, is admitted again at once, and adds it again (R60). -/
theorem guarded_ret_repeats {b : Block} {n : Bool} {s t : State} (value : State → Result)
    (hpure : ∀ (s : State) (rs : List Returned), value { s with results := rs } = value s)
    (h : guarded b .consumer n s (fun s => .next (s.ret .consumer (value s))) = .next t) :
    ∃ res, t = { s with results := s.results ++ [res] } ∧
      guarded b .consumer n t (fun s => .next (s.ret .consumer (value s))) =
        .next { s with results := s.results ++ [res, res] } := by
  obtain ⟨ha, h⟩ := guarded_next h
  cases h
  refine ⟨⟨.consumer, value s⟩, rfl, ?_⟩
  have hagain : whyRefused b .consumer n (s.ret .consumer (value s)) = none := ha
  have hsame : value (s.ret .consumer (value s)) = value s := hpure s _
  rw [guarded_of_none hagain, hsame]
  simp [State.ret]

/-- Settles O59: `avail`, `overruns` and `tick` do not depend on the results returned. -/
theorem pureReadsRepeat : Obligations.PureReadsRepeat := by
  unfold Obligations.PureReadsRepeat
  rintro s t i (rfl | rfl | rfl) h
  · exact guarded_ret_repeats (fun s => { code := .ok, rflag := some (avail s) }) (fun _ _ => rfl) h
  · exact guarded_ret_repeats (fun s => { code := .ok, rcount := some s.overruns }) (fun _ _ => rfl) h
  · exact guarded_ret_repeats (fun s => { code := .ok, rtick := some s.tick }) (fun _ _ => rfl) h

end Sys2Proof.Machine
end

section
/-! PROOFS. The decoder and the encoder (spec/30_encoding.md R75 to R82): a row of the op code map at a
time, and the frames as their own encoding. -/

namespace Sys2Proof.Machine

/-! ## The rows of the op code map -/

section

variable {k : Config} {p q : Ports}

theorem decodeCommand_sReset (h : p.op = 0x0) : decodeCommand k p = .sReset := by
  simp [decodeCommand, h]

theorem decodeCommand_sPush (h : p.op = 0x1) : decodeCommand k p = .sPush p.data := by
  simp [decodeCommand, h]

theorem decodeCommand_sAvail (h : p.op = 0x2) : decodeCommand k p = .sAvail := by
  simp [decodeCommand, h]

theorem decodeCommand_sPop (h : p.op = 0x3) : decodeCommand k p = .sPop := by
  simp [decodeCommand, h]

theorem decodeCommand_sTx (h : p.op = 0x4) : decodeCommand k p =
    .sTx p.flush (p.lenN % 2 ^ k.lenW) (p.txbuf.take (p.lenN % 2 ^ k.lenW)) := by
  simp [decodeCommand, h]

theorem decodeCommand_sOvr (h : p.op = 0x5) : decodeCommand k p = .sOvr := by
  simp [decodeCommand, h]

theorem decodeCommand_reserved6 (h : p.op = 0x6) : decodeCommand k p = .reserved6 := by
  simp [decodeCommand, h]

theorem decodeCommand_reserved7 (h : p.op = 0x7) : decodeCommand k p = .reserved7 := by
  simp [decodeCommand, h]

theorem decodeCommand_iReset (h : p.op = 0x8) : decodeCommand k p = .iReset := by
  simp [decodeCommand, h]

theorem decodeCommand_iTx (h : p.op = 0x9) : decodeCommand k p =
    .iTx p.flush (p.addr % 2 ^ k.addrW) p.len8 (p.txbuf.take p.len8.toNat) := by
  simp [decodeCommand, h]

theorem decodeCommand_iRx (h : p.op = 0xA) :
    decodeCommand k p = .iRx (p.addr % 2 ^ k.addrW) p.len8 := by
  simp [decodeCommand, h]

theorem decodeCommand_reservedB (h : p.op = 0xB) : decodeCommand k p = .reservedB := by
  simp [decodeCommand, h]

theorem decodeCommand_tNow (h : p.op = 0xC) : decodeCommand k p = .tNow := by
  simp [decodeCommand, h]

theorem decodeCommand_tSleep (h : p.op = 0xD) :
    decodeCommand k p = .tSleep (p.dur % 2 ^ k.tickW) := by
  simp [decodeCommand, h]

theorem decodeCommand_reservedE (h : p.op = 0xE) : decodeCommand k p = .reservedE := by
  simp [decodeCommand, h]

theorem decodeCommand_reservedF (h : p.op = 0xF) : decodeCommand k p = .reservedF := by
  simp [decodeCommand, h]

/-- The operations of format N and the reserved codes read no operand port (R75, R78, R79). -/
theorem decodeCommand_congr_of_portless (hop : p.op = q.op)
    (h : p.op ∈ [0x0#4, 0x2, 0x3, 0x5, 0x6, 0x7, 0x8, 0xB, 0xC, 0xE, 0xF]) :
    decodeCommand k p = decodeCommand k q := by
  cases p
  cases q
  cases hop
  fin_cases h <;> rfl

end

/-- Settles O10: the row of each op code, and the ports that the row reads. -/
theorem onlyTheUsedPortsAreDecoded : Obligations.OnlyTheUsedPortsAreDecoded := by
  unfold Obligations.OnlyTheUsedPortsAreDecoded
  constructor
  · intro k p
    exact ⟨decodeCommand_sReset, fun h => ⟨_, decodeCommand_sPush h⟩, decodeCommand_sAvail,
      decodeCommand_sPop, fun h => ⟨_, _, _, decodeCommand_sTx h⟩, decodeCommand_sOvr,
      decodeCommand_reserved6, decodeCommand_reserved7, decodeCommand_iReset,
      fun h => ⟨_, _, _, _, decodeCommand_iTx h⟩, fun h => ⟨_, _, decodeCommand_iRx h⟩,
      decodeCommand_reservedB, decodeCommand_tNow, fun h => ⟨_, decodeCommand_tSleep h⟩,
      decodeCommand_reservedE, decodeCommand_reservedF⟩
  · intro k p q hop
    refine ⟨decodeCommand_congr_of_portless hop, ?sPush, ?sTx, ?iTx, ?iRx, ?tSleep⟩
    case sPush =>
      intro h hdata
      rw [decodeCommand_sPush h, decodeCommand_sPush (hop ▸ h), hdata]
    case sTx =>
      intro h hflush hlenN htxbuf
      rw [decodeCommand_sTx h, decodeCommand_sTx (hop ▸ h), hflush, hlenN, htxbuf]
    case iTx =>
      intro h hflush haddr hlen8 htxbuf
      rw [decodeCommand_iTx h, decodeCommand_iTx (hop ▸ h), hflush, haddr, hlen8, htxbuf]
    case iRx =>
      intro h haddr hlen8
      rw [decodeCommand_iRx h, decodeCommand_iRx (hop ▸ h), haddr, hlen8]
    case tSleep =>
      intro h hdur
      rw [decodeCommand_tSleep h, decodeCommand_tSleep (hop ▸ h), hdur]

/-- Settles O11: each word is a closed term of the decoder. -/
theorem tableWordsDecodeToTheirRows : Obligations.TableWordsDecodeToTheirRows := by
  unfold Obligations.TableWordsDecodeToTheirRows
  decide

/-! ## What well-formedness says -/

section

variable {k : Config}

theorem wellFormed_sTx {flush : Bool} {lenN : Nat} {txbuf : List Byte} :
    WellFormed k (.sTx flush lenN txbuf) = true ↔ lenN < 2 ^ k.lenW ∧ txbuf.length = lenN := by
  simp [WellFormed]

theorem wellFormed_iTx {flush : Bool} {addr : Nat} {len8 : Byte} {txbuf : List Byte} :
    WellFormed k (.iTx flush addr len8 txbuf) = true ↔
      addr < 2 ^ k.addrW ∧ txbuf.length = len8.toNat := by
  simp [WellFormed]

theorem wellFormed_iRx {addr : Nat} {len8 : Byte} :
    WellFormed k (.iRx addr len8) = true ↔ addr < 2 ^ k.addrW := by
  simp [WellFormed]

theorem wellFormed_tSleep {dur : Nat} : WellFormed k (.tSleep dur) = true ↔ dur < 2 ^ k.tickW := by
  simp [WellFormed]

theorem wellFormed_frameWrite {length : Byte} {payload : List Byte} :
    WellFormed k (.frameWrite length payload) = true ↔ payload.length = length.toNat := by
  simp [WellFormed]

theorem wellFormed_frameReadResponse {available echoed : Byte} {payload : List Byte} :
    WellFormed k (.frameReadResponse available echoed payload) = true ↔ payload.length ≤ 255 := by
  simp [WellFormed]

end

/-! ## Decoding what the encoder wrote -/

/-- A response of at most 257 bytes decodes to itself (R82). -/
theorem decode_readResponse (k : Config) (available echoed : Byte) {payload : List Byte}
    (h : payload.length ≤ 255) :
    decode k (.busReadData (available :: echoed :: payload)) =
      .ok (.frameReadResponse available echoed payload) := by
  simp [decode, decodeReadData, h]

/-- An operation that its row decodes to is what the decoder reads from the command port. -/
theorem decode_command {k : Config} {p : Ports} {i : Instr} (h : decodeCommand k p = i) :
    decode k (.command p) = .ok i := congrArg Except.ok h

/-- Settles O8: an operand that fits its port keeps all its bits, a payload of its stated length is taken
whole, and each frame decodes to itself. -/
theorem decodeOfEncodeIsTheInstruction : Obligations.DecodeOfEncodeIsTheInstruction := by
  unfold Obligations.DecodeOfEncodeIsTheInstruction
  intro k i hwf
  cases i with
  | sTx flush lenN txbuf =>
    obtain ⟨hlen, hbuf⟩ := wellFormed_sTx.mp hwf
    apply decode_command
    rw [decodeCommand_sTx rfl, Nat.mod_eq_of_lt hlen, List.take_of_length_le hbuf.le]
  | iTx flush addr len8 txbuf =>
    obtain ⟨haddr, hbuf⟩ := wellFormed_iTx.mp hwf
    apply decode_command
    rw [decodeCommand_iTx rfl, Nat.mod_eq_of_lt haddr, List.take_of_length_le hbuf.le]
  | iRx addr len8 =>
    apply decode_command
    rw [decodeCommand_iRx rfl, Nat.mod_eq_of_lt (wellFormed_iRx.mp hwf)]
  | tSleep dur =>
    apply decode_command
    rw [decodeCommand_tSleep rfl, Nat.mod_eq_of_lt (wellFormed_tSleep.mp hwf)]
  | frameWrite length payload => exact decode_writeFrame k length payload (wellFormed_frameWrite.mp hwf)
  | frameReadRequest length => exact decode_requestFrame k length
  | frameReadResponse available echoed payload =>
    exact decode_readResponse k available echoed (wellFormed_frameReadResponse.mp hwf)
  | sReset | sPush | sAvail | sPop | sOvr | iReset | tNow => rfl
  | reserved6 | reserved7 | reservedB | reservedE | reservedF => rfl

/-! ## Encoding what the decoder accepted -/

/-- The data of a master write has one reading: `[0x00]` and `[0x00, length]` by their number of bytes,
any other by a first byte that counts the rest (R80, R81). -/
theorem encode_of_decodeWriteData (k : Config) {bytes : List Byte} {i : Instr}
    (h : decodeWriteData bytes = .ok i) :
    WellFormed k i = true ∧ encode i = .busWriteData bytes := by
  unfold decodeWriteData at h
  split at h
  · cases h
  · split at h <;> cases h
    next h0 => exact ⟨rfl, by rw [h0]; rfl⟩
  · split at h
    · next h0 =>
      split at h <;> cases h
      next hrest => exact ⟨rfl, by rw [h0, hrest]; rfl⟩
    · split at h <;> cases h
      next hcount => exact ⟨wellFormed_frameWrite.mpr hcount, rfl⟩

/-- The data of a master read is accepted only within the 257 bytes of R82. -/
theorem encode_of_decodeReadData (k : Config) {bytes : List Byte} {i : Instr}
    (h : decodeReadData bytes = .ok i) :
    WellFormed k i = true ∧ encode i = .busReadData bytes := by
  obtain ⟨available, echoed, payload, rfl, rfl⟩ := decodeReadData_ok h
  have hlen : payload.length ≤ 255 := by
    by_contra hlong
    simp [decodeReadData, hlong] at h
  exact ⟨wellFormed_frameReadResponse.mpr hlen, rfl⟩

/-- Settles O9, by the data of a master write and the data of a master read. -/
theorem acceptedFramesAreTheirOwnEncoding : Obligations.AcceptedFramesAreTheirOwnEncoding := by
  unfold Obligations.AcceptedFramesAreTheirOwnEncoding
  exact ⟨fun k _ _ h => encode_of_decodeWriteData k h, fun k _ _ h => encode_of_decodeReadData k h⟩

end Sys2Proof.Machine
end

section
/-! PROOFS. The refusals that name the op code or the build: reserved codes and the absent transport
(spec/30_encoding.md R79, spec/00_scope.md R7, R10). -/

namespace Sys2Proof.Machine

/-- An operation of a role is guarded for that role and for its block (R78). -/
theorem exec_guarded {i : Instr} {r : Role} {b : Block} (hr : roleAllowed i = some r)
    (hb : blockOf i = some b) : ∃ n run, ∀ s, exec i s = guarded b r n s run := by
  cases i with
  | reserved6 | reserved7 | reservedB | reservedE | reservedF => cases hr
  | frameWrite | frameReadRequest | frameReadResponse => cases hr
  | sReset | sPush | sAvail | sPop | sTx | sOvr | iReset | iTx | iRx | tNow | tSleep =>
    cases hr
    cases hb
    exact ⟨_, _, fun _ => rfl⟩

/-- A guarded operation of a block that is not built names that ground, whatever else holds. -/
theorem guarded_of_absent {b : Block} {r : Role} {n : Bool} {s : State} {run : State → Answer}
    (h : s.cfg.has b = false) : guarded b r n s run = .refused .absentTransport := by
  simp [guarded, whyRefused, h]

/-- An operation of a transport the build does not contain is refused on that ground (R7). -/
theorem exec_of_absent {i : Instr} {r : Role} {b : Block} {s : State} (hr : roleAllowed i = some r)
    (hb : blockOf i = some b) (h : s.cfg.has b = false) : exec i s = .refused .absentTransport := by
  obtain ⟨n, run, hexec⟩ := exec_guarded hr hb
  rw [hexec, guarded_of_absent h]

/-- Settles O60: a reserved code has no other ground, and the build is looked at first. -/
theorem reservedAndAbsentAreTheGroundsNamedFirst :
    Obligations.ReservedAndAbsentAreTheGroundsNamedFirst := by
  unfold Obligations.ReservedAndAbsentAreTheGroundsNamedFirst
  exact ⟨exec_reserved, fun _ _ _ _ hr hb h => exec_of_absent hr hb h⟩

/-- Settles O12, from the grounds that the two kinds of refusal name. -/
theorem reservedAndAbsentOperationsAreRefused : Obligations.ReservedAndAbsentOperationsAreRefused := by
  unfold Obligations.ReservedAndAbsentOperationsAreRefused
  constructor
  · intro s i hi
    obtain ⟨h6, h7, hB, hE, hF⟩ := exec_reserved s
    rcases hi with rfl | rfl | rfl | rfl | rfl
    exacts [⟨_, h6⟩, ⟨_, h7⟩, ⟨_, hB⟩, ⟨_, hE⟩, ⟨_, hF⟩]
  · intro s i b hb hbuilt hrole
    obtain ⟨r, hr⟩ := Option.isSome_iff_exists.mp hrole
    exact ⟨_, exec_of_absent hr hb hbuilt⟩

end Sys2Proof.Machine
end

section
/-! PROOFS. The frames on the bus as the arrows of spec/41_i2c_framing.md R135 that carry them: the write
frame, the read request, and the read response with its validation (R80 to R82, R136). -/

namespace Sys2Proof.Machine

/-! ## The write frame -/

/-- The one `BusWrite` of I_TX ends the operation, with the code of its answer (R131). -/
theorem txWrite_eq (addr : Nat) (s : State) :
    txWrite addr s = { s with
      phase := .idle
      consumer := .ready
      scratch := none
      answers := { s.answers with write := s.answers.write.tail }
      freeIdx := s.freeIdx + 1
      trace := s.trace ++ [.busWrite addr s.scratchBytes s.cfg.i2cWriteMs (writeAnswer s), .free]
      results := s.results ++ [⟨.consumer, { code := writeCode (writeAnswer s) }⟩] } := by
  simp [txWrite, busWrite, State.freeScratch, State.call, State.endTx, State.ret]

/-- Settles O47: the frame runs, and the write that it is ends I_TX. -/
theorem frameWriteEndsTheTransmit : Obligations.FrameWriteEndsTheTransmit := by
  unfold Obligations.FrameWriteEndsTheTransmit
  intro s flush addr len8 txbuf length payload hc hp hb
  refine ⟨writeAnswer s, fun w rest h => writeAnswer_script h, ?_⟩
  rw [exec_frameWrite_next.mpr ⟨flush, addr, len8, txbuf, hc, hp, hb, rfl⟩, txWrite_eq, hb]
  rfl

/-! ## The read request -/

/-- One request write counts the attempt, draws one answer and is recorded (R132 step 1). -/
theorem requestWrite_eq (addr : Nat) (len8 : Byte) (s : State) :
    requestWrite addr len8 s = (writeAnswer s, { s with
      attempt := s.attempt + 1
      answers := { s.answers with write := s.answers.write.tail }
      freeIdx := s.freeIdx + 1
      trace := s.trace ++
        [.busWrite addr (requestFrame len8) s.cfg.i2cWriteMs (writeAnswer s)] }) := rfl

/-- The three arrows out of `RX_REQUEST` (R135), by the answer and the attempts used. -/
theorem rxRequestArrow_cases (addr : Nat) (len8 : Byte) (s : State) :
    (writeAnswer s = true →
      rxRequestArrow addr len8 s = { (requestWrite addr len8 s).2 with phase := .rxAlloc }) ∧
    (writeAnswer s = false → s.attempt + 1 < s.cfg.i2cReqAttempts →
      rxRequestArrow addr len8 s = (requestWrite addr len8 s).2) ∧
    (writeAnswer s = false → s.cfg.i2cReqAttempts ≤ s.attempt + 1 →
      rxRequestArrow addr len8 s = (requestWrite addr len8 s).2.endRx { code := .errWrite }) := by
  refine ⟨fun hw => ?ok, fun hw hlt => ?stays, fun hw hle => ?gives_up⟩
  case ok => simp [rxRequestArrow, requestWrite_eq, hw]
  case stays => simp [rxRequestArrow, requestWrite_eq, hw, hlt]
  case gives_up => simp [rxRequestArrow, requestWrite_eq, hw, hle.not_gt]

/-- Settles O48: the frame runs the arrow out of `RX_REQUEST` that the answer and the attempts select. -/
theorem frameReadRequestIsOneAttempt : Obligations.FrameReadRequestIsOneAttempt := by
  unfold Obligations.FrameReadRequestIsOneAttempt
  intro s addr len8 hc hp
  refine ⟨writeAnswer s, fun w rest h => writeAnswer_script h, ?_⟩
  rintro sent rfl
  have hexec := exec_frameReadRequest_next.mpr ⟨addr, hc, hp, rfl⟩
  obtain ⟨hok, hstays, hgivesUp⟩ := rxRequestArrow_cases addr len8 s
  refine ⟨fun hw => ?_, fun hw hlt => ?_, fun hw hle => ?_⟩
  · rw [hexec, hok hw]; rfl
  · rw [hexec, hstays hw hlt]; rfl
  · rw [hexec, hgivesUp hw hle]; rfl

/-! ## The read response -/

section

variable {s : State} {len8 available echoed : Byte} {payload : List Byte}

/-- The echoed length is the one asked for: payload and backlog are returned (R136). -/
theorem rxValidate_match (hb : s.scratchBytes = available :: echoed :: payload)
    (hlen : payload.length = len8.toNat) (he : echoed = len8) :
    rxValidate len8 s = { s with
      phase := .idle
      attempt := 0
      consumer := .ready
      scratch := none
      trace := s.trace ++ [.free]
      rxbuf := Memory.writeBytes s.rxbuf 0 payload
      results := s.results ++
        [⟨.consumer, { code := .ok, ravail := some available, rxbuf := some payload }⟩] } := by
  rw [rxValidate_cases hb hlen, if_pos he]
  rfl

/-- Another echoed length: the mismatch alone is returned, and `RXBUF` is as it was (R136). -/
theorem rxValidate_mismatch (hb : s.scratchBytes = available :: echoed :: payload)
    (hlen : payload.length = len8.toNat) (he : echoed ≠ len8) :
    rxValidate len8 s = { s with
      phase := .idle
      attempt := 0
      consumer := .ready
      scratch := none
      trace := s.trace ++ [.free]
      results := s.results ++ [⟨.consumer, { code := .errLenMismatch }⟩] } := by
  rw [rxValidate_cases hb hlen, if_neg he]
  rfl

/-- The arrow out of `RX_VALIDATE` (R135). -/
theorem takeArrow_rxValidate {addr : Nat} {r : Scratch} (hp : s.phase = .rxValidate)
    (hc : s.consumer = .inI2c (.rx addr len8)) (hr : s.scratch = some r) :
    takeArrow s = .next (rxValidate len8 s) := by
  simp [takeArrow, hp, hc, hr]

end

/-- Settles O49: the response, stored by the frame or there already, is read back from the scratch region,
and its second byte alone decides (R136). -/
theorem frameReadResponseIsAcceptedIffEchoed : Obligations.FrameReadResponseIsAcceptedIffEchoed := by
  unfold Obligations.FrameReadResponseIsAcceptedIffEchoed
  constructor
  · rintro s addr len8 r backlog echoed payload hc hp hr hsize hw hlen read rfl
    have hexec := exec_frameReadResponse_next (available := backlog) (echoed := echoed).mpr
      ⟨addr, len8, hc, hp, hlen, by rw [hr]; rfl, rfl⟩
    have hstored : (rxStore (backlog :: echoed :: payload) (s.call (.busRead addr (responseSize len8)
        s.cfg.i2cReadMs (some (backlog :: echoed :: payload))))).scratchBytes =
        backlog :: echoed :: payload :=
      scratchBytes_store (s := s.call _) hr (by simp [hsize, hlen]) hw
    constructor <;> intro he
    · rw [hexec, rxValidate_match hstored hlen he]
      simp [rxStore, State.scratchStore, State.call, responseSize]
    · rw [hexec, rxValidate_mismatch hstored hlen he]
      simp [rxStore, State.scratchStore, State.call, responseSize]
  · rintro s rest addr len8 r backlog echoed payload hin hp hc hr hb hlen done rfl
    have hstep : step s = .next (rxValidate len8 { s with inputs := rest }) := by
      rw [step_event hin, handle_arrow]
      exact takeArrow_rxValidate hp hc hr
    have hheld : ({ s with inputs := rest } : State).scratchBytes = backlog :: echoed :: payload := by
      simp [State.scratchBytes, hr, hb]
    constructor <;> intro he
    · rw [hstep, rxValidate_match hheld hlen he]
    · rw [hstep, rxValidate_mismatch hheld hlen he]

end Sys2Proof.Machine
end

section
/-! PROOFS. The operations of the serial FIFO block one by one (spec/40_serial_fifo.md R101 to R105): what
each leaves in the whole state, the hold of S_POP, and what an arriving byte does beside the consumer. -/

namespace Sys2Proof.Machine

/-! ## A ready block: what is admitted, and what keeps it ready -/

/-- A CONSUMER that may present an operation of the initialised block is admitted (R10, R201). -/
theorem ConsumerMay.admitted {s : State} (h : ConsumerMay .serial s) (hi : s.sInit = true) :
    whyRefused .serial .consumer true s = none :=
  whyRefused_eq_none.mpr ⟨h.built, by rw [h.presenter]; rfl, by rw [h.presenter]; rfl, nofun,
    fun _ => h.ready, fun _ => hi⟩

/-- The PRODUCER's S_PUSH is never refused by a ready block, and never faults (R101, R111). -/
theorem exec_sPush_of_ready {s : State} (h : SerialReady s) (hp : s.presenter = .producer)
    (b : Byte) : exec (.sPush b) s = .next (pushByte b s) := by
  have hadmitted : whyRefused .serial .producer true s = none :=
    whyRefused_eq_none.mpr ⟨h.built, by rw [hp]; rfl, by rw [hp]; rfl, nofun, nofun,
      fun _ => h.initialised⟩
  rw [exec_sPush, guarded_of_none hadmitted]
  simp [h.armed, h.fillRange]

/-- S_PUSH leaves the block ready: the line is armed again and both indices are in range (R27). -/
theorem serialReady_pushByte {s : State} (h : SerialReady s) (b : Byte) :
    SerialReady (pushByte b s) := by
  have hpos : 0 < s.cfg.c := Nat.lt_of_lt_of_le Nat.two_pos h.twoCells
  constructor
  case drainRange =>
    simp only [pushByte_fields]
    split
    · exact idxNext_lt _ _ hpos
    · exact h.drainRange
  case fillRange => simpa using idxNext_lt s.cfg s.fill hpos
  all_goals simp [h.twoCells, h.built, h.initialised]

/-- A completed S_POP leaves the block ready (R27). -/
theorem serialReady_popByte {s : State} (h : SerialReady s) : SerialReady (popByte s) := by
  have hpos : 0 < s.cfg.c := Nat.lt_of_lt_of_le Nat.two_pos h.twoCells
  constructor
  case drainRange => simpa using idxNext_lt s.cfg s.drain hpos
  all_goals simp [h.twoCells, h.built, h.initialised, h.armed, h.fillRange]

/-- S_TX leaves the block ready: it writes none of its registers (R104). -/
theorem serialReady_serialTransmit {s : State} (h : SerialReady s) (flush : Bool) (lenN : Nat)
    (txbuf : List Byte) : SerialReady (serialTransmit flush lenN txbuf s) :=
  { h with }

/-- The serial block does not look at what drives the machine, nor at what the consumer does. -/
theorem SerialReady.withAgents {s : State} (h : SerialReady s) (es : List Event) (who : Presenter)
    (c : Consumer) : SerialReady { s with inputs := es, presenter := who, consumer := c } :=
  { h with }

/-! ## One event at a ready block -/

/-- An arriving byte is pushed by the PRODUCER, whoever the consumer is and whatever it does (R111, R177). -/
theorem step_byteArrived_of_ready {s : State} {b : Byte} {rest : List Event} (h : SerialReady s)
    (hin : s.inputs = .byteArrived b :: rest) :
    step s = .next (pushByte b { s with inputs := rest, presenter := .producer }) := by
  rw [step_event hin]
  exact handle_byteArrived_ready (h.withAgents rest s.presenter s.consumer) b

/-- The held consumer looks again (R10 item 3). -/
theorem step_resume_heldPop {s : State} {rest : List Event} (hin : s.inputs = .resume :: rest)
    (hc : s.consumer = .heldPop) : step s = popOrHold { s with inputs := rest } := by
  rw [step_event hin, handle_resume]
  simp [resumeConsumer, hc]

/-- S_TX presented by the CONSUMER runs in the next step (R104). -/
theorem step_sTx_of_ready {s : State} {p : Ports} {rest : List Event} (h : SerialReady s)
    (hc : s.consumer = .ready) (hop : p.op = 0x4) (hin : s.inputs = .command .consumer p :: rest) :
    step s = .next (serialTransmit p.flush (p.lenN % 2 ^ s.cfg.lenW)
      (p.txbuf.take (p.lenN % 2 ^ s.cfg.lenW))
      { s with inputs := rest, presenter := .consumer }) := by
  have hmay : ConsumerMay .serial { s with inputs := rest, presenter := .consumer } :=
    ⟨h.built, rfl, hc⟩
  rw [step_event hin, handle_command, decodeCommand_sTx hop, exec_sTx,
    guarded_of_none (hmay.admitted h.initialised)]

/-! ## S_AVAIL, S_OVR and S_TX -/

/-- Settles O20: the flag is `avail` (R26). -/
theorem sAvailReturnsWhetherAByteIsRetained : Obligations.SAvailReturnsWhetherAByteIsRetained := by
  unfold Obligations.SAvailReturnsWhetherAByteIsRetained
  intro s hmay hi
  have hflag : avail s = decide (s.fill ≠ s.drain) := by
    rw [Bool.eq_iff_iff, avail_iff, decide_eq_true_iff]
  rw [exec_sAvail, guarded_of_none (hmay.admitted hi), hflag]
  rfl

/-- Settles O24: the counter is returned as it stands. -/
theorem sOvrReturnsTheOverrunCount : Obligations.SOvrReturnsTheOverrunCount := by
  unfold Obligations.SOvrReturnsTheOverrunCount
  intro s hmay hi
  rw [exec_sOvr, guarded_of_none (hmay.admitted hi)]
  rfl

/-- A failed `LineTx` leaves at most all its bytes sent (R107). -/
theorem lineAnswer_fail_le {n left : Nat} {s : State} (h : lineAnswer n s = .fail left) :
    left ≤ n := by
  unfold lineAnswer at h
  split at h
  · cases h
  · cases h; exact Nat.min_le_right _ _
  · split at h <;> cases h
    exact Nat.min_le_right _ _

theorem carries_takeBytes (txbuf : List Byte) (n k : Nat) : Carries txbuf n (takeBytes n k txbuf) :=
  ⟨takeBytes_length n k txbuf, fun i hn hi => takeBytes_getElem? n k i txbuf hn hi⟩

/-- Settles O23, with the operand bytes as they are read and the answer the line gives. -/
theorem sTxHandsTheBytesToTheLine : Obligations.STxHandsTheBytesToTheLine := by
  unfold Obligations.STxHandsTheBytesToTheLine
  intro s flush lenN txbuf hmay hi
  refine ⟨takeBytes lenN s.freeIdx txbuf, lineAnswer lenN s, carries_takeBytes txbuf lenN s.freeIdx,
    fun left => lineAnswer_fail_le, fun rest h => by simp [lineAnswer, h],
    fun left rest h => by simp [lineAnswer, h], ?_⟩
  rw [exec_sTx, guarded_of_none (hmay.admitted hi)]
  simp [serialTransmit, lineTx, State.ret, writeCode]

/-! ## S_POP and its hold -/

/-- Settles O21: a byte is retained, so S_POP does not hold. -/
theorem sPopReturnsTheOldestByte : Obligations.SPopReturnsTheOldestByte := by
  unfold Obligations.SPopReturnsTheOldestByte
  intro s h hmay hne
  rw [exec_sPop, guarded_of_none (hmay.admitted h.initialised), popOrHold_pops hne h.drainRange,
    ← idxNext_eq _ _ h.drainRange]
  simp [popByte, State.ret, hmay.ready]

/-- On an empty buffer the pushed byte is the one retained, so a pop returns it and empties the buffer. -/
theorem popByte_pushByte_of_empty {s : State} (h : SerialReady s) (hw : Memory.wf s.buf)
    (hempty : s.fill = s.drain) (b : Byte) :
    Memory.read (pushByte b s).buf (pushByte b s).drain = b ∧
      (popByte (pushByte b s)).fill = (popByte (pushByte b s)).drain := by
  have hpushed := serialReady_pushByte h b
  have hnil : queue s = [] := (queue_eq_nil_iff h.fillRange h.drainRange).mpr hempty
  have hocc : occ s = 0 := by rw [← queue_length, hnil, List.length_nil]
  have hone := (queue_pushByte_of_room h hw b (by have := h.twoCells; omega)).1
  rw [hnil, List.nil_append, queue_popByte hpushed.fillRange hpushed.drainRange
    ((avail_iff _).mp (avail_pushByte h b))] at hone
  obtain ⟨hread, hrest⟩ := List.cons.inj hone
  have hpopped := serialReady_popByte hpushed
  exact ⟨hread, (queue_eq_nil_iff hpopped.fillRange hpopped.drainRange).mp hrest⟩

theorem consumerResults_pushByte (s : State) (b : Byte) :
    consumerResults (pushByte b s) = consumerResults s := by
  simp [consumerResults]

theorem consumerResults_popByte (s : State) : consumerResults (popByte s) =
    consumerResults s ++ [{ code := .ok, rbyte := some (Memory.read s.buf s.drain) }] := by
  simp [consumerResults]

/-- A consumer held in S_POP that looks after one byte was pushed into the empty buffer returns that byte
(R103). -/
theorem heldPop_returns_pushedByte {s : State} {b : Byte} {rest : List Event} (h : SerialReady s)
    (hw : Memory.wf s.buf) (hempty : s.fill = s.drain) (hc : s.consumer = .heldPop)
    (hin : s.inputs = .resume :: rest) :
    ∃ u, step (pushByte b s) = .next u ∧ u.consumer = .ready ∧ u.inputs = rest ∧ u.fill = u.drain ∧
      consumerResults u = consumerResults s ++ [{ code := .ok, rbyte := some b }] := by
  obtain ⟨hread, hend⟩ := popByte_pushByte_of_empty h hw hempty b
  refine ⟨popByte { pushByte b s with inputs := rest }, ?_, rfl, rfl, hend, ?_⟩
  · rw [step_resume_heldPop (by simpa using hin) (by simpa using hc)]
    exact popOrHold_pops ((avail_iff _).mp (avail_pushByte h b)) (serialReady_pushByte h b).drainRange
  · rw [consumerResults_popByte, hread, ← consumerResults_pushByte s b]
    rfl

/-- Settles O22: the hold by the empty buffer, its end by the byte that arrives. -/
theorem sPopHoldsUntilAPush : Obligations.SPopHoldsUntilAPush := by
  unfold Obligations.SPopHoldsUntilAPush
  intro s h hw hmay hempty
  refine ⟨?_, fun rest => ?_, fun b rest => ?_⟩
  · rw [exec_sPop, guarded_of_none (hmay.admitted h.initialised), popOrHold_holds hempty]
  · rw [step_resume_heldPop (s := { s with consumer := .heldPop, inputs := .resume :: rest }) rfl rfl]
    exact popOrHold_holds hempty
  · have hpush := step_byteArrived_of_ready (rest := .resume :: rest)
      (h.withAgents (.byteArrived b :: .resume :: rest) s.presenter .heldPop) rfl
    obtain ⟨u, hpop, hu⟩ := heldPop_returns_pushedByte (b := b)
      (h.withAgents (.resume :: rest) .producer .heldPop) hw hempty rfl rfl
    exact ⟨u, (steps_succ hpush).trans (steps_succ hpop), hu⟩

/-! ## S_PUSH -/

/-- The whole state that S_PUSH's pseudocode leaves (R101). -/
theorem pushByte_eq (s : State) (b : Byte) : pushByte b s = { s with
    buf := Memory.write s.buf s.fill b
    fill := idxNext s.cfg s.fill
    drain := if full s then idxNext s.cfg s.drain else s.drain
    overruns := if full s then satInc s.cfg s.overruns else s.overruns
    rxArmed := true
    trace := s.trace ++ [.lineArmRx]
    results := s.results ++ [⟨.producer, { code := .ok }⟩] } := by
  have hfull : full { s with rxArmed := false } = full s := rfl
  cases h : full s <;> simp [pushByte, evictOldest, State.lineArmRx, State.call, State.ret, hfull, h]

/-- Settles O18: the byte is stored on both paths, and the oldest evicted when the buffer is full. -/
theorem sPushStoresAndEvictsOnOverrun : Obligations.SPushStoresAndEvictsOnOverrun := by
  unfold Obligations.SPushStoresAndEvictsOnOverrun
  intro s b h hp
  rw [exec_sPush_of_ready h hp, pushByte_eq, ← idxNext_eq _ _ h.fillRange, h.armed]
  cases hfull : full s with
  | true =>
    have hmeet : (s.fill + 1) % s.cfg.c = s.drain := (full_iff s).mp hfull
    simp [hmeet, idxNext, satInc]
  | false =>
    have hapart : (s.fill + 1) % s.cfg.c ≠ s.drain := fun e => by
      rw [(full_iff s).mpr e] at hfull
      cases hfull
    simp [hapart]

/-- Settles O28, by the occupancy alone: with room the byte is stored, and at C-1 the oldest is evicted. -/
theorem noIndexPositionIsSpecial : Obligations.NoIndexPositionIsSpecial := by
  unfold Obligations.NoIndexPositionIsSpecial
  intro s b h hp
  have hf := h.fillRange
  have hd := h.drainRange
  have hpushed := serialReady_pushByte h b
  have hstays : occ s < s.cfg.c - 1 → (pushByte b s).drain = s.drain := fun hroom => by
    simp [full_iff_occ s hf hd, hroom.ne]
  have hgrows : occ s < s.cfg.c - 1 → occ (pushByte b s) = occ s + 1 := fun hroom =>
    occ_of_fill_next hf hd hroom (by simp) (by simp) (hstays hroom)
  refine ⟨_, exec_sPush_of_ready h hp b, fun hroom => ?_, fun hlast => ?_, fun hocc => ?_⟩
  · exact ⟨hgrows hroom, hstays hroom, by simp [full_iff_occ s hf hd, hroom.ne]⟩
  · have h2 := h.twoCells
    rw [full_iff_occ _ hpushed.fillRange hpushed.drainRange, hgrows (by omega),
      (pushByte_fields s b).1]
    omega
  · have hfull : full s = true := (full_iff_occ s hf hd).mpr hocc
    have hstill : full (pushByte b s) = true := by simp [full_iff, hfull, (full_iff s).mp hfull]
    refine ⟨?_, by simp [hfull, idxNext], by simp [hfull, satInc]⟩
    simpa using (full_iff_occ _ hpushed.fillRange hpushed.drainRange).mp hstill

/-- Settles O36, by the step of an arriving byte, which does not look at the consumer. -/
theorem receptionCannotStall : Obligations.ReceptionCannotStall := by
  unfold Obligations.ReceptionCannotStall
  intro s b rest h hi hin
  have hready := h.serialReady hi
  have havail := avail_pushByte (hready.withAgents rest .producer s.consumer) b
  exact ⟨_, step_byteArrived_of_ready hready hin, by simp, havail, by simp⟩

/-! ## S_TX and an arriving byte -/

/-- Settles O33: S_TX reads and writes nothing that S_PUSH writes but the lists of what is shown. -/
theorem sTxCommutesWithAPush : Obligations.STxCommutesWithAPush := by
  unfold Obligations.STxCommutesWithAPush
  intro s b p h hc hop
  have hsent := step_sTx_of_ready (rest := [.byteArrived b])
    (h.withAgents [.command .consumer p, .byteArrived b] s.presenter s.consumer) hc hop rfl
  have hsentPushed := step_byteArrived_of_ready (b := b) (rest := [])
    (serialReady_serialTransmit (h.withAgents [.byteArrived b] .consumer s.consumer) p.flush
      (p.lenN % 2 ^ s.cfg.lenW) (p.txbuf.take (p.lenN % 2 ^ s.cfg.lenW))) (by simp)
  have hpushed := step_byteArrived_of_ready (rest := [.command .consumer p])
    (h.withAgents [.byteArrived b, .command .consumer p] s.presenter s.consumer) rfl
  have hpushedSent := step_sTx_of_ready (rest := [])
    (serialReady_pushByte (h.withAgents [.command .consumer p] .producer s.consumer) b)
    (by simpa using hc) hop (by simp)
  refine ⟨_, _, (steps_succ hsent).trans (steps_succ hsentPushed),
    (steps_succ hpushed).trans (steps_succ hpushedSent), ?_⟩
  simp [full, lineAnswer, consumerResults]

end Sys2Proof.Machine
end

section
/-! PROOFS. What an interval that begins at an empty buffer delivers without an overrun, and what pushes
alone retain (spec/40_serial_fifo.md R108, R109). -/

namespace Sys2Proof.Machine

/-! ## Without an overrun -/

/-- Settles O31: where nothing was counted nothing is missing, so what was returned and what is retained
are all the bytes pushed. -/
theorem withoutOverrunPopsReturnTheFirstPushes :
    Obligations.WithoutOverrunPopsReturnTheFirstPushes := by
  unfold Obligations.WithoutOverrunPopsReturnTheFirstPushes
  intro s events t h hwidth hi hempty hcount hreset hx hnone
  obtain ⟨out, hpopped, hsub, hmissing⟩ :=
    bytesAreDeliveredInOrder s events t h hi hempty hcount hreset hx
  have hcounts : 2 ≤ 2 ^ s.cfg.ovrW := Nat.pow_le_pow_right (n := 2) Nat.two_pos hwidth
  have hall : out ++ queue t = pushedBytes events := hsub.eq_of_length_le (by omega)
  exact ⟨out, hpopped, by rw [← hall, List.take_left]⟩

/-! ## S_RESET and pushes alone -/

/-- A push keeps the `C-1` most recent of the bytes retained and the new one (R28). -/
theorem queue_pushByte {s : State} (h : SerialReady s) (hw : Memory.wf s.buf) (b : Byte) :
    queue (pushByte b s) = (queue s ++ [b]).drop (occ s + 1 - (s.cfg.c - 1)) := by
  have h2 := h.twoCells
  have hlt := occ_lt s (by omega)
  by_cases hroom : occ s < s.cfg.c - 1
  · rw [(queue_pushByte_of_room h hw b hroom).1, Nat.sub_eq_zero_of_le (by omega), List.drop_zero]
  · have hone : occ s + 1 - (s.cfg.c - 1) = 1 := by omega
    have hne : queue s ≠ [] := fun e => by
      have := queue_length s
      rw [e, List.length_nil] at this
      omega
    rw [(queue_pushByte_of_full h hw b (by omega)).1, hone, List.drop_one,
      List.tail_append_of_ne_nil hne]

theorem overruns_pushByte {s : State} (h : SerialReady s) (b : Byte) :
    (pushByte b s).overruns = if occ s = s.cfg.c - 1 then satInc s.cfg s.overruns else s.overruns := by
  simp only [pushByte_fields, full_iff_occ s h.fillRange h.drainRange]

/-- What S_RESET and the bytes `done`, pushed after it with no pop, leave (R109). -/
structure PushedAlone (k : Config) (done : List Byte) (t : State) : Prop where
  ready : SerialReady t
  bufWf : Memory.wf t.buf
  cfg : t.cfg = k
  fill : t.fill = done.length % k.c
  retained : queue t = done.drop (done.length - (k.c - 1))
  overruns : t.overruns = min (done.length - (k.c - 1)) (2 ^ k.ovrW - 1)

section

variable {k : Config} {done : List Byte} {t : State}

theorem PushedAlone.occ_eq (h : PushedAlone k done t) : occ t = min done.length (k.c - 1) := by
  rw [← queue_length, h.retained, List.length_drop]
  omega

/-- Below `C-1` pushes no byte has left the first cell; from there on the buffer is full (R109). -/
theorem PushedAlone.drain_eq (h : PushedAlone k done t) :
    t.drain = if done.length < k.c - 1 then 0 else (done.length + 1) % k.c := by
  obtain rfl := h.cfg
  have hf := h.ready.fillRange
  have hd := h.ready.drainRange
  split
  · next hroom =>
    have hocc : occ t = done.length := by rw [h.occ_eq]; omega
    have hfill := drain_add_occ hf hd
    rw [h.fill, hocc, mod_add_eq _ _ _ hd (by omega), Nat.mod_eq_of_lt (by omega)] at hfill
    split at hfill <;> omega
  · next hmany =>
    have hfull : full t = true := (full_iff_occ t hf hd).mpr (by rw [h.occ_eq]; omega)
    rw [← (full_iff t).mp hfull, idxNext, h.fill, Nat.mod_add_mod]

/-- One more push: the youngest byte is retained, and the oldest counted where it has to go. -/
theorem PushedAlone.push (h : PushedAlone k done t) (b : Byte) :
    PushedAlone k (done ++ [b]) (pushByte b t) := by
  have hocc := h.occ_eq
  refine ⟨serialReady_pushByte h.ready b, ?_, by simp [h.cfg], ?_, ?_, ?_⟩
  · rw [pushByte_buf]
    exact Memory.write_wf _ _ _ h.bufWf
  · simp [h.cfg, h.fill, idxNext]
  · rw [queue_pushByte h.ready h.bufWf, h.retained, hocc, h.cfg,
      ← List.drop_append_of_le_length (by omega), List.drop_drop, List.length_append,
      List.length_singleton]
    congr 1
    omega
  · rw [overruns_pushByte h.ready, hocc, h.cfg, h.overruns, satInc_min, List.length_append,
      List.length_singleton]
    split
    · congr 1
      omega
    · congr 1
      omega

/-- A run in which nothing but bytes arrive pushes them all. -/
theorem PushedAlone.run : ∀ (bytes done : List Byte) (t : State),
    t.inputs = bytes.map Event.byteArrived → PushedAlone k done t →
    ∃ u, steps bytes.length t = .next u ∧ PushedAlone k (done ++ bytes) u
  | [], done, t, _, h => ⟨t, rfl, by simpa using h⟩
  | b :: rest, done, t, hin, h => by
    have htaken : PushedAlone k done
        { t with inputs := rest.map Event.byteArrived, presenter := .producer } :=
      { h with ready := h.ready.withAgents _ _ _ }
    obtain ⟨u, hu, hend⟩ := PushedAlone.run rest (done ++ [b]) _ (by simp) (htaken.push b)
    exact ⟨u, (steps_succ (step_byteArrived_of_ready h.ready hin)).trans hu, by simpa using hend⟩

end

/-- Settles O29, by what S_RESET and the pushes leave, one push after another. -/
theorem overrunKeepsTheMostRecentBytes : Obligations.OverrunKeepsTheMostRecentBytes := by
  unfold Obligations.OverrunKeepsTheMostRecentBytes
  intro s bytes h hw hfill hdrain hcount
  have hnil : queue s = [] :=
    (queue_eq_nil_iff h.fillRange h.drainRange).mpr (hfill.trans hdrain.symm)
  have hstart : PushedAlone s.cfg [] { s with inputs := bytes.map Event.byteArrived } :=
    ⟨h.withAgents _ _ _, hw, rfl, by simp [hfill], by rw [List.drop_nil]; exact hnil, by simp [hcount]⟩
  obtain ⟨t, hx, hend⟩ := PushedAlone.run bytes [] _ rfl hstart
  rw [List.nil_append] at hend
  refine ⟨t, hx, hend.fill, hend.retained, hend.overruns, fun hfew => ?_, fun hmany => ⟨?_, ?_⟩⟩
  · rw [hend.drain_eq, if_pos hfew]
  · rw [hend.occ_eq, Nat.min_eq_right hmany]
  · rw [hend.drain_eq, if_neg (by omega)]

end Sys2Proof.Machine
end

section
/-! PROOFS. The sequencer of the I2C engine as arrows (spec/41_i2c_framing.md R135): the frames its arrows
run, what an arrow does not look at, and the two readings of I_TX and I_RX. -/

namespace Sys2Proof.Machine

/-! ## Refusals by the phase -/

/-- Settles O15: every guarded operation of the block looks at the phase (R139). -/
theorem i2cOperationWhileBusyIsRefused : Obligations.I2cOperationWhileBusyIsRefused := by
  unfold Obligations.I2cOperationWhileBusyIsRefused
  intro s i hi hbusy
  obtain ⟨hr, hb⟩ : roleAllowed i = some .consumer ∧ blockOf i = some .i2c := by
    rcases hi with rfl | ⟨_, _, _, _, rfl⟩ | ⟨_, _, rfl⟩ <;> exact ⟨rfl, rfl⟩
  obtain ⟨n, run, hexec⟩ := exec_guarded hr hb
  rw [hexec]
  refine guarded_refused fun hadmitted => ?_
  obtain ⟨-, -, -, hidle, -⟩ := whyRefused_eq_none.mp hadmitted
  exact hbusy (hidle rfl)

/-- Settles O50: each frame asks for the phase that sends or receives it. -/
theorem framesOutsideAnOperationAreRefused : Obligations.FramesOutsideAnOperationAreRefused := by
  unfold Obligations.FramesOutsideAnOperationAreRefused
  rintro s i (⟨length, payload, rfl⟩ | ⟨length, rfl⟩ | ⟨backlog, echoed, payload, rfl⟩) hidle
  · simp only [exec, execFrameWrite, hidle]
    split <;> simp
  · simp only [exec, execFrameReadRequest, hidle]
    split <;> simp
  · simp only [exec, execFrameReadResponse, hidle]
    split <;> simp

/-! ## Each arrow inside its operation -/

section

variable {s : State} {flush : Bool} {addr : Nat} {len8 : Byte} {txbuf payload : List Byte} {r : Scratch}

theorem takeArrow_idle (hp : s.phase = .idle) : takeArrow s = .next s := by
  simp [takeArrow, hp]

theorem takeArrow_txAlloc (hp : s.phase = .txAlloc) (hc : s.consumer = .inI2c (.tx flush addr len8 txbuf)) :
    takeArrow s = .next (txAllocArrow len8 txbuf s) := by
  simp [takeArrow, hp, hc]

/-- The arrow out of `TX_WRITE` runs the frame that the scratch region holds. -/
theorem takeArrow_txWrite {i : Instr} (hp : s.phase = .txWrite)
    (hc : s.consumer = .inI2c (.tx flush addr len8 txbuf)) (hr : s.scratch = some r)
    (hd : decode s.cfg (.busWriteData r.bytes) = .ok i) : takeArrow s = exec i s := by
  rw [← runDecoded_ok hd]
  simp [takeArrow, hp, hc, hr]

/-- The arrow out of `RX_REQUEST` runs the read request of the operation's length. -/
theorem takeArrow_rxRequest (hp : s.phase = .rxRequest) (hc : s.consumer = .inI2c (.rx addr len8)) :
    takeArrow s = exec (.frameReadRequest len8) s := by
  rw [← runDecoded_ok (decode_requestFrame s.cfg len8)]
  simp [takeArrow, hp, hc]

theorem takeArrow_rxAlloc (hp : s.phase = .rxAlloc) (hc : s.consumer = .inI2c (.rx addr len8)) :
    takeArrow s = .next (rxAllocArrow len8 s) := by
  simp [takeArrow, hp, hc]

theorem takeArrow_rxRead (hp : s.phase = .rxRead) (hc : s.consumer = .inI2c (.rx addr len8))
    (hr : s.scratch = some r) : takeArrow s = .next (rxReadArrow addr len8 s) := by
  simp [takeArrow, hp, hc, hr]

end

/-- Settles O7, by the two arrows that run a frame. -/
theorem arrowsRunTheFramesTheySend : Obligations.ArrowsRunTheFramesTheySend := by
  unfold Obligations.ArrowsRunTheFramesTheySend
  constructor
  · intro s rest addr len8 hin hp hc
    rw [step_event hin, handle_arrow]
    exact takeArrow_rxRequest hp hc
  · intro s rest flush addr len8 txbuf r i hin hp hc hr hd
    rw [step_event hin, handle_arrow]
    exact takeArrow_txWrite hp hc hr hd

/-! ## What an arrow does not look at -/

/-- The state with other steps to come and another tick: what no arrow reads or writes. -/
def State.withOthers (es : List Event) (tick : Nat) (s : State) : State :=
  { s with inputs := es, tick := tick }

/-- A state function that neither reads nor writes the steps to come and the tick. -/
def IgnoresOthers (f : State → State) : Prop :=
  ∀ es tick s, f (s.withOthers es tick) = (f s).withOthers es tick

/-- The answer after `f` has been applied to the next state it may carry. -/
def mapNext (f : State → State) : Answer → Answer
  | .next s => .next (f s)
  | .fault r => .fault r
  | .refused r => .refused r

theorem txAllocArrow_ignoresOthers (len8 : Byte) (txbuf : List Byte) :
    IgnoresOthers (txAllocArrow len8 txbuf) := by
  intro es tick s
  simp only [txAllocArrow, apply_ite (State.withOthers es tick)]
  rfl

theorem txWrite_ignoresOthers (addr : Nat) : IgnoresOthers (txWrite addr) := fun _ _ _ => rfl

theorem rxRequestArrow_ignoresOthers (addr : Nat) (len8 : Byte) :
    IgnoresOthers (rxRequestArrow addr len8) := by
  intro es tick s
  simp only [rxRequestArrow, apply_ite (State.withOthers es tick)]
  rfl

theorem rxAllocArrow_ignoresOthers (len8 : Byte) : IgnoresOthers (rxAllocArrow len8) := by
  intro es tick s
  simp only [rxAllocArrow, apply_ite (State.withOthers es tick)]
  rfl

theorem rxReadArrow_ignoresOthers (addr : Nat) (len8 : Byte) :
    IgnoresOthers (rxReadArrow addr len8) := by
  intro es tick s
  have hans : readAnswer (responseSize len8) (s.withOthers es tick) =
      readAnswer (responseSize len8) s := rfl
  simp only [rxReadArrow, busRead_answer, hans]
  cases readAnswer (responseSize len8) s <;> rfl

theorem rxValidate_ignoresOthers (len8 : Byte) : IgnoresOthers (rxValidate len8) := by
  intro es tick s
  simp only [rxValidate, apply_ite (State.withOthers es tick)]
  rfl

/-- A master write is the same write whatever is still to come. -/
theorem runDecoded_write_withOthers (es : List Event) (tick : Nat) (bytes : List Byte) (s : State) :
    runDecoded (.busWriteData bytes) (s.withOthers es tick) =
      mapNext (State.withOthers es tick) (runDecoded (.busWriteData bytes) s) := by
  cases hd : decodeWriteData bytes with
  | error => simp only [runDecoded, decode, hd]; rfl
  | ok i =>
    have hs : decode s.cfg (.busWriteData bytes) = .ok i := hd
    rw [runDecoded_ok hs, runDecoded_ok (s := s.withOthers es tick) hs]
    rcases decodeWriteData_ok hd with ⟨length, payload, rfl⟩ | ⟨length, rfl⟩
    · simp only [exec, execFrameWrite, State.withOthers]
      split
      · rw [apply_ite (mapNext _)]; rfl
      · rfl
    · simp only [exec, execFrameReadRequest, State.withOthers]
      split
      · rw [apply_ite (mapNext _), mapNext, ← rxRequestArrow_ignoresOthers]; rfl
      · rfl

/-- An arrow neither reads nor writes the steps to come and the tick. -/
theorem takeArrow_withOthers (es : List Event) (tick : Nat) (s : State) :
    takeArrow (s.withOthers es tick) = mapNext (State.withOthers es tick) (takeArrow s) := by
  unfold takeArrow
  simp only [State.withOthers]
  split
  · rfl
  · exact congrArg Host.Outcome.next (txAllocArrow_ignoresOthers _ _ es tick s)
  · exact runDecoded_write_withOthers es tick _ s
  · exact runDecoded_write_withOthers es tick _ s
  · exact congrArg Host.Outcome.next (rxAllocArrow_ignoresOthers _ es tick s)
  · exact congrArg Host.Outcome.next (rxReadArrow_ignoresOthers _ _ es tick s)
  · exact congrArg Host.Outcome.next (rxValidate_ignoresOthers _ es tick s)
  · rfl

/-- An arrow with other steps to come. -/
theorem takeArrow_withInputs {s t : State} (es : List Event) (h : takeArrow s = .next t) :
    takeArrow { s with inputs := es } = .next { t with inputs := es } := by
  have ht : { t with inputs := es } = t.withOthers es s.tick := by
    rw [← (takeArrow_same h).tick]; rfl
  rw [ht]
  exact (takeArrow_withOthers es s.tick s).trans (by rw [h]; rfl)

theorem steps_one (s : State) : steps 1 s = step s := by
  unfold steps
  cases step s <;> rfl

theorem steps_tick_arrow (s : State) (rest : List Event) :
    steps 2 { s with inputs := .tick :: .arrow :: rest } =
      mapNext (State.withOthers rest (tickNext s.cfg s.tick)) (takeArrow s) := by
  rw [steps_succ (t := { tickStep s with inputs := .arrow :: rest }) rfl, steps_one]
  exact takeArrow_withOthers rest (tickNext s.cfg s.tick) s

theorem steps_arrow_tick (s : State) (rest : List Event) :
    steps 2 { s with inputs := .arrow :: .tick :: rest } =
      mapNext (State.withOthers rest (tickNext s.cfg s.tick)) (takeArrow s) := by
  have harrow : step { s with inputs := .arrow :: .tick :: rest } =
      mapNext (State.withOthers (.tick :: rest) s.tick) (takeArrow s) :=
    takeArrow_withOthers (.tick :: rest) s.tick s
  cases h : takeArrow s with
  | next u =>
    rw [h] at harrow
    rw [steps_succ harrow, ← (takeArrow_same h).cfg]
    rfl
  | fault | refused => simp only [steps, harrow, h, mapNext]

/-- Settles O46: both orders end in the arrow's state with the tick that TICK gives, since no arrow writes
the tick or its width. -/
theorem tickCommutesWithEveryArrow : Obligations.TickCommutesWithEveryArrow := by
  unfold Obligations.TickCommutesWithEveryArrow
  intro s rest t
  rw [steps_tick_arrow, steps_arrow_tick]

/-! ## Runs of arrows -/

/-- `n` arrows lead from `s` to `t`, whatever is still to come. -/
def ArrowsLead (n : Nat) (s t : State) : Prop :=
  ∀ es, steps n { s with inputs := List.replicate n .arrow ++ es } = .next { t with inputs := es }

theorem ArrowsLead.arrow {n : Nat} {s t u : State} (hfirst : takeArrow s = .next t)
    (hrest : ArrowsLead n t u) : ArrowsLead (n + 1) s u := by
  intro es
  have hstep : step { s with inputs := List.replicate (n + 1) .arrow ++ es } =
      .next { t with inputs := List.replicate n .arrow ++ es } := by
    rw [List.replicate_succ, List.cons_append, step_with, handle_arrow]
    exact takeArrow_withInputs _ hfirst
  rw [steps_succ hstep, hrest es]

/-- Arrows in `IDLE` lead nowhere else. -/
theorem ArrowsLead.of_idle {s : State} (hp : s.phase = .idle) : ∀ n, ArrowsLead n s s
  | 0 => fun _ => rfl
  | n + 1 => .arrow (takeArrow_idle hp) (.of_idle hp n)

/-! ### The arrows of I_TX -/

section

variable (flush : Bool) (addr : Nat) (len8 : Byte) (txbuf : List Byte)

/-- The write frame as it is built in the allocated region, and is read from it. -/
theorem scratchBytes_txBuild {s : State} (h : s.scratch = some { size := writeFrameSize len8, cells := [] }) :
    (txBuild len8 txbuf s).scratchBytes =
      writeFrame len8 (takeBytes len8.toNat s.freeIdx txbuf) :=
  scratchBytes_store h (by simp [writeFrameSize, writeFrame]) Memory.wf_nil

/-- The arrow out of `TX_WRITE`, where the scratch region holds a write frame (R80, R135). -/
theorem takeArrow_txWrite_of_frame {s : State} {length : Byte} {payload : List Byte}
    (hp : s.phase = .txWrite) (hc : s.consumer = .inI2c (.tx flush addr len8 txbuf))
    (hr : s.scratch.isSome = true) (hb : s.scratchBytes = writeFrame length payload)
    (hlen : payload.length = length.toNat) : takeArrow s = .next (txWrite addr s) := by
  obtain ⟨r, hr⟩ := Option.isSome_iff_exists.mp hr
  have hbytes : r.bytes = writeFrame length payload := by simpa [State.scratchBytes, hr] using hb
  have hd := decode_writeFrame s.cfg length payload hlen
  rw [← hbytes] at hd
  rw [takeArrow_txWrite hp hc hr hd]
  exact exec_frameWrite_next.mpr ⟨flush, addr, len8, txbuf, hc, hp, hb, rfl⟩

/-- Two arrows are enough for I_TX: the allocation and the write. -/
theorem arrowsLead_i2cTransmit (s : State) (n : Nat) :
    ArrowsLead (n + 2) (txBegin flush addr len8 txbuf s) (i2cTransmit flush addr len8 txbuf s) := by
  refine .arrow (takeArrow_txAlloc rfl rfl) ?_
  cases ha : allocAnswer (txBegin flush addr len8 txbuf s) with
  | false =>
    simp only [txAllocArrow, i2cTransmit, alloc_answer, ha, Bool.false_eq_true, if_false]
    exact .of_idle (by simp) _
  | true =>
    simp only [txAllocArrow, i2cTransmit, alloc_answer, ha, if_true]
    refine .arrow (takeArrow_txWrite_of_frame flush addr len8 txbuf rfl rfl (by simp [txBuild, ha])
      (scratchBytes_txBuild len8 txbuf (by simp [ha])) (takeBytes_length _ _ _)) ?_
    exact .of_idle (by simp [txWrite]) _

end

/-! ### The arrows of I_RX -/

section

variable {addr : Nat} {len8 : Byte}

theorem rxValidate_phase (len8 : Byte) (s : State) : (rxValidate len8 s).phase = .idle := by
  simp only [rxValidate]
  split <;> simp

/-- Two arrows are enough for the read and what its answer asks for. -/
theorem arrowsLead_rxAnswer {s : State} {r : Scratch} (hp : s.phase = .rxRead)
    (hc : s.consumer = .inI2c (.rx addr len8)) (hr : s.scratch = some r) (n : Nat) :
    ArrowsLead (n + 2) s (rxAnswer len8 (readAnswer (responseSize len8) s)
      (busRead addr (responseSize len8) s).2) := by
  refine .arrow (takeArrow_rxRead hp hc hr) ?_
  simp only [rxReadArrow, busRead_answer]
  cases readAnswer (responseSize len8) s with
  | none => exact .of_idle (by simp) _
  | some bytes =>
    obtain ⟨r', hr'⟩ : ∃ r', (rxStore bytes (busRead addr (responseSize len8) s).2).scratch = some r' :=
      ⟨_, by simp [rxStore, hr]; rfl⟩
    exact .arrow (takeArrow_rxValidate rfl hc hr') (.of_idle (rxValidate_phase _ _) _)

/-- Three arrows are enough for what follows a successful request: the allocation, the read, and the
validation. -/
theorem arrowsLead_rxReadPhase {s : State} (hc : s.consumer = .inI2c (.rx addr len8)) (n : Nat) :
    ArrowsLead (n + 3) { s with phase := .rxAlloc } (rxReadPhase addr len8 s) := by
  refine .arrow (takeArrow_rxAlloc rfl hc) ?_
  cases ha : allocAnswer { s with phase := .rxAlloc } with
  | false =>
    simp only [rxAllocArrow, rxReadPhase, alloc_answer, ha, Bool.false_eq_true, if_false]
    exact .of_idle (by simp) _
  | true =>
    simp only [rxAllocArrow, rxReadPhase, alloc_answer, ha, if_true]
    exact arrowsLead_rxAnswer rfl (by simpa using hc) (by simp [ha]; rfl) n

/-- What follows the request phase (R132 steps 2 to 5), by how that phase ended. -/
def afterRequestPhase (addr : Nat) (len8 : Byte) (q : Bool × State) : State :=
  if q.1 then rxReadPhase addr len8 q.2 else q.2.endRx { code := .errWrite }

theorem i2cReceive_eq (addr : Nat) (len8 : Byte) (s : State) : i2cReceive addr len8 s =
    afterRequestPhase addr len8 (requestPhase addr len8 s.cfg.i2cReqAttempts (rxBegin addr len8 s)) :=
  rfl

/-- A request write that is answered ok ends the request phase. -/
theorem requestPhase_of_ok {s : State} (n : Nat) (hw : writeAnswer s = true) :
    requestPhase addr len8 (n + 1) s = (true, (requestWrite addr len8 s).2) := by
  simp [requestPhase, requestWrite_eq, hw]

/-- A request write that fails leaves the attempts that are left. -/
theorem requestPhase_of_fail {s : State} (n : Nat) (hw : writeAnswer s = false) :
    requestPhase addr len8 (n + 1) s = requestPhase addr len8 n (requestWrite addr len8 s).2 := by
  simp [requestPhase, requestWrite_eq, hw]

theorem takeArrow_request {s t : State} (hp : s.phase = .rxRequest)
    (hc : s.consumer = .inI2c (.rx addr len8)) (ht : rxRequestArrow addr len8 s = t) :
    takeArrow s = .next t :=
  (takeArrow_rxRequest hp hc).trans (exec_frameReadRequest_next.mpr ⟨addr, hc, hp, ht.symm⟩)

/-- With `n + 1` attempts left, `n + 4` arrows are enough: one per attempt, and three for what follows. -/
theorem arrowsLead_afterRequestPhase : ∀ (n : Nat) (s : State), s.phase = .rxRequest →
    s.consumer = .inI2c (.rx addr len8) → s.attempt + (n + 1) = s.cfg.i2cReqAttempts →
    ArrowsLead (n + 4) s (afterRequestPhase addr len8 (requestPhase addr len8 (n + 1) s))
  | n, s, hp, hc, hn => by
    obtain ⟨hok, hstays, hgivesUp⟩ := rxRequestArrow_cases addr len8 s
    cases hw : writeAnswer s with
    | true =>
      refine .arrow (takeArrow_request hp hc (hok hw)) ?_
      rw [requestPhase_of_ok n hw]
      exact arrowsLead_rxReadPhase (s := (requestWrite addr len8 s).2) hc n
    | false =>
      rw [requestPhase_of_fail n hw]
      match n with
      | 0 =>
        refine .arrow (takeArrow_request hp hc (hgivesUp hw (by omega))) ?_
        exact .of_idle rfl _
      | m + 1 =>
        refine .arrow (takeArrow_request hp hc (hstays hw (by omega))) ?_
        exact arrowsLead_afterRequestPhase m _ hp hc (by
          simp only [requestWrite_eq]; omega)

/-- I_RX's attempts and three arrows more are enough (R135). -/
theorem arrowsLead_i2cReceive (addr : Nat) (len8 : Byte) {s : State}
    (h1 : 1 ≤ s.cfg.i2cReqAttempts) :
    ArrowsLead (s.cfg.i2cReqAttempts + 3) (rxBegin addr len8 s) (i2cReceive addr len8 s) := by
  obtain ⟨n, hn⟩ : ∃ n, s.cfg.i2cReqAttempts = n + 1 := ⟨_, (Nat.sub_add_cancel h1).symm⟩
  rw [i2cReceive_eq, hn]
  exact arrowsLead_afterRequestPhase n _ rfl rfl (by simp [rxBegin, hn])

end

/-! ### The two readings agree -/

/-- An operation whose arrows lead where its atomic step leads answers the same in both readings, refusals
included. -/
theorem steps_stepwise_eq_step {i : Instr} {start run : State → State} {s : State} {who : Presenter}
    {p : Ports} {n : Nat} (rest : List Event) (hi : decodeCommand s.cfg p = i)
    (hatomic : ∀ t, exec i t = guarded .i2c .consumer true t fun t => .next (run t))
    (hstepwise : ∀ t, beginStepwise i t = guarded .i2c .consumer true t fun t => .next (start t))
    (hstart : ∀ t es, start { t with inputs := es } = { start t with inputs := es })
    (hrun : ∀ t, SameOutsideEngine t (run t))
    (hlead : ∀ t, t.cfg = s.cfg → ArrowsLead n (start t) (run t)) :
    steps (n + 1) { s with inputs := .commandStepwise who p :: (List.replicate n .arrow ++ rest) } =
      step { s with inputs := .command who p :: rest } := by
  subst hi
  let t : State := { s with inputs := rest, presenter := who }
  have hstep : step { s with inputs := .command who p :: rest } =
      guarded .i2c .consumer true t fun t => .next (run t) := hatomic t
  have hfirst : step { s with inputs := .commandStepwise who p :: (List.replicate n .arrow ++ rest) } =
      guarded .i2c .consumer true { t with inputs := List.replicate n .arrow ++ rest }
        fun t => .next (start t) := hstepwise _
  have hsame : whyRefused .i2c .consumer true { t with inputs := List.replicate n .arrow ++ rest } =
      whyRefused .i2c .consumer true t := rfl
  cases hw : whyRefused .i2c .consumer true t with
  | none =>
    rw [guarded_of_none hw] at hstep
    rw [guarded_of_none (hsame.trans hw), hstart] at hfirst
    have hinputs : (run t).inputs = rest := (hrun t).inputs
    rw [steps_succ hfirst, hlead t rfl rest, hstep, ← hinputs]
  | some why =>
    simp only [guarded, hsame, hw] at hstep hfirst
    simp only [steps, hfirst, hstep]

/-- Settles O45: for either operation the arrows lead where its pseudocode does. -/
theorem stepwiseAndAtomicReadingsAgree : Obligations.StepwiseAndAtomicReadingsAgree := by
  unfold Obligations.StepwiseAndAtomicReadingsAgree
  rintro s who p rest h1 (htx | hrx)
  · refine steps_stepwise_eq_step rest (decodeCommand_iTx htx) (fun _ => rfl) (fun _ => rfl)
      (fun _ _ => rfl) (fun t => i2cTransmit_same _ _ _ _ t) fun t _ => ?_
    exact arrowsLead_i2cTransmit _ _ _ _ t (s.cfg.i2cReqAttempts + 1)
  · refine steps_stepwise_eq_step rest (decodeCommand_iRx hrx) (fun _ => rfl) (fun _ => rfl)
      (fun _ _ => rfl) (fun t => i2cReceive_same _ _ t) fun t ht => ?_
    rw [← ht] at h1 ⊢
    exact arrowsLead_i2cReceive _ _ h1

end Sys2Proof.Machine
end

section
/-! PROOFS. I_TX and I_RX as whole operations (spec/41_i2c_framing.md R131, R132, R140): what each leaves
in the whole state, that I_RX always completes, and which transactions it makes in which order. -/

namespace Sys2Proof.Machine

/-- A CONSUMER that may present an operation of the idle, initialised engine is admitted (R10, R139,
R201). -/
theorem ConsumerMay.admitted_i2c {s : State} (h : ConsumerMay .i2c s) (hidle : EngineIdle s)
    (hi : s.iInit = true) : whyRefused .i2c .consumer true s = none :=
  whyRefused_eq_none.mpr ⟨h.built, by rw [h.presenter]; rfl, by rw [h.presenter]; rfl,
    fun _ => hidle.phase, fun _ => h.ready, fun _ => hi⟩

/-! ## I_TX -/

/-- The allocation fails: one call, and its error (R131, R171). -/
theorem i2cTransmit_of_alloc_fail (flush : Bool) (addr : Nat) (len8 : Byte) (txbuf : List Byte)
    {s : State} (ha : allocAnswer s = false) : i2cTransmit flush addr len8 txbuf s = { s with
      phase := .idle
      consumer := .ready
      scratch := none
      answers := { s.answers with alloc := s.answers.alloc.tail }
      freeIdx := s.freeIdx + 1
      trace := s.trace ++ [.alloc (len8.toNat + 1) false]
      results := s.results ++ [⟨.consumer, { code := .errAlloc }⟩] } := by
  have ha' : allocAnswer (txBegin flush addr len8 txbuf s) = false := ha
  simp only [i2cTransmit, alloc, ha', Bool.false_eq_true, if_false]
  rfl

/-- The allocation succeeds: one write of the frame, and the code of its answer (R131, R80). -/
theorem i2cTransmit_of_alloc_ok (flush : Bool) (addr : Nat) (len8 : Byte) (txbuf : List Byte)
    {s : State} (ha : allocAnswer s = true) : i2cTransmit flush addr len8 txbuf s = { s with
      phase := .idle
      consumer := .ready
      scratch := none
      answers := { s.answers with alloc := s.answers.alloc.tail, write := s.answers.write.tail }
      freeIdx := s.freeIdx + 2
      trace := s.trace ++ [.alloc (len8.toNat + 1) true,
        .busWrite addr (len8 :: takeBytes len8.toNat (s.freeIdx + 1) txbuf) s.cfg.i2cWriteMs
          (writeAnswer { s with freeIdx := s.freeIdx + 1 }), .free]
      results := s.results ++
        [⟨.consumer, { code := writeCode (writeAnswer { s with freeIdx := s.freeIdx + 1 }) }⟩] } := by
  have ha' : allocAnswer (txBegin flush addr len8 txbuf s) = true := ha
  simp only [i2cTransmit, alloc_answer, ha', if_true]
  have hw : writeAnswer (txBuild len8 txbuf (alloc (writeFrameSize len8)
      (txBegin flush addr len8 txbuf s)).2) = writeAnswer { s with freeIdx := s.freeIdx + 1 } := rfl
  rw [txWrite_eq, scratchBytes_txBuild len8 txbuf (by simp [ha']), hw]
  simpa [txBuild, txBegin, writeFrame, writeFrameSize] using ha'

/-- Settles O38, with the payload as it is read and the answers as they are drawn. -/
theorem iTxSendsTheWriteFrameOnce : Obligations.ITxSendsTheWriteFrameOnce := by
  unfold Obligations.ITxSendsTheWriteFrameOnce
  intro s flush addr len8 txbuf hmay hidle hi
  refine ⟨takeBytes len8.toNat (s.freeIdx + 1) txbuf, allocAnswer s,
    writeAnswer { s with freeIdx := s.freeIdx + 1 }, carries_takeBytes txbuf len8.toNat _,
    fun a rest h => allocAnswer_script h, fun w rest h => writeAnswer_script h, fun ha => ?_,
    fun ha => ?_⟩
  · rw [exec_iTx, guarded_of_none (hmay.admitted_i2c hidle hi), i2cTransmit_of_alloc_fail _ _ _ _ ha]
    simp [hidle.phase, hidle.scratch, hmay.ready]
  · rw [exec_iTx, guarded_of_none (hmay.admitted_i2c hidle hi), i2cTransmit_of_alloc_ok _ _ _ _ ha]
    simp [hidle.phase, hidle.scratch, hmay.ready, writeCode]

/-! ## I_RX with a right echo -/

/-- An allocation and a read that the script answers with a response of the length asked for (R132 steps 3
to 5). -/
theorem rxReadPhase_of_match {s : State} {addr : Nat} {len8 backlog : Byte} {payload : List Byte}
    {allocs : List Bool} {reads : List (Option (List Byte))} (hlen : payload.length = len8.toNat)
    (ha : s.answers.alloc = true :: allocs)
    (hr : s.answers.read = some (backlog :: len8 :: payload) :: reads) :
    rxReadPhase addr len8 s = { s with
      phase := .idle
      attempt := 0
      consumer := .ready
      scratch := none
      answers := { s.answers with alloc := allocs, read := reads }
      freeIdx := s.freeIdx + 2
      rxbuf := Memory.writeBytes s.rxbuf 0 payload
      trace := s.trace ++ [.alloc (len8.toNat + 2) true,
        .busRead addr (len8.toNat + 2) s.cfg.i2cReadMs (some (backlog :: len8 :: payload)), .free]
      results := s.results ++
        [⟨.consumer, { code := .ok, ravail := some backlog, rxbuf := some payload }⟩] } := by
  have halloc : allocAnswer { s with phase := .rxAlloc } = true := allocAnswer_script ha
  have hread : readAnswer (responseSize len8) { s with freeIdx := s.freeIdx + 1 } =
      some (backlog :: len8 :: payload) := readAnswer_ok hr (by simp [responseSize, hlen])
  rcases rxReadPhase_cases addr len8 s with ⟨h, -⟩ | ⟨-, ⟨h, -⟩ | ⟨b, e, p, -, h, hx⟩⟩
  · cases h.symm.trans halloc
  · cases h.symm.trans hread
  · obtain ⟨rfl, rfl, rfl⟩ : b = backlog ∧ e = len8 ∧ p = payload := by
      simpa using h.symm.trans hread
    rcases hx with ⟨-, hx⟩ | ⟨hne, -⟩
    · rw [hx]
      simpa [afterRead, rxStore, State.scratchStore, State.freeScratch, State.call, State.endRx,
        State.ret, ha, hr, responseSize] using hread
    · exact absurd rfl hne

/-- Settles O39: the request phase ends at its first success, and the script answers what follows. -/
theorem iRxReturnsPayloadAndBacklog : Obligations.IRxReturnsPayloadAndBacklog := by
  unfold Obligations.IRxReturnsPayloadAndBacklog
  intro s addr len8 k writes allocs reads backlog payload hmay hidle hi hk hlen hw ha hr
  have hrequests := requestPhase_succeeds (addr := addr) (len8 := len8) (s := rxBegin addr len8 s) hk hw
  have hend := rxReadPhase_of_match (addr := addr)
    (s := (requestPhase addr len8 s.cfg.i2cReqAttempts (rxBegin addr len8 s)).2) hlen
    (by rw [hrequests]; exact ha) (by rw [hrequests]; exact hr)
  rw [exec_iRx, guarded_of_none (hmay.admitted_i2c hidle hi), i2cReceive_eq, afterRequestPhase,
    if_pos (by rw [hrequests]), hend, hrequests]
  simp [rxBegin, requestFrame, hidle.phase, hidle.attempt, hidle.scratch, hmay.ready]

/-! ## I_RX completes -/

/-- I_RX has ended in `t` with `res`: the engine is at rest, and `RXBUF`, which was that of `s`, holds a
payload exactly where `res` says so (R132, R137, R176). -/
structure RxCompletes (len8 : Byte) (s t : State) (res : Result) : Prop where
  idle : EngineIdle t
  ready : t.consumer = .ready
  results : t.results = s.results ++ [{ role := .consumer, result := res }]
  failed : res.code ≠ .ok → t.rxbuf = s.rxbuf ∧ res = { code := res.code }
  delivered : res.code = .ok → ∃ backlog payload, payload.length = len8.toNat ∧
    t.rxbuf = Memory.writeBytes s.rxbuf 0 payload ∧
    res = { code := .ok, ravail := some backlog, rxbuf := some payload }

section

variable {s u : State} {len8 : Byte}

/-- A return with an error. -/
theorem RxCompletes.of_error {c : Code} (hs : u.scratch = none) (hx : u.rxbuf = s.rxbuf)
    (hr : u.results = s.results) (hc : c ≠ .ok) :
    RxCompletes len8 s (u.endRx { code := c }) { code := c } where
  idle := ⟨rfl, rfl, hs⟩
  ready := rfl
  results := by simp [hr]
  failed := fun _ => ⟨hx, rfl⟩
  delivered := fun h => absurd h hc

/-- A return with a payload that was copied to `RXBUF`. -/
theorem RxCompletes.of_ok {backlog : Byte} {payload : List Byte} (hs : u.scratch = none)
    (hlen : payload.length = len8.toNat) (hx : u.rxbuf = Memory.writeBytes s.rxbuf 0 payload)
    (hr : u.results = s.results) :
    RxCompletes len8 s (u.endRx { code := .ok, ravail := some backlog, rxbuf := some payload })
      { code := .ok, ravail := some backlog, rxbuf := some payload } where
  idle := ⟨rfl, rfl, hs⟩
  ready := rfl
  results := by simp [hr]
  failed := fun h => absurd rfl h
  delivered := fun _ => ⟨backlog, payload, hlen, hx, rfl⟩

end

theorem rxReadPhase_completes (addr : Nat) (len8 : Byte) (s : State) :
    ∃ res, RxCompletes len8 s (rxReadPhase addr len8 s) res := by
  rcases rxReadPhase_cases addr len8 s with
    ⟨-, hx⟩ | ⟨-, ⟨-, hx⟩ | ⟨_, _, _, hlen, -, ⟨-, hx⟩ | ⟨-, hx⟩⟩⟩
  all_goals rw [hx]
  · exact ⟨_, .of_error rfl rfl rfl nofun⟩
  · exact ⟨_, .of_error rfl rfl rfl nofun⟩
  · exact ⟨_, .of_ok rfl hlen rfl rfl⟩
  · exact ⟨_, .of_error rfl rfl rfl nofun⟩

theorem i2cReceive_completes (addr : Nat) (len8 : Byte) {s : State} (hs : s.scratch = none) :
    ∃ res, RxCompletes len8 s (i2cReceive addr len8 s) res := by
  obtain ⟨ws, hx | ⟨k, -, hx⟩⟩ := i2cReceive_cases addr len8 s
  · rw [hx]
    exact ⟨_, .of_error hs rfl rfl nofun⟩
  · rw [hx]
    obtain ⟨res, h⟩ := rxReadPhase_completes addr len8 _
    exact ⟨res, h.idle, h.ready, h.results, h.failed, h.delivered⟩

/-- Settles O42: it is admitted, and each of its ends completes it. -/
theorem iRxAlwaysCompletes : Obligations.IRxAlwaysCompletes := by
  unfold Obligations.IRxAlwaysCompletes
  intro s addr len8 hmay hidle hi
  obtain ⟨res, h⟩ := i2cReceive_completes addr len8 hidle.scratch
  refine ⟨_, res, ?_, h.idle, h.ready, (i2cReceive_same addr len8 s).iInit.trans hi, h.results, h.failed,
    h.delivered⟩
  rw [exec_iRx, guarded_of_none (hmay.admitted_i2c hidle hi)]

/-! ## The calls of I_RX -/

/-- The calls that one I_RX can make (R140): its request writes up to the first success or to the last
attempt; after a success the allocation; and after that the one read and the release. -/
inductive RxCalls (k : Config) (addr : Nat) (len8 : Byte) : List EnvCall → Prop where
  | writesFail : RxCalls k addr len8
      (List.replicate k.i2cReqAttempts (.busWrite addr (requestFrame len8) k.i2cWriteMs false))
  | allocFails (n : Nat) (hn : n < k.i2cReqAttempts) : RxCalls k addr len8
      (List.replicate n (.busWrite addr (requestFrame len8) k.i2cWriteMs false) ++
        [.busWrite addr (requestFrame len8) k.i2cWriteMs true, .alloc (responseSize len8) false])
  | reads (n : Nat) (hn : n < k.i2cReqAttempts) (answer : Option (List Byte)) : RxCalls k addr len8
      (List.replicate n (.busWrite addr (requestFrame len8) k.i2cWriteMs false) ++
        [.busWrite addr (requestFrame len8) k.i2cWriteMs true, .alloc (responseSize len8) true,
          .busRead addr (responseSize len8) k.i2cReadMs answer, .free])

theorem rxReadPhase_trace (addr : Nat) (len8 : Byte) (s : State) :
    (rxReadPhase addr len8 s).trace = s.trace ++ [.alloc (responseSize len8) false] ∨
    ∃ answer, (rxReadPhase addr len8 s).trace = s.trace ++ [.alloc (responseSize len8) true,
      .busRead addr (responseSize len8) s.cfg.i2cReadMs answer, .free] := by
  rcases rxReadPhase_cases addr len8 s with
    ⟨-, hx⟩ | ⟨-, ⟨-, hx⟩ | ⟨_, _, _, -, -, ⟨-, hx⟩ | ⟨-, hx⟩⟩⟩
  all_goals rw [hx]
  · exact .inl rfl
  · exact .inr ⟨_, by simp [afterRead]; rfl⟩
  · exact .inr ⟨_, by simp [afterRead, rxStore]; rfl⟩
  · exact .inr ⟨_, by simp [afterRead, rxStore]; rfl⟩

theorem i2cReceive_calls (addr : Nat) (len8 : Byte) (s : State) :
    ∃ calls, (i2cReceive addr len8 s).trace = s.trace ++ calls ∧ RxCalls s.cfg addr len8 calls := by
  obtain ⟨ws, hx | ⟨k, hk, hx⟩⟩ := i2cReceive_cases addr len8 s
  · exact ⟨_, by rw [hx]; rfl, .writesFail⟩
  · rw [hx]
    rcases rxReadPhase_trace addr len8 _ with ht | ⟨answer, ht⟩
    · exact ⟨_, by rw [ht]; simp, .allocFails k hk⟩
    · exact ⟨_, by rw [ht]; simp [rxBegin], .reads k hk answer⟩

section

variable {k : Config} {addr : Nat} {len8 : Byte} {calls : List EnvCall}

theorem RxCalls.countP_isBusWrite (h : RxCalls k addr len8 calls) (h1 : 1 ≤ k.i2cReqAttempts) :
    1 ≤ calls.countP EnvCall.isBusWrite ∧ calls.countP EnvCall.isBusWrite ≤ k.i2cReqAttempts := by
  cases h with
  | writesFail => simpa [List.countP_replicate, EnvCall.isBusWrite] using h1
  | allocFails n hn => simp [List.countP_replicate, List.countP_cons, EnvCall.isBusWrite]; omega
  | reads n hn answer => simp [List.countP_replicate, List.countP_cons, EnvCall.isBusWrite]; omega

/-- A read is made at most once, and only at the end of the one order that R68 gives. -/
theorem RxCalls.countP_isBusRead (h : RxCalls k addr len8 calls) :
    calls.countP EnvCall.isBusRead = 0 ∨ calls.countP EnvCall.isBusRead = 1 ∧
      ∃ n answer, calls = List.replicate n (.busWrite addr (requestFrame len8) k.i2cWriteMs false) ++
        [.busWrite addr (requestFrame len8) k.i2cWriteMs true, .alloc (responseSize len8) true,
          .busRead addr (responseSize len8) k.i2cReadMs answer, .free] := by
  cases h with
  | writesFail => exact .inl (by simp [List.countP_replicate, EnvCall.isBusRead])
  | allocFails n hn => exact .inl (by simp [List.countP_replicate, EnvCall.isBusRead])
  | reads n hn answer =>
    exact .inr ⟨by simp [List.countP_replicate, List.countP_cons, EnvCall.isBusRead], n, answer, rfl⟩

end

/-- Settles O44, by the calls that I_RX can make. -/
theorem iRxTransactionCounts : Obligations.IRxTransactionCounts := by
  unfold Obligations.IRxTransactionCounts
  intro s t addr len8 h1 hx
  rw [exec_iRx] at hx
  cases (guarded_next hx).2
  obtain ⟨calls, ht, hcalls⟩ := i2cReceive_calls addr len8 s
  obtain ⟨hfew, hmany⟩ := hcalls.countP_isBusWrite h1
  refine ⟨calls, ht, hfew, hmany, ?_, fun hread => ?_⟩
  · rcases hcalls.countP_isBusRead with h | ⟨h, -⟩ <;> omega
  · rcases hcalls.countP_isBusRead with h | ⟨-, n, answer, rfl⟩
    · omega
    · exact ⟨by simp [EnvCall.isBusWrite, requestFrame], by simp [responseSize], n, answer, rfl⟩

end Sys2Proof.Machine
end

section
/-! PROOFS. The timing source (spec/42_timing_source.md R160 to R163): the tick over a run of TICKs, T_NOW,
and T_SLEEP with its hold. -/

namespace Sys2Proof.Machine

/-! ## The tick -/

/-- Settles O53: the TICKER's event runs `tickStep` in every state. -/
theorem tickAddsOneAndWraps : Obligations.TickAddsOneAndWraps := by
  unfold Obligations.TickAddsOneAndWraps
  intro s rest hin
  rw [step_event hin, handle_tick]
  rfl

/-- Advancing by one and then by `n` is advancing by `n + 1` (R162). -/
theorem tickNext_add_mod (k : Config) (t n : Nat) :
    (tickNext k t + n) % 2 ^ k.tickW = (t + (n + 1)) % 2 ^ k.tickW := by
  rw [tickNext, Nat.mod_add_mod, Nat.add_right_comm, Nat.add_assoc]

/-- `n` TICKs in a row add `n` modulo `2^TICK_W` and change nothing else (R162). -/
theorem steps_ticks (rest : List Event) : ∀ (n : Nat) (s : State), s.tick < 2 ^ s.cfg.tickW →
    steps n { s with inputs := List.replicate n .tick ++ rest } =
      .next { s with inputs := rest, tick := (s.tick + n) % 2 ^ s.cfg.tickW }
  | 0, s, ht => by
    rw [Nat.add_zero, Nat.mod_eq_of_lt ht]
    rfl
  | n + 1, s, _ => by
    have hfirst : step { s with inputs := List.replicate (n + 1) .tick ++ rest } =
        .next { tickStep s with inputs := List.replicate n .tick ++ rest } := by
      rw [List.replicate_succ, List.cons_append, step_with, handle_tick]
      rfl
    rw [steps_succ hfirst, steps_ticks rest n (tickStep s) (tickNext_lt s.cfg s.tick),
      ← tickNext_add_mod]
    rfl

/-- Settles O54: the run of TICKs ends `n` past the first reading, whatever wrapped on the way. -/
theorem elapsedTimeIsExactAcrossTheWrap : Obligations.ElapsedTimeIsExactAcrossTheWrap := by
  unfold Obligations.ElapsedTimeIsExactAcrossTheWrap
  intro s n rest ht hn
  exact ⟨_, steps_ticks rest n s ht, elapsed_add s.cfg s.tick n ht hn⟩

/-! ## T_NOW and T_SLEEP -/

/-- Every build has the timing source, and it needs no reset (R204): a ready CONSUMER is admitted. -/
theorem timing_admitted {s : State} (hp : s.presenter = .consumer) (hc : s.consumer = .ready) :
    whyRefused .timing .consumer false s = none :=
  whyRefused_eq_none.mpr ⟨rfl, by rw [hp]; rfl, by rw [hp]; rfl, nofun, fun _ => hc, nofun⟩

/-- Settles O51, by the result that an admitted T_NOW returns. -/
theorem tNowReturnsTheTick : Obligations.TNowReturnsTheTick := by
  unfold Obligations.TNowReturnsTheTick
  intro s hp hc
  rw [exec_tNow, guarded_of_none (timing_admitted hp hc)]
  rfl

theorem sleepOrHold_holds {s : State} {t0 d : Nat} (h : elapsed s.cfg t0 s.tick < d) :
    sleepOrHold t0 d s = s :=
  if_neg (Nat.not_le_of_lt h)

theorem sleepOrHold_completes {s : State} {t0 d : Nat} (h : d ≤ elapsed s.cfg t0 s.tick) :
    sleepOrHold t0 d s = ({ s with consumer := .ready } : State).ret .consumer { code := .ok } :=
  if_pos h

/-- The sleeping consumer looks again (R10 item 3). -/
theorem step_resume_sleeping {s : State} {rest : List Event} {t0 d : Nat}
    (hin : s.inputs = .resume :: rest) (hc : s.consumer = .sleeping t0 d) :
    step s = .next (sleepOrHold t0 d { s with inputs := rest }) := by
  rw [step_event hin, handle_resume]
  simp [resumeConsumer, hc]

/-- Settles O52: T_SLEEP samples the tick when presented, and each later look compares what has elapsed
since. -/
theorem tSleepBlocksForAtLeastItsDuration : Obligations.TSleepBlocksForAtLeastItsDuration := by
  unfold Obligations.TSleepBlocksForAtLeastItsDuration
  refine ⟨fun s d hp hc => ?presented, fun s rest t0 d hin hc hlt => ?held,
    fun s rest t0 d hin hc hle => ?completed⟩
  case presented =>
    rw [exec_tSleep, guarded_of_none (timing_admitted hp hc)]
  case held =>
    rw [step_resume_sleeping hin hc, sleepOrHold_holds (s := { s with inputs := rest }) hlt]
  case completed =>
    rw [step_resume_sleeping hin hc, sleepOrHold_completes (s := { s with inputs := rest }) hle]
    rfl

end Sys2Proof.Machine
end

section
/-! PROOFS. What the hardware does in place of exceptions (spec/60_exceptions.md): refusals of the wrong
presenter (R184), bytes that arrive beside the consumer (R177 to R179), and the errors of I_RX (R171 to
R174, R180). -/

namespace Sys2Proof.Machine

/-! ## The wrong role and the second agent -/

/-- Every operation of a role belongs to a block (R78). -/
theorem exists_blockOf {i : Instr} {r : Role} (hr : roleAllowed i = some r) :
    ∃ b, blockOf i = some b := by
  cases i with
  | reserved6 | reserved7 | reservedB | reservedE | reservedF => cases hr
  | frameWrite | frameReadRequest | frameReadResponse => cases hr
  | sReset | sPush | sAvail | sPop | sTx | sOvr | iReset | iTx | iRx | tNow | tSleep => exact ⟨_, rfl⟩

/-- Settles O13: an admitted presenter has the operation's role and is no second agent. -/
theorem wrongRoleAndSecondAgentAreRefused : Obligations.WrongRoleAndSecondAgentAreRefused := by
  unfold Obligations.WrongRoleAndSecondAgentAreRefused
  intro s i r hr hwrong
  obtain ⟨b, hb⟩ := exists_blockOf hr
  obtain ⟨n, run, hexec⟩ := exec_guarded hr hb
  rw [hexec]
  refine guarded_refused fun hadmitted => ?_
  obtain ⟨-, hfirst, hrole, -⟩ := whyRefused_eq_none.mp hadmitted
  rcases hwrong with hother | hsecond
  · exact hother hrole
  · cases hfirst.symm.trans hsecond

/-! ## A byte that arrives -/

/-- Settles O35, by what LINE delivers in either position of `rx_armed`. -/
theorem arrivingByteIsPushedOrLost : Obligations.ArrivingByteIsPushedOrLost := by
  unfold Obligations.ArrivingByteIsPushedOrLost
  intro s b rest hin
  rw [step_event hin, handle_byteArrived]
  exact ⟨fun harmed => lineDelivers_armed (s := { s with inputs := rest }) harmed,
    fun hunarmed => lineDelivers_unarmed (s := { s with inputs := rest }) hunarmed⟩

/-! ## S_PUSH and S_POP at the same time -/

/-- What a ready block with a free consumer comes to in `t`: the events still to come, the bytes retained,
the bytes S_POP has returned, and the overruns counted (R28). -/
structure SerialView (k : Config) (events : List Event) (retained popped : List Byte) (overruns : Nat)
    (t : State) : Prop where
  ready : SerialReady t
  bufWf : Memory.wf t.buf
  free : t.consumer = .ready
  cfg : t.cfg = k
  inputs : t.inputs = events
  retained : queue t = retained
  popped : poppedBytes t = popped
  overruns : t.overruns = overruns

section

variable {k : Config} {es : List Event} {x b : Byte} {q out : List Byte} {n : Nat} {s : State}

theorem SerialView.occ_eq (h : SerialView k es q out n s) : occ s = q.length := by
  rw [← queue_length, h.retained]

/-- S_POP by the CONSUMER returns the oldest byte and retains the others (R103). -/
theorem SerialView.pop {p : Ports} (h : SerialView k (.command .consumer p :: es) (x :: q) out n s)
    (hop : p.op = 0x3) : ∃ t, step s = .next t ∧ SerialView k es q (out ++ [x]) n t := by
  have hready := h.ready.withAgents es .consumer s.consumer
  have hmay : ConsumerMay .serial { s with inputs := es, presenter := .consumer } :=
    ⟨hready.built, rfl, h.free⟩
  have hne : s.fill ≠ s.drain := fun hempty => by
    have hnil := (queue_eq_nil_iff h.ready.fillRange h.ready.drainRange).mpr hempty
    cases hnil.symm.trans h.retained
  obtain ⟨hread, hrest⟩ := List.cons.inj
    ((queue_popByte hready.fillRange hready.drainRange hne).symm.trans h.retained)
  refine ⟨popByte { s with inputs := es, presenter := .consumer }, ?_, serialReady_popByte hready, ?_,
    rfl, h.cfg, rfl, hrest, ?_, h.overruns⟩
  · rw [step_event h.inputs, handle_command, decodeCommand_sPop hop, exec_sPop,
      guarded_of_none (hmay.admitted hready.initialised)]
    exact popOrHold_pops hne hready.drainRange
  · exact h.bufWf
  · rw [poppedBytes_popByte, hread, ← h.popped]
    rfl

/-- A byte that arrives is pushed, and returns nothing to the consumer (R101, R177). -/
theorem SerialView.push (h : SerialView k (.byteArrived b :: es) q out n s) :
    ∃ t, step s = .next t ∧
      SerialView k es (queue (pushByte b s)) out (pushByte b s).overruns t := by
  have hready := h.ready.withAgents es .producer s.consumer
  refine ⟨_, step_byteArrived_of_ready h.ready h.inputs, serialReady_pushByte hready b, ?_,
    by simpa using h.free, by simpa using h.cfg, by simp,
    queue_congr (by simp) (by simp) (by simp) (by simp [full]), ?_, by simp [full]⟩
  · rw [pushByte_buf]
    exact Memory.write_wf _ _ _ h.bufWf
  · rw [poppedBytes_pushByte, ← h.popped]
    rfl

/-- With room the byte is the youngest retained, and no overrun is counted (R101). -/
theorem SerialView.push_of_room (h : SerialView k (.byteArrived b :: es) q out n s)
    (hroom : q.length < k.c - 1) :
    ∃ t, step s = .next t ∧ SerialView k es (q ++ [b]) out n t := by
  obtain ⟨hqueue, hcount⟩ :=
    queue_pushByte_of_room h.ready h.bufWf b (by rw [h.occ_eq, h.cfg]; exact hroom)
  simpa only [hqueue, hcount, h.retained, h.overruns] using h.push

/-- On a full buffer the byte evicts the oldest, which is counted (R101). -/
theorem SerialView.push_of_full (h : SerialView k (.byteArrived b :: es) (x :: q) out n s)
    (hfull : (x :: q).length = k.c - 1) :
    ∃ t, step s = .next t ∧ SerialView k es (q ++ [b]) out (satInc k n) t := by
  obtain ⟨hqueue, hcount⟩ :=
    queue_pushByte_of_full h.ready h.bufWf b (by rw [h.occ_eq, h.cfg]; exact hfull)
  simpa only [hqueue, hcount, h.retained, h.overruns, h.cfg, List.tail_cons] using h.push

end

/-- Settles O34: a pop that comes first makes the room the push takes; one that comes second finds the
oldest byte evicted. -/
theorem bothOrdersOfPushAndPopAreRuns : Obligations.BothOrdersOfPushAndPopAreRuns := by
  unfold Obligations.BothOrdersOfPushAndPopAreRuns
  intro s b x y q h hw hc _ hfull hq
  have hstart (es : List Event) : SerialView s.cfg es (x :: y :: q) (poppedBytes s) s.overruns
      { s with inputs := es } :=
    ⟨h.withAgents es s.presenter s.consumer, hw, hc, rfl, rfl, hq, rfl, rfl⟩
  have hlen : (x :: y :: q).length = s.cfg.c - 1 :=
    (hstart []).occ_eq.symm.trans ((full_iff_occ s h.fillRange h.drainRange).mp hfull)
  constructor
  · obtain ⟨t, hpop, ht⟩ := (hstart [.command .consumer { op := 0x3 }, .byteArrived b]).pop rfl
    obtain ⟨u, hpush, hu⟩ := ht.push_of_room (hlen ▸ Nat.lt_succ_self _)
    exact ⟨u, (steps_succ hpop).trans (steps_succ hpush), hu.popped, hu.retained, hu.overruns⟩
  · obtain ⟨t, hpush, ht⟩ :=
      (hstart [.byteArrived b, .command .consumer { op := 0x3 }]).push_of_full hlen
    obtain ⟨u, hpop, hu⟩ := ht.pop rfl
    exact ⟨u, (steps_succ hpush).trans (steps_succ hpop), hu.popped, hu.retained, hu.overruns⟩

/-! ## The errors of I_RX -/

section

variable {s : State} {addr : Nat} {len8 : Byte} {k : Nat} {writes allocs : List Bool}
  {reads : List (Option (List Byte))}

/-- What a return from I_RX leaves (R132, R176). -/
theorem endRx_eq (s : State) (res : Result) : s.endRx res = { s with
    phase := .idle
    attempt := 0
    consumer := .ready
    results := s.results ++ [⟨.consumer, res⟩] } := rfl

/-- The state in which `k` request writes have failed and one more has succeeded (R132 step 1). -/
def afterRequest (addr : Nat) (len8 : Byte) (k : Nat) (writes : List Bool) (s : State) : State :=
  { rxBegin addr len8 s with
    attempt := k + 1
    answers := { s.answers with write := writes }
    freeIdx := s.freeIdx + k + 1
    trace := s.trace ++
      List.replicate k (.busWrite addr (requestFrame len8) s.cfg.i2cWriteMs false) ++
      [.busWrite addr (requestFrame len8) s.cfg.i2cWriteMs true] }

/-- An admitted I_RX whose request goes through is in its read phase (R132). -/
theorem exec_iRx_of_request (hmay : ConsumerMay .i2c s) (hidle : EngineIdle s)
    (hi : s.iInit = true) (hk : k < s.cfg.i2cReqAttempts)
    (hw : s.answers.write = List.replicate k false ++ true :: writes) :
    exec (.iRx addr len8) s =
      .next (rxReadPhase addr len8 (afterRequest addr len8 k writes s)) := by
  have hrequests := requestPhase_succeeds (addr := addr) (len8 := len8) (s := rxBegin addr len8 s) hk hw
  rw [exec_iRx, guarded_of_none (hmay.admitted_i2c hidle hi), i2cReceive_eq, afterRequestPhase,
    if_pos (by rw [hrequests]), hrequests]
  simp [afterRequest, rxBegin]

/-- No request went through: `ERR_WRITE`, and nothing else is tried (R132 step 2, R172). -/
theorem i2cReceive_of_requests_fail
    (hw : s.answers.write = List.replicate s.cfg.i2cReqAttempts false ++ writes) :
    i2cReceive addr len8 s = (afterFailures addr len8 s.cfg.i2cReqAttempts writes
      (rxBegin addr len8 s)).endRx { code := .errWrite } := by
  rw [i2cReceive_eq, requestPhase_fails (s := rxBegin addr len8 s) hw]
  rfl

/-- The allocation fails: `ERR_ALLOC`, with no read (R171). -/
theorem rxReadPhase_of_alloc_fail (ha : s.answers.alloc = false :: allocs) :
    rxReadPhase addr len8 s = ({ s with
      scratch := none
      answers := { s.answers with alloc := allocs }
      freeIdx := s.freeIdx + 1
      trace := s.trace ++ [.alloc (responseSize len8) false] } : State).endRx { code := .errAlloc } := by
  rcases rxReadPhase_cases addr len8 s with ⟨-, hx⟩ | ⟨hok, -⟩
  · rw [hx, ha, List.tail_cons]
  · cases (allocAnswer_script ha).symm.trans hok

/-- The state in which the one read has been made, where the script gives both answers. -/
theorem afterRead_script {answer : Option (List Byte)} (ha : s.answers.alloc = true :: allocs)
    (hr : s.answers.read = answer :: reads)
    (hread : readAnswer (responseSize len8) { s with freeIdx := s.freeIdx + 1 } = answer) :
    afterRead addr len8 s = { s with
      phase := .rxRead
      scratch := some { size := responseSize len8, cells := [] }
      answers := { s.answers with alloc := allocs, read := reads }
      freeIdx := s.freeIdx + 2
      trace := s.trace ++ [.alloc (responseSize len8) true,
        .busRead addr (responseSize len8) s.cfg.i2cReadMs answer] } := by
  simp [afterRead, ha, hr, hread]

/-- The read fails: the region is freed and `ERR_READ` returned (R173). -/
theorem rxReadPhase_of_read_fail (ha : s.answers.alloc = true :: allocs)
    (hr : s.answers.read = none :: reads) :
    rxReadPhase addr len8 s = (afterRead addr len8 s).freeScratch.endRx { code := .errRead } := by
  have hread : readAnswer (responseSize len8) { s with freeIdx := s.freeIdx + 1 } = none :=
    readAnswer_fail hr
  rcases rxReadPhase_cases addr len8 s with ⟨hfail, -⟩ | ⟨-, ⟨-, hx⟩ | ⟨_, _, _, -, hok, -⟩⟩
  · cases (allocAnswer_script ha).symm.trans hfail
  · exact hx
  · cases hread.symm.trans hok

/-- The response echoes another length: the region is freed and `ERR_LEN_MISMATCH` returned (R174). -/
theorem rxReadPhase_of_mismatch {backlog echoed : Byte} {payload : List Byte}
    (hlen : payload.length = len8.toNat) (hne : echoed ≠ len8)
    (ha : s.answers.alloc = true :: allocs)
    (hr : s.answers.read = some (backlog :: echoed :: payload) :: reads) :
    rxReadPhase addr len8 s = (rxStore (backlog :: echoed :: payload)
      (afterRead addr len8 s)).freeScratch.endRx { code := .errLenMismatch } := by
  have hread : readAnswer (responseSize len8) { s with freeIdx := s.freeIdx + 1 } =
      some (backlog :: echoed :: payload) := readAnswer_ok hr (by simp [responseSize, hlen])
  rcases rxReadPhase_cases addr len8 s with ⟨hfail, -⟩ | ⟨-, ⟨hnone, -⟩ | ⟨a, e, p, -, hok, hx⟩⟩
  · cases (allocAnswer_script ha).symm.trans hfail
  · cases hread.symm.trans hnone
  · obtain ⟨rfl, rfl, rfl⟩ : a = backlog ∧ e = echoed ∧ p = payload := by
      simpa using hok.symm.trans hread
    rcases hx with ⟨heq, -⟩ | ⟨-, hx⟩
    · exact absurd heq hne
    · exact hx

end

/-- Settles O40: the request goes through, and the response that is read is not accepted. -/
theorem iRxRejectsAnotherEchoedLength : Obligations.IRxRejectsAnotherEchoedLength := by
  unfold Obligations.IRxRejectsAnotherEchoedLength
  intro s addr len8 k writes allocs reads backlog echoed payload hmay hidle hi hk hlen hne hw ha hr
  rw [exec_iRx_of_request hmay hidle hi hk hw,
    rxReadPhase_of_mismatch (s := afterRequest addr len8 k writes s) hlen hne ha hr,
    afterRead_script (s := afterRequest addr len8 k writes s) ha hr
      (readAnswer_ok hr (by simp [responseSize, hlen]))]
  simp [afterRequest, rxBegin, rxStore, State.scratchStore, State.freeScratch, State.call, endRx_eq,
    requestFrame, responseSize, hidle.phase, hidle.attempt, hidle.scratch, hmay.ready]

/-- Settles O41, failure by failure in the order of R180. -/
theorem iRxReportsTheFirstFailure : Obligations.IRxReportsTheFirstFailure := by
  unfold Obligations.IRxReportsTheFirstFailure
  refine ⟨fun s addr len8 writes hmay hidle hi hw => ?requests,
    fun s addr len8 k writes allocs hmay hidle hi hk hw ha => ?allocation,
    fun s addr len8 k writes allocs reads hmay hidle hi hk hw ha hr => ?read⟩
  case requests =>
    rw [exec_iRx, guarded_of_none (hmay.admitted_i2c hidle hi), i2cReceive_of_requests_fail hw]
    simp [afterFailures, rxBegin, endRx_eq, requestFrame, hidle.phase, hidle.attempt, hmay.ready]
  case allocation =>
    rw [exec_iRx_of_request hmay hidle hi hk hw,
      rxReadPhase_of_alloc_fail (s := afterRequest addr len8 k writes s) ha]
    simp [afterRequest, rxBegin, endRx_eq, requestFrame, responseSize, hidle.phase, hidle.attempt,
      hidle.scratch, hmay.ready]
  case read =>
    rw [exec_iRx_of_request hmay hidle hi hk hw,
      rxReadPhase_of_read_fail (s := afterRequest addr len8 k writes s) ha hr,
      afterRead_script (s := afterRequest addr len8 k writes s) ha hr (readAnswer_fail hr)]
    simp [afterRequest, rxBegin, State.freeScratch, State.call, endRx_eq, requestFrame, responseSize,
      hidle.phase, hidle.attempt, hidle.scratch, hmay.ready]

end Sys2Proof.Machine
end

section
/-! PROOFS. Power-on and the first reset of each block (spec/70_reset_and_hazards.md): the power-on state
and the invariant (R200), what is refused before a first reset (R201), what the two resets leave (R202,
R203), and that the busy consumer issues nothing (R210). -/

namespace Sys2Proof.Machine

/-! ## Power-on -/

/-- Settles O1: 0 fits every width, and no cell is listed. -/
theorem resetIsAPowerOnState : Obligations.ResetIsAPowerOnState where
  sInit := rfl
  iInit := rfl
  rxArmed := rfl
  idle := ⟨rfl, rfl, rfl⟩
  consumer := rfl
  fillWidth := Nat.two_pow_pos _
  drainWidth := Nat.two_pow_pos _
  overrunsWidth := Nat.two_pow_pos _
  tickWidth := Nat.two_pow_pos _
  bufWf := Memory.wf_nil
  bufRange := nofun
  rxbufWf := Memory.wf_nil
  results := rfl
  trace := rfl

/-- At power-on no block is initialised, so what the invariant asks of an initialised block is asked of
none; the rest is what power-on gives (R200, R36). -/
theorem PowerOn.machineInv {s : State} (hk : s.cfg.Ok) (h : PowerOn s) : MachineInv s :=
  have hserial : s.sInit ≠ true := by simp [h.sInit]
  have hi2c : s.iInit ≠ true := by simp [h.iInit]
  { h with
    cfgOk := hk
    fillRange := fun hi => absurd hi hserial
    drainRange := fun hi => absurd hi hserial
    armed := h.rxArmed.trans h.sInit.symm
    serialBuilt := fun hi => absurd hi hserial
    i2cBuilt := fun hi => absurd hi hi2c
    consumerOk := .of_ready h.consumer h.idle
    traceOk := by simp [h.trace] }

/-- Settles O2. -/
theorem everyPowerOnStateMeetsTheInvariant : Obligations.EveryPowerOnStateMeetsTheInvariant :=
  fun _ hk h => h.machineInv hk

/-- Settles O3: the reset state is a power-on state of the default configuration, which is legal. -/
theorem invariantHoldsAtReset : Obligations.InvariantHoldsAtReset :=
  PowerOn.machineInv (by decide) resetIsAPowerOnState

/-! ## Before the first reset -/

/-- An operation that needs its block's first reset is refused before it. -/
theorem exec_refused_of_unreset {i : Instr} {b : Block} {r : Role} {s : State} {run : State → Answer}
    (hexec : exec i s = guarded b r true s run) (h : s.blockReset b = false) :
    ∃ why, exec i s = .refused why := by
  rw [hexec]
  exact guarded_refused fun hadmitted => by cases h.symm.trans (blockReset_of_admitted hadmitted)

/-- The ground `beforeReset` is named only for an operation that needs the reset. -/
theorem needsReset_of_whyRefused_beforeReset {b : Block} {r : Role} {n : Bool} {s : State}
    (h : whyRefused b r n s = some .beforeReset) : n = true ∧ s.blockReset b = false := by
  unfold whyRefused at h
  split_ifs at h with _ _ _ _ _ hreset
  all_goals cases h
  exact hreset

/-- An operation that needs no reset, and refuses nothing once admitted, is not refused as before one. -/
theorem exec_ne_beforeReset {i : Instr} {b : Block} {r : Role} {s : State} {run : State → State}
    (hexec : exec i s = guarded b r false s fun s => .next (run s)) :
    exec i s ≠ .refused .beforeReset := by
  rw [hexec, guarded]
  cases hw : whyRefused b r false s with
  | none => nofun
  | some why =>
    rintro ⟨⟩
    cases (needsReset_of_whyRefused_beforeReset hw).1

/-- Settles O14, by what the guard of each operation asks of its block's bookkeeping bit. -/
theorem operationsBeforeTheFirstResetAreRefused :
    Obligations.OperationsBeforeTheFirstResetAreRefused := by
  unfold Obligations.OperationsBeforeTheFirstResetAreRefused
  refine ⟨fun s data hi => exec_refused_of_unreset (exec_sPush s data) hi, fun s i hop hi => ?serial,
    fun s i hop hi => ?i2c, fun s i hop => ?never⟩
  case serial =>
    rcases hop with rfl | rfl | rfl | ⟨flush, lenN, txbuf, rfl⟩
    · exact exec_refused_of_unreset (exec_sAvail s) hi
    · exact exec_refused_of_unreset (exec_sPop s) hi
    · exact exec_refused_of_unreset (exec_sOvr s) hi
    · exact exec_refused_of_unreset (exec_sTx s flush lenN txbuf) hi
  case i2c =>
    rcases hop with ⟨flush, addr, len8, txbuf, rfl⟩ | ⟨addr, len8, rfl⟩
    · exact exec_refused_of_unreset (exec_iTx s flush addr len8 txbuf) hi
    · exact exec_refused_of_unreset (exec_iRx s addr len8) hi
  case never =>
    rcases hop with rfl | rfl | rfl | ⟨dur, rfl⟩
    · exact exec_ne_beforeReset (exec_sReset s)
    · exact exec_ne_beforeReset (exec_iReset s)
    · exact exec_ne_beforeReset (exec_tNow s)
    · exact exec_ne_beforeReset (exec_tSleep s dur)

/-! ## The busy consumer -/

/-- Settles O16: the guard of every operation of the CONSUMER asks for a ready consumer (R10, R210). -/
theorem busyConsumerCannotIssueAnOperation : Obligations.BusyConsumerCannotIssueAnOperation := by
  unfold Obligations.BusyConsumerCannotIssueAnOperation
  intro s i hr hbusy
  obtain ⟨b, hb⟩ := exists_blockOf hr
  obtain ⟨n, run, hexec⟩ := exec_guarded hr hb
  rw [hexec]
  refine guarded_refused fun hadmitted => ?_
  obtain ⟨-, -, -, -, hready, -⟩ := whyRefused_eq_none.mp hadmitted
  exact hbusy (hready rfl)

/-! ## The two resets -/

/-- A CONSUMER that may present an operation is admitted to one that needs no reset; of the engine's, while
the engine is idle (R10, R139, R201). -/
theorem ConsumerMay.admitted_reset {b : Block} {s : State} (h : ConsumerMay b s)
    (hidle : b = .i2c → s.phase = .idle) : whyRefused b .consumer false s = none :=
  whyRefused_eq_none.mpr ⟨h.built, by rw [h.presenter]; rfl, by rw [h.presenter]; rfl, hidle,
    fun _ => h.ready, nofun⟩

/-- What S_RESET leaves (R100, R202). -/
theorem serialReset_eq (s : State) : serialReset s = { s with
    fill := 0
    drain := 0
    overruns := 0
    rxArmed := true
    sInit := true
    trace := s.trace ++ [.lineDeinit, .lineInit, .lineArmRx]
    results := s.results ++ [⟨.consumer, { code := .ok }⟩] } := by
  simp [serialReset, State.lineArmRx, State.call, State.ret]

/-- A cell is live only while a byte is retained (R12). -/
theorem not_live_of_occ_eq_zero {s : State} (h : occ s = 0) (a : Nat) : ¬ Live s a := by
  rintro ⟨i, hi, -⟩
  omega

/-- Settles O17: no byte is retained once both indices are 0. -/
theorem sResetEmptiesTheBuffer : Obligations.SResetEmptiesTheBuffer := by
  unfold Obligations.SResetEmptiesTheBuffer
  intro s hmay
  refine ⟨serialReset s, ?_, serialReset_eq s, not_live_of_occ_eq_zero (occ_serialReset s)⟩
  rw [exec_sReset, guarded_of_none (hmay.admitted_reset nofun)]

/-- What I_RESET leaves (R130, R203). -/
theorem i2cReset_eq (s : State) : i2cReset s = { s with
    phase := .idle
    attempt := 0
    iInit := true
    trace := s.trace ++ [.busDeinit, .busInit]
    results := s.results ++ [⟨.consumer, { code := .ok }⟩] } := by
  simp [i2cReset, State.call, State.ret]

/-- I_RESET makes and frees no scratch region (R203). -/
theorem engineIdle_i2cReset {s : State} (h : s.scratch = none) : EngineIdle (i2cReset s) :=
  ⟨rfl, rfl, h⟩

/-- Initialising the bus is no transaction (R85, R130). -/
theorem transactions_i2cReset (s : State) : transactions (i2cReset s) = transactions s := by
  simp [transactions, List.filter_append, EnvCall.isTransaction]

/-- Settles O37, by what an admitted I_RESET leaves. -/
theorem iResetReturnsTheEngineToIdle : Obligations.IResetReturnsTheEngineToIdle := by
  unfold Obligations.IResetReturnsTheEngineToIdle
  intro s hmay hidle
  refine ⟨i2cReset s, ?_, i2cReset_eq s, engineIdle_i2cReset, transactions_i2cReset s⟩
  rw [exec_iReset, guarded_of_none (hmay.admitted_reset fun _ => hidle)]

end Sys2Proof.Machine
end
